-- ==== Sys2Proof/Word.lean ====
section
/-! DEFINITION. The word types of the xsp engine (spec 00_scope.md section 5): names only, no behaviour. -/

namespace Sys2Proof

/-- A 32-bit word: every register, address and instruction word (00_scope.md R7, XLEN). -/
abbrev Word := BitVec 32

/-- A byte, the addressable unit (20_memory.md R71). -/
abbrev Byte := BitVec 8

/-- The number of a general register, 0 to 31 (10_state.md R20). -/
abbrev RegIdx := Fin 32

/-- The number of a system control register slot, 0 to 31 (10_state.md R37). -/
abbrev SlotIdx := Fin 32

/-- The number of a DMA channel, 0 to 7 (10_state.md R49). -/
abbrev ChanIdx := Fin 8

end Sys2Proof
end

