-- ==== Sys2Proof/Syntax.lean ====
section
/-! DEFINITION. The instructions: one constructor for each of the 70 rows of 30_encoding.md R134, in the table's
order, operands in the assembler's order (R137). Register numbers, immediates and code fields carry their bounds in
their types, so every term of this type is an instruction the encoding admits. -/

namespace Sys2Proof

/-- An instruction of the engine (30_encoding.md R134). -/
inductive Instr where
  /-- SLL (R164): shift left logical by the `shamt` field. -/
  | sll (rd rt : RegIdx) (shamt : BitVec 5)
  /-- SRL (R165): shift right logical by the `shamt` field. -/
  | srl (rd rt : RegIdx) (shamt : BitVec 5)
  /-- SRA (R166): shift right arithmetic by the `shamt` field. -/
  | sra (rd rt : RegIdx) (shamt : BitVec 5)
  /-- SLLV (R167): shift left logical by a register. -/
  | sllv (rd rt rs : RegIdx)
  /-- SRLV (R168): shift right logical by a register. -/
  | srlv (rd rt rs : RegIdx)
  /-- SRAV (R169): shift right arithmetic by a register. -/
  | srav (rd rt rs : RegIdx)
  /-- JR (R235): jump register. -/
  | jr (rs : RegIdx)
  /-- JALR (R236): jump and link register. -/
  | jalr (rd rs : RegIdx)
  /-- SYSCALL (R255): system call; `code` is not examined by the hardware. -/
  | syscall (code : BitVec 20)
  /-- BREAK (R256): breakpoint; `code` is not examined by the hardware. -/
  | brk (code : BitVec 20)
  /-- MFHI (R194): move from HI. -/
  | mfhi (rd : RegIdx)
  /-- MTHI (R196): move to HI. -/
  | mthi (rs : RegIdx)
  /-- MFLO (R195): move from LO. -/
  | mflo (rd : RegIdx)
  /-- MTLO (R197): move to LO. -/
  | mtlo (rs : RegIdx)
  /-- MULT (R190): multiply signed. -/
  | mult (rs rt : RegIdx)
  /-- MULTU (R191): multiply unsigned. -/
  | multu (rs rt : RegIdx)
  /-- DIV (R192): divide signed. -/
  | div (rs rt : RegIdx)
  /-- DIVU (R193): divide unsigned. -/
  | divu (rs rt : RegIdx)
  /-- ADD (R154): add, trapping. -/
  | add (rd rs rt : RegIdx)
  /-- ADDU (R155): add modulo 2^32. -/
  | addu (rd rs rt : RegIdx)
  /-- SUB (R156): subtract, trapping. -/
  | sub (rd rs rt : RegIdx)
  /-- SUBU (R157): subtract modulo 2^32. -/
  | subu (rd rs rt : RegIdx)
  /-- AND (R158): bitwise and. -/
  | and (rd rs rt : RegIdx)
  /-- OR (R159): bitwise or. -/
  | or (rd rs rt : RegIdx)
  /-- XOR (R160): bitwise exclusive or. -/
  | xor (rd rs rt : RegIdx)
  /-- NOR (R161): bitwise not-or. -/
  | nor (rd rs rt : RegIdx)
  /-- SLT (R162): set on less than, signed. -/
  | slt (rd rs rt : RegIdx)
  /-- SLTU (R163): set on less than, unsigned. -/
  | sltu (rd rs rt : RegIdx)
  /-- BLTZ (R241): branch on less than zero. -/
  | bltz (rs : RegIdx) (imm : BitVec 16)
  /-- BGEZ (R242): branch on greater than or equal to zero. -/
  | bgez (rs : RegIdx) (imm : BitVec 16)
  /-- BLTZAL (R243): branch on less than zero and link. -/
  | bltzal (rs : RegIdx) (imm : BitVec 16)
  /-- BGEZAL (R244): branch on greater than or equal to zero and link. -/
  | bgezal (rs : RegIdx) (imm : BitVec 16)
  /-- J (R233): jump. -/
  | j (target : BitVec 26)
  /-- JAL (R234): jump and link. -/
  | jal (target : BitVec 26)
  /-- BEQ (R237): branch on equal. -/
  | beq (rs rt : RegIdx) (imm : BitVec 16)
  /-- BNE (R238): branch on not equal. -/
  | bne (rs rt : RegIdx) (imm : BitVec 16)
  /-- BLEZ (R239): branch on less than or equal to zero. -/
  | blez (rs : RegIdx) (imm : BitVec 16)
  /-- BGTZ (R240): branch on greater than zero. -/
  | bgtz (rs : RegIdx) (imm : BitVec 16)
  /-- ADDI (R170): add immediate, trapping. -/
  | addi (rt rs : RegIdx) (imm : BitVec 16)
  /-- ADDIU (R171): add immediate modulo 2^32. -/
  | addiu (rt rs : RegIdx) (imm : BitVec 16)
  /-- SLTI (R172): set on less than immediate, signed. -/
  | slti (rt rs : RegIdx) (imm : BitVec 16)
  /-- SLTIU (R173): set on less than immediate, unsigned. -/
  | sltiu (rt rs : RegIdx) (imm : BitVec 16)
  /-- ANDI (R174): and immediate. -/
  | andi (rt rs : RegIdx) (imm : BitVec 16)
  /-- ORI (R175): or immediate. -/
  | ori (rt rs : RegIdx) (imm : BitVec 16)
  /-- XORI (R176): exclusive or immediate. -/
  | xori (rt rs : RegIdx) (imm : BitVec 16)
  /-- LUI (R177): load upper immediate. -/
  | lui (rt : RegIdx) (imm : BitVec 16)
  /-- MFC0 (R250): move from system control register. -/
  | mfc0 (rt : RegIdx) (slot : SlotIdx)
  /-- MTC0 (R251): move to system control register. -/
  | mtc0 (rt : RegIdx) (slot : SlotIdx)
  /-- RFE (R252): restore from exception. -/
  | rfe
  /-- COP1 (R257): coprocessor 1 operation; the low 26 bits are ignored. -/
  | cop1 (low : BitVec 26)
  /-- COP2 (R257): coprocessor 2 operation; the low 26 bits are ignored. -/
  | cop2 (low : BitVec 26)
  /-- COP3 (R257): coprocessor 3 operation; the low 26 bits are ignored. -/
  | cop3 (low : BitVec 26)
  /-- LB (R202): load byte, sign-extended. -/
  | lb (rt rs : RegIdx) (imm : BitVec 16)
  /-- LH (R204): load halfword, sign-extended. -/
  | lh (rt rs : RegIdx) (imm : BitVec 16)
  /-- LWL (R207): load word left. -/
  | lwl (rt rs : RegIdx) (imm : BitVec 16)
  /-- LW (R206): load word. -/
  | lw (rt rs : RegIdx) (imm : BitVec 16)
  /-- LBU (R203): load byte, zero-extended. -/
  | lbu (rt rs : RegIdx) (imm : BitVec 16)
  /-- LHU (R205): load halfword, zero-extended. -/
  | lhu (rt rs : RegIdx) (imm : BitVec 16)
  /-- LWR (R208): load word right. -/
  | lwr (rt rs : RegIdx) (imm : BitVec 16)
  /-- SB (R211): store byte. -/
  | sb (rt rs : RegIdx) (imm : BitVec 16)
  /-- SH (R212): store halfword. -/
  | sh (rt rs : RegIdx) (imm : BitVec 16)
  /-- SWL (R214): store word left. -/
  | swl (rt rs : RegIdx) (imm : BitVec 16)
  /-- SW (R213): store word. -/
  | sw (rt rs : RegIdx) (imm : BitVec 16)
  /-- SWR (R215): store word right. -/
  | swr (rt rs : RegIdx) (imm : BitVec 16)
  /-- LWC1 (R258): load word to coprocessor 1; the low 26 bits are ignored. -/
  | lwc1 (low : BitVec 26)
  /-- LWC2 (R258): load word to coprocessor 2; the low 26 bits are ignored. -/
  | lwc2 (low : BitVec 26)
  /-- LWC3 (R258): load word to coprocessor 3; the low 26 bits are ignored. -/
  | lwc3 (low : BitVec 26)
  /-- SWC1 (R259): store word from coprocessor 1; the low 26 bits are ignored. -/
  | swc1 (low : BitVec 26)
  /-- SWC2 (R259): store word from coprocessor 2; the low 26 bits are ignored. -/
  | swc2 (low : BitVec 26)
  /-- SWC3 (R259): store word from coprocessor 3; the low 26 bits are ignored. -/
  | swc3 (low : BitVec 26)
deriving DecidableEq, Repr

end Sys2Proof
end

