-- ==== Sys2Proof/Decode.lean ====
section
/-! DEFINITION. The decoder, by the field maps of 30_encoding.md R131 to R133 with the strict must-be-zero rule of
R135, and the encoder, by the formats of R121 to R124. The decoder is total: it answers an instruction, or says by
name why the word is reserved. -/

namespace Sys2Proof

/-- Why bytes are no instruction (R135). Each of the last five makes the word a reserved encoding, which the machine
answers with the exception RI or, for `reservedCop0` in user mode, CpU(0) (44_coprocessor_system.md R254). -/
inductive DecodeError where
  /-- Fewer than the four bytes of an instruction word (R120). The machine's fetch never gives so few. -/
  | truncated
  /-- A primary opcode marked reserved in R131. -/
  | reservedOpcode
  /-- A SPECIAL `funct` marked reserved in R132. -/
  | reservedFunct
  /-- A REGIMM `rt` other than the four of R133. -/
  | reservedRegimm
  /-- An assigned opcode with a must-be-zero field that is not zero (R135). -/
  | mustBeZero
  /-- A word with op = 0x10 that is not MFC0, MTC0 or RFE (R133, 44_coprocessor_system.md R254). -/
  | reservedCop0
deriving DecidableEq, Repr

/-! ## Fields (00_scope.md section 5, R120 to R124) -/

/-- `op = iw[31:26]`. -/
def opField (w : Word) : BitVec 6 := w.extractLsb' 26 6
/-- `rs = iw[25:21]`. -/
def rsField (w : Word) : RegIdx := (w.extractLsb' 21 5).toFin
/-- `rt = iw[20:16]`. -/
def rtField (w : Word) : RegIdx := (w.extractLsb' 16 5).toFin
/-- `rd = iw[15:11]`. -/
def rdField (w : Word) : RegIdx := (w.extractLsb' 11 5).toFin
/-- `shamt = iw[10:6]`. -/
def shamtField (w : Word) : BitVec 5 := w.extractLsb' 6 5
/-- `funct = iw[5:0]`. -/
def functField (w : Word) : BitVec 6 := w.extractLsb' 0 6
/-- `imm = iw[15:0]`. -/
def immField (w : Word) : BitVec 16 := w.extractLsb' 0 16
/-- `target = iw[25:0]`; also the ignored low bits of the coprocessor rows. -/
def targetField (w : Word) : BitVec 26 := w.extractLsb' 0 26
/-- `code = iw[25:6]` of SYSCALL and BREAK (R121). -/
def codeField (w : Word) : BitVec 20 := w.extractLsb' 6 20

/-! ## Decoding -/

/-- The instruction `i` if every must-be-zero field is zero (R135). -/
def strict (zero : Bool) (i : Instr) : Except DecodeError Instr :=
  if zero then .ok i else .error .mustBeZero

/-- The SPECIAL map, op = 0x00 (R132). -/
def decodeSpecial (w : Word) : Except DecodeError Instr :=
  let rs := rsField w
  let rt := rtField w
  let rd := rdField w
  let sh := shamtField w
  match functField w with
  | 0x00#6 => strict (rs == 0) (.sll rd rt sh)
  | 0x02#6 => strict (rs == 0) (.srl rd rt sh)
  | 0x03#6 => strict (rs == 0) (.sra rd rt sh)
  | 0x04#6 => strict (sh == 0) (.sllv rd rt rs)
  | 0x06#6 => strict (sh == 0) (.srlv rd rt rs)
  | 0x07#6 => strict (sh == 0) (.srav rd rt rs)
  | 0x08#6 => strict (rt == 0 && rd == 0 && sh == 0) (.jr rs)
  | 0x09#6 => strict (rt == 0 && sh == 0) (.jalr rd rs)
  | 0x0C#6 => .ok (.syscall (codeField w))
  | 0x0D#6 => .ok (.brk (codeField w))
  | 0x10#6 => strict (rs == 0 && rt == 0 && sh == 0) (.mfhi rd)
  | 0x11#6 => strict (rt == 0 && rd == 0 && sh == 0) (.mthi rs)
  | 0x12#6 => strict (rs == 0 && rt == 0 && sh == 0) (.mflo rd)
  | 0x13#6 => strict (rt == 0 && rd == 0 && sh == 0) (.mtlo rs)
  | 0x18#6 => strict (rd == 0 && sh == 0) (.mult rs rt)
  | 0x19#6 => strict (rd == 0 && sh == 0) (.multu rs rt)
  | 0x1A#6 => strict (rd == 0 && sh == 0) (.div rs rt)
  | 0x1B#6 => strict (rd == 0 && sh == 0) (.divu rs rt)
  | 0x20#6 => strict (sh == 0) (.add rd rs rt)
  | 0x21#6 => strict (sh == 0) (.addu rd rs rt)
  | 0x22#6 => strict (sh == 0) (.sub rd rs rt)
  | 0x23#6 => strict (sh == 0) (.subu rd rs rt)
  | 0x24#6 => strict (sh == 0) (.and rd rs rt)
  | 0x25#6 => strict (sh == 0) (.or rd rs rt)
  | 0x26#6 => strict (sh == 0) (.xor rd rs rt)
  | 0x27#6 => strict (sh == 0) (.nor rd rs rt)
  | 0x2A#6 => strict (sh == 0) (.slt rd rs rt)
  | 0x2B#6 => strict (sh == 0) (.sltu rd rs rt)
  | _ => .error .reservedFunct

/-- The REGIMM map, op = 0x01, by the `rt` field (R133). -/
def decodeRegimm (w : Word) : Except DecodeError Instr :=
  match w.extractLsb' 16 5 with
  | 0x00#5 => .ok (.bltz (rsField w) (immField w))
  | 0x01#5 => .ok (.bgez (rsField w) (immField w))
  | 0x10#5 => .ok (.bltzal (rsField w) (immField w))
  | 0x11#5 => .ok (.bgezal (rsField w) (immField w))
  | _ => .error .reservedRegimm

/-- The COP0 map, op = 0x10 (R133): MFC0 and MTC0 need `iw[10:0] = 0`, RFE is the one word 0x4200_0010. -/
def decodeCop0 (w : Word) : Except DecodeError Instr :=
  match w.extractLsb' 21 5 with
  | 0x00#5 => if w.extractLsb' 0 11 == 0#11 then .ok (.mfc0 (rtField w) (rdField w)) else .error .reservedCop0
  | 0x04#5 => if w.extractLsb' 0 11 == 0#11 then .ok (.mtc0 (rtField w) (rdField w)) else .error .reservedCop0
  | 0x10#5 => if w.extractLsb' 0 21 == 0x10#21 then .ok .rfe else .error .reservedCop0
  | _ => .error .reservedCop0

/-- The primary opcode map (R131). -/
def decode (w : Word) : Except DecodeError Instr :=
  let rs := rsField w
  let rt := rtField w
  let imm := immField w
  match opField w with
  | 0x00#6 => decodeSpecial w
  | 0x01#6 => decodeRegimm w
  | 0x02#6 => .ok (.j (targetField w))
  | 0x03#6 => .ok (.jal (targetField w))
  | 0x04#6 => .ok (.beq rs rt imm)
  | 0x05#6 => .ok (.bne rs rt imm)
  | 0x06#6 => strict (rt == 0) (.blez rs imm)
  | 0x07#6 => strict (rt == 0) (.bgtz rs imm)
  | 0x08#6 => .ok (.addi rt rs imm)
  | 0x09#6 => .ok (.addiu rt rs imm)
  | 0x0A#6 => .ok (.slti rt rs imm)
  | 0x0B#6 => .ok (.sltiu rt rs imm)
  | 0x0C#6 => .ok (.andi rt rs imm)
  | 0x0D#6 => .ok (.ori rt rs imm)
  | 0x0E#6 => .ok (.xori rt rs imm)
  | 0x0F#6 => strict (rs == 0) (.lui rt imm)
  | 0x10#6 => decodeCop0 w
  | 0x11#6 => .ok (.cop1 (targetField w))
  | 0x12#6 => .ok (.cop2 (targetField w))
  | 0x13#6 => .ok (.cop3 (targetField w))
  | 0x20#6 => .ok (.lb rt rs imm)
  | 0x21#6 => .ok (.lh rt rs imm)
  | 0x22#6 => .ok (.lwl rt rs imm)
  | 0x23#6 => .ok (.lw rt rs imm)
  | 0x24#6 => .ok (.lbu rt rs imm)
  | 0x25#6 => .ok (.lhu rt rs imm)
  | 0x26#6 => .ok (.lwr rt rs imm)
  | 0x28#6 => .ok (.sb rt rs imm)
  | 0x29#6 => .ok (.sh rt rs imm)
  | 0x2A#6 => .ok (.swl rt rs imm)
  | 0x2B#6 => .ok (.sw rt rs imm)
  | 0x2E#6 => .ok (.swr rt rs imm)
  | 0x31#6 => .ok (.lwc1 (targetField w))
  | 0x32#6 => .ok (.lwc2 (targetField w))
  | 0x33#6 => .ok (.lwc3 (targetField w))
  | 0x39#6 => .ok (.swc1 (targetField w))
  | 0x3A#6 => .ok (.swc2 (targetField w))
  | 0x3B#6 => .ok (.swc3 (targetField w))
  | _ => .error .reservedOpcode

/-- The word that four bytes in memory order make: little-endian (20_memory.md R72, R74). -/
def wordOfBytes (b0 b1 b2 b3 : Byte) : Word := b3 ++ b2 ++ b1 ++ b0

/-- The bytes of a word in memory order: little-endian (20_memory.md R72). -/
def bytesOfWord (w : Word) : List Byte :=
  [w.extractLsb' 0 8, w.extractLsb' 8 8, w.extractLsb' 16 8, w.extractLsb' 24 8]

/-- Decode one instruction from the bytes at its address, and give the bytes after it (R120). -/
def decodeBytes : List Byte → Except DecodeError (Instr × List Byte)
  | b0 :: b1 :: b2 :: b3 :: rest => (decode (wordOfBytes b0 b1 b2 b3)).map (·, rest)
  | _ => .error .truncated

/-- What the decoder reads from the instruction whose low `nbits` bits are those of `w` and whose other bits are 0. -/
def decodeTableWord (nbits w : Nat) : Option Instr :=
  match decodeBytes (bytesOfWord (BitVec.ofNat 32 (w % 2 ^ nbits))) with
  | .ok (i, _) => some i
  | .error _ => none

/-! ## Encoding -/

/-- The five bits of a register or slot number. -/
def regBits (r : Fin 32) : BitVec 5 := BitVec.ofFin r

/-- R-format (R121). -/
def rWord (rs rt rd : Fin 32) (shamt : BitVec 5) (funct : BitVec 6) : Word :=
  0#6 ++ regBits rs ++ regBits rt ++ regBits rd ++ shamt ++ funct

/-- I-format (R122). -/
def iWord (op : BitVec 6) (rs rt : Fin 32) (imm : BitVec 16) : Word :=
  op ++ regBits rs ++ regBits rt ++ imm

/-- J-format (R123), and every row whose low 26 bits are one field. -/
def jWord (op : BitVec 6) (low : BitVec 26) : Word := op ++ low

/-- The format of SYSCALL and BREAK: bits 25:6 are `code` (R121). -/
def codeWord (code : BitVec 20) (funct : BitVec 6) : Word := 0#6 ++ code ++ funct

/-- Coprocessor format of MFC0 and MTC0 (R124): `rs` is the sub-opcode, bits 10:0 are zero. -/
def copWord (sub : BitVec 5) (rt slot : Fin 32) : Word :=
  0x10#6 ++ sub ++ regBits rt ++ regBits slot ++ 0#11

/-- The word of an instruction (R134). -/
def encode : Instr → Word
  | .sll rd rt sh => rWord 0 rt rd sh 0x00#6
  | .srl rd rt sh => rWord 0 rt rd sh 0x02#6
  | .sra rd rt sh => rWord 0 rt rd sh 0x03#6
  | .sllv rd rt rs => rWord rs rt rd 0 0x04#6
  | .srlv rd rt rs => rWord rs rt rd 0 0x06#6
  | .srav rd rt rs => rWord rs rt rd 0 0x07#6
  | .jr rs => rWord rs 0 0 0 0x08#6
  | .jalr rd rs => rWord rs 0 rd 0 0x09#6
  | .syscall code => codeWord code 0x0C#6
  | .brk code => codeWord code 0x0D#6
  | .mfhi rd => rWord 0 0 rd 0 0x10#6
  | .mthi rs => rWord rs 0 0 0 0x11#6
  | .mflo rd => rWord 0 0 rd 0 0x12#6
  | .mtlo rs => rWord rs 0 0 0 0x13#6
  | .mult rs rt => rWord rs rt 0 0 0x18#6
  | .multu rs rt => rWord rs rt 0 0 0x19#6
  | .div rs rt => rWord rs rt 0 0 0x1A#6
  | .divu rs rt => rWord rs rt 0 0 0x1B#6
  | .add rd rs rt => rWord rs rt rd 0 0x20#6
  | .addu rd rs rt => rWord rs rt rd 0 0x21#6
  | .sub rd rs rt => rWord rs rt rd 0 0x22#6
  | .subu rd rs rt => rWord rs rt rd 0 0x23#6
  | .and rd rs rt => rWord rs rt rd 0 0x24#6
  | .or rd rs rt => rWord rs rt rd 0 0x25#6
  | .xor rd rs rt => rWord rs rt rd 0 0x26#6
  | .nor rd rs rt => rWord rs rt rd 0 0x27#6
  | .slt rd rs rt => rWord rs rt rd 0 0x2A#6
  | .sltu rd rs rt => rWord rs rt rd 0 0x2B#6
  | .bltz rs imm => iWord 0x01#6 rs 0x00 imm
  | .bgez rs imm => iWord 0x01#6 rs 0x01 imm
  | .bltzal rs imm => iWord 0x01#6 rs 0x10 imm
  | .bgezal rs imm => iWord 0x01#6 rs 0x11 imm
  | .j target => jWord 0x02#6 target
  | .jal target => jWord 0x03#6 target
  | .beq rs rt imm => iWord 0x04#6 rs rt imm
  | .bne rs rt imm => iWord 0x05#6 rs rt imm
  | .blez rs imm => iWord 0x06#6 rs 0 imm
  | .bgtz rs imm => iWord 0x07#6 rs 0 imm
  | .addi rt rs imm => iWord 0x08#6 rs rt imm
  | .addiu rt rs imm => iWord 0x09#6 rs rt imm
  | .slti rt rs imm => iWord 0x0A#6 rs rt imm
  | .sltiu rt rs imm => iWord 0x0B#6 rs rt imm
  | .andi rt rs imm => iWord 0x0C#6 rs rt imm
  | .ori rt rs imm => iWord 0x0D#6 rs rt imm
  | .xori rt rs imm => iWord 0x0E#6 rs rt imm
  | .lui rt imm => iWord 0x0F#6 0 rt imm
  | .mfc0 rt slot => copWord 0x00#5 rt slot
  | .mtc0 rt slot => copWord 0x04#5 rt slot
  | .rfe => 0x42000010#32
  | .cop1 low => jWord 0x11#6 low
  | .cop2 low => jWord 0x12#6 low
  | .cop3 low => jWord 0x13#6 low
  | .lb rt rs imm => iWord 0x20#6 rs rt imm
  | .lh rt rs imm => iWord 0x21#6 rs rt imm
  | .lwl rt rs imm => iWord 0x22#6 rs rt imm
  | .lw rt rs imm => iWord 0x23#6 rs rt imm
  | .lbu rt rs imm => iWord 0x24#6 rs rt imm
  | .lhu rt rs imm => iWord 0x25#6 rs rt imm
  | .lwr rt rs imm => iWord 0x26#6 rs rt imm
  | .sb rt rs imm => iWord 0x28#6 rs rt imm
  | .sh rt rs imm => iWord 0x29#6 rs rt imm
  | .swl rt rs imm => iWord 0x2A#6 rs rt imm
  | .sw rt rs imm => iWord 0x2B#6 rs rt imm
  | .swr rt rs imm => iWord 0x2E#6 rs rt imm
  | .lwc1 low => jWord 0x31#6 low
  | .lwc2 low => jWord 0x32#6 low
  | .lwc3 low => jWord 0x33#6 low
  | .swc1 low => jWord 0x39#6 low
  | .swc2 low => jWord 0x3A#6 low
  | .swc3 low => jWord 0x3B#6 low

end Sys2Proof
end

