-- ==== Sys2Proof/Config.lean ====
section
/-! DEFINITION. The parameters of the machine (00_scope.md R7). A value whose basis is a decision of the spec is a field
of the configuration `Params`, with the listed value as its default; a value whose basis is the source is a constant.
A machine carries its configuration in `State.cfg`, which no step changes, so a statement about every state holds for
every configuration. The one open function of the machine, `raster` (60_exceptions.md R428), stands here too. -/

namespace Sys2Proof.Config

/-- The configuration of a machine: the parameters whose listed value is a decision of the spec (R7). Each has the listed
value as its default; TICK_BUDGET has none, because the spec gives none (70_reset_and_hazards.md R450). Which
configurations describe a machine is `ConfigOk` in Machine/AddressMap.lean (log 10). -/
structure Params where
  /-- Work RAM (20_memory.md R80). -/
  wramBase : Nat := 0x00000000
  wramSize : Nat := 0x00200000
  /-- Auxiliary RAM (R80). -/
  auxBase : Nat := 0x1F000000
  auxSize : Nat := 0x00010000
  /-- Scratchpad (R80). -/
  spadBase : Nat := 0x1F800000
  spadSize : Nat := 0x00000400
  /-- Video RAM: `vramHeight` rows of `vramWidth` pixel words (R80, 60_exceptions.md R420). -/
  vramBase : Nat := 0x1E000000
  vramWidth : Nat := 1024
  vramHeight : Nat := 512
  vramSize : Nat := 0x00200000
  /-- Boot ROM (R80); its size is `romSize`. -/
  romBase : Nat := 0x1FC00000
  /-- The windows of the interrupt controller, the DMA controller and the GPU (20_memory.md R82). -/
  icBase : Nat := 0x1F801070
  dmaBase : Nat := 0x1F801080
  gpuBase : Nat := 0x1F801810
  /-- RESET_VECTOR (10_state.md R56). -/
  resetVector : Word := 0xBFC00000#32
  /-- VEC_RAM and VEC_ROM, the exception vectors while SR.BEV is 0 and 1 (60_exceptions.md R322). -/
  vecRam : Word := 0x80000080#32
  vecRom : Word := 0xBFC00180#32
  /-- PRID_VALUE, what slot 15 reads (10_state.md R43). -/
  pridValue : Word := 0x00000002#32
  /-- IRQ_VBLANK and IRQ_DMA, the bit numbers of the two interrupt sources (60_exceptions.md R348). -/
  irqVblank : Nat := 0
  irqDma : Nat := 3
  /-- GPU_FIFO_DEPTH (60_exceptions.md R381). -/
  gpuFifoDepth : Nat := 16
  /-- GPU_PKT_MAX (60_exceptions.md R388). -/
  gpuPktMax : Nat := 12
  /-- GPU_LINE_COUNT, OPEN with the default listed (60_exceptions.md R390, log 5). -/
  lineCount : Nat := 263
  /-- TICK_BUDGET, OPEN with no default (70_reset_and_hazards.md R450, log 3). -/
  tickBudget : Nat
deriving DecidableEq, Repr

/-- The configuration of `State.reset`: every listed value. DESIGN CHOICE, unsafe: the spec lists none for TICK_BUDGET,
and no statement rests on this number (log 3). -/
def Params.listed : Params := { tickBudget := 564480 }

/-- ROM_SIZE, from the source (R7, 20_memory.md R80). -/
def romSize : Nat := 0x00080000

/-- The sizes of the three windows, those of their register maps (20_memory.md R82). -/
def icWindow : Nat := 0x8
def dmaWindow : Nat := 0x90
def gpuWindow : Nat := 0x8

/-- DMA_GPU_CH, the DMA channel bound to the GPU, from the source (R7, 60_exceptions.md R366). -/
def dmaGpuChannel : ChanIdx := 2

/-- SR after reset: kernel mode, interrupts off, BEV = 1 (10_state.md R39, R56). -/
def resetSr : Word := 0x00400000#32

/-- A pixel that `raster` asks for, of a video RAM of `w` columns and `h` rows: column, row and pixel word
(60_exceptions.md R428). -/
abbrev Pixel (w h : Nat) := Fin w × Fin h × Word

/-- `Raster`, the OPEN coverage and shading function of the drawing packets the spec leaves undefined
(60_exceptions.md R428, decision D32): the packet's words, the drawing mode, the texture window, the drawing offset
and the video RAM (row, then column) to the pixels to plot, in order. It has no body: a statement holds for every
`Raster` (log 6). -/
opaque raster (w h : Nat) (pkt : List Word) (drawMode : BitVec 11) (texWindow : BitVec 20) (offX offY : BitVec 11)
    (vram : Fin h → Fin w → Word) : List (Pixel w h)

end Sys2Proof.Config
end

