-- ==== Sys2Proof/Machine/State.lean ====
section
/-! DEFINITION. The state of the engine: "all state lives in one shared record" (10_state.md). State is plain data
and holds every field of that record that a rule reads or writes, and the two the model adds: the configuration of the
machine and the cycle counter of a tick. -/

namespace Sys2Proof.Machine

/-! ## Memory -/

/-- The contents of the five regions of 10_state.md R46 as (physical address, byte) pairs. The canonical form
(addresses strictly rising, no entry equal to what an unlisted address reads as) is `Memory.wf` in Memory.lean. -/
structure Memory where
  cells : List Host.Cell
deriving DecidableEq, Repr

/-! ## CPU -/

/-- `ld.kind` (10_state.md R35): LD_NONE = 0, LD_MEM = 1, LD_COP = 2. -/
inductive LoadKind where
  /-- LD_NONE: the slot is empty. -/
  | none
  /-- LD_MEM: filled by a memory load. -/
  | mem
  /-- LD_COP: filled by MFC0. -/
  | cop
deriving DecidableEq, Repr

/-- The load-delay slot `ld` (10_state.md R33). -/
structure LoadSlot where
  reg : RegIdx
  val : Word
  kind : LoadKind
deriving DecidableEq, Repr

/-! ## Interrupt controller -/

/-- The interrupt controller's two registers (10_state.md R48). -/
structure Ic where
  iStat : Word
  iMask : Word
deriving DecidableEq, Repr

/-! ## DMA controller -/

/-- The state of a channel's state machine (10_state.md R49): Complete is transient inside one `DmaStep`. -/
inductive ChanState where
  | idle
  | xfer
deriving DecidableEq, Repr

/-- One DMA channel (10_state.md R49). `chcr` holds the stored bits only (mask 0x0077_0703, 60_exceptions.md R354);
the BUSY bit is `st`. -/
structure Channel where
  madr : Word
  bcr : Word
  chcr : Word
  len : Word
  cur : Word
  st : ChanState
deriving DecidableEq, Repr

/-- The DMA controller (10_state.md R49, R50). `flag`, `en`, `master` are the stored fields of DICR
(60_exceptions.md R356). -/
structure Dma where
  chan : Vector Channel 8
  dpcr : Word
  flag : BitVec 8
  en : BitVec 8
  master : Bool
  enabled : Bool
deriving DecidableEq, Repr

/-! ## GPU -/

/-- `xfer_mode` (10_state.md R52). -/
inductive XferMode where
  /-- XF_NONE. -/
  | none
  /-- XF_TO_VRAM: CPU to VRAM. -/
  | toVram
  /-- XF_FROM_VRAM: VRAM to CPU. -/
  | fromVram
deriving DecidableEq, Repr

/-- The GPU command processor (10_state.md R51, R52). The status word is computed, not stored. `fifo` has GPU_FIFO_DEPTH
entries and `pkt` GPU_PKT_MAX (`GpuInv` in Safety.lean). -/
structure Gpu where
  fifo : List Word
  fifoRd : Nat
  fifoWr : Nat
  line : Word
  pkt : List Word
  pktLen : Nat
  pktNeed : Nat
  xferMode : XferMode
  xferX : Nat
  xferY : Nat
  xferW : Nat
  xferH : Nat
  xferI : Nat
  drawMode : BitVec 11
  texWindow : BitVec 20
  clipX1 : BitVec 10
  clipY1 : BitVec 10
  clipX2 : BitVec 10
  clipY2 : BitVec 10
  offX : BitVec 11
  offY : BitVec 11
  maskSet : Bool
  maskCheck : Bool
deriving DecidableEq, Repr

/-! ## The machine -/

/-- Everything the CPU reaches through the address bus: the memory and the three devices (20_memory.md R77). -/
structure Bus where
  mem : Memory
  ic : Ic
  dma : Dma
  gpu : Gpu
deriving DecidableEq, Repr

/-- The state of the engine (10_state.md R56). The last two fields are the model's own: `tickCycle` counts the
cycles done in the current tick, and `cfg` is the configuration of the machine (00_scope.md R7), which no step changes. -/
structure State where
  regs : Vector Word 32
  hi : Word
  lo : Word
  pc : Word
  pcdelta : Word
  inSlot : Bool
  ld : LoadSlot
  faultCause : Word
  faultPc : Word
  scr : Vector Word 32
  bus : Bus
  comms : Word
  tickCycle : Nat
  cfg : Config.Params
deriving DecidableEq, Repr

/-- The reasons a step can stop with a fault: there are none. Every cycle executes an instruction or takes a trap, and
every exception of the spec is a next state (60_exceptions.md R333, R433, 70_reset_and_hazards.md R468). -/
inductive Fault where
deriving DecidableEq, Repr

/-- The reasons a step can be refused. -/
inductive Refusal where
  /-- `exec` has no meaning yet for the instruction of this mnemonic. Raised by an arm of Dispatch.lean only, and by
  no arm of the finished model. Safe: the model stops where the hardware goes on. -/
  | notModelled (mnemonic : String)
deriving DecidableEq, Repr

/-- What a step or an instruction answers. -/
abbrev Result := Host.Outcome State Fault Refusal

/-! ## Reset (10_state.md R56, 70_reset_and_hazards.md R462) -/

/-- The empty load-delay slot `(0, 0, LD_NONE)`. -/
def LoadSlot.empty : LoadSlot := ⟨0, 0#32, .none⟩

def Channel.reset : Channel := ⟨0#32, 0#32, 0#32, 0#32, 0#32, .idle⟩

def Dma.reset : Dma := ⟨Vector.replicate 8 Channel.reset, 0#32, 0#8, 0#8, false, false⟩

def Gpu.reset (cfg : Config.Params) : Gpu where
  fifo := List.replicate cfg.gpuFifoDepth 0#32
  fifoRd := 0
  fifoWr := 0
  line := 0#32
  pkt := List.replicate cfg.gpuPktMax 0#32
  pktLen := 0
  pktNeed := 0
  xferMode := .none
  xferX := 0
  xferY := 0
  xferW := 0
  xferH := 0
  xferI := 0
  drawMode := 0#11
  texWindow := 0#20
  clipX1 := 0#10
  clipY1 := 0#10
  clipX2 := 0#10
  clipY2 := 0#10
  offX := 0#11
  offY := 0#11
  maskSet := false
  maskCheck := false

/-- Memory lists nothing: every byte is 0 (10_state.md R56, R57). For `rom` that stands for the host's image before
its preload (log 1). -/
def Bus.reset (cfg : Config.Params) : Bus := ⟨⟨[]⟩, ⟨0#32, 0#32⟩, Dma.reset, Gpu.reset cfg⟩

/-- A machine of configuration `cfg` right after reset: the table of 10_state.md R56, that is steps (1) and (2) of
70_reset_and_hazards.md R462. Step (3), the host's preload, is `State.hostPreload` in HostInterface.lean. -/
def State.resetWith (cfg : Config.Params) : State where
  regs := Vector.replicate 32 0#32
  hi := 0#32
  lo := 0#32
  pc := cfg.resetVector
  pcdelta := 4#32
  inSlot := false
  ld := LoadSlot.empty
  faultCause := 0#32
  faultPc := 0#32
  scr := (Vector.replicate 32 0#32).set 12 Config.resetSr
  bus := Bus.reset cfg
  comms := 0#32
  tickCycle := 0
  cfg := cfg

/-- The machine of the listed parameters right after reset. -/
def State.reset : State := State.resetWith Config.Params.listed

end Sys2Proof.Machine
end

