-- ==== Sys2Proof/Machine/AddressMap.lean ====
section
/-! DEFINITION. The address decoder (20_memory.md section 3): segments R78 and R79, regions R80, register windows R82,
unmapped addresses R83. Physical addresses are natural numbers below 0x2000_0000. -/

namespace Sys2Proof.Machine

/-- The five memory regions (10_state.md R46, 20_memory.md R80). -/
inductive Region where
  | wram
  | vram
  | aux
  | spad
  | rom
deriving DecidableEq, Repr

/-- The regions in the order of the table of R80. -/
def allRegions : List Region := [.wram, .vram, .aux, .spad, .rom]

def Region.base (cfg : Config.Params) : Region → Nat
  | .wram => cfg.wramBase
  | .vram => cfg.vramBase
  | .aux => cfg.auxBase
  | .spad => cfg.spadBase
  | .rom => cfg.romBase

def Region.size (cfg : Config.Params) : Region → Nat
  | .wram => cfg.wramSize
  | .vram => cfg.vramSize
  | .aux => cfg.auxSize
  | .spad => cfg.spadSize
  | .rom => Config.romSize

/-- `p` lies in the region's physical range (the table of R80). -/
def Region.contains (cfg : Config.Params) (r : Region) (p : Nat) : Bool :=
  decide (r.base cfg ≤ p) && decide (p < r.base cfg + r.size cfg)

/-- The region a physical address belongs to, if any. -/
def regionOf (cfg : Config.Params) (p : Nat) : Option Region := allRegions.find? (·.contains cfg p)

/-- The three peripheral windows (R82). -/
inductive Window where
  | ic
  | dma
  | gpu
deriving DecidableEq, Repr

def Window.base (cfg : Config.Params) : Window → Nat
  | .ic => cfg.icBase
  | .dma => cfg.dmaBase
  | .gpu => cfg.gpuBase

def Window.size : Window → Nat
  | .ic => Config.icWindow
  | .dma => Config.dmaWindow
  | .gpu => Config.gpuWindow

/-- `p` lies in the window's physical range (the table of R82). -/
def Window.contains (cfg : Config.Params) (w : Window) (p : Nat) : Bool :=
  decide (w.base cfg ≤ p) && decide (p < w.base cfg + w.size)

/-- Two address ranges, given by base and size, share no address. -/
def Apart (a m b n : Nat) : Prop := a + m ≤ b ∨ b + n ≤ a

/-- What the spec says of the parameters whatever their values: region sizes are powers of two, here of at least a word
(log 10), bases are multiples of the size (20_memory.md R80), an address decodes to exactly one region or register (R77),
all in the physical space of R79; the video RAM holds its pixels (60_exceptions.md R420); the FIFO and the packet buffer
hold what they must (R381, R388); the sources are bits of the status register (R340). -/
structure ConfigOk (cfg : Config.Params) : Prop where
  regionSize : ∀ r : Region, ∃ k, 2 ≤ k ∧ r.size cfg = 2 ^ k
  regionBase : ∀ r : Region, r.base cfg % r.size cfg = 0
  regionTop : ∀ r : Region, r.base cfg + r.size cfg ≤ 0x20000000
  regionsApart : ∀ r q : Region, r ≠ q → Apart (r.base cfg) (r.size cfg) (q.base cfg) (q.size cfg)
  windowBase : ∀ w : Window, w.base cfg % 4 = 0
  windowTop : ∀ w : Window, w.base cfg + w.size ≤ 0x20000000
  windowsApart : ∀ w v : Window, w ≠ v → Apart (w.base cfg) w.size (v.base cfg) v.size
  windowsOutside : ∀ (w : Window) (r : Region), Apart (w.base cfg) w.size (r.base cfg) (r.size cfg)
  vramSize : cfg.vramSize = 4 * (cfg.vramHeight * cfg.vramWidth)
  fifoDepth : 2 ≤ cfg.gpuFifoDepth
  pktMax : 12 ≤ cfg.gpuPktMax
  irqVblank : cfg.irqVblank < 32
  irqDma : cfg.irqDma < 32

/-- The device registers of the three windows (R82, 60_exceptions.md R340, R352, R382). -/
inductive DeviceReg where
  | iStat
  | iMask
  | madr (n : ChanIdx)
  | bcr (n : ChanIdx)
  | chcr (n : ChanIdx)
  | dpcr
  | dicr
  | dmaEn
  /-- GPU_BASE + 0: CMD when written, the status word when read. -/
  | gpuCmd
  /-- GPU_BASE + 4: the DATA port. -/
  | gpuData
  /-- A word offset inside a window at which R82 lists no register: reads 0, ignores writes (R99). -/
  | unimplemented
deriving DecidableEq, Repr

/-- The DMA controller's register at a byte offset of its window (60_exceptions.md R352). -/
def dmaRegAt (off : Nat) : DeviceReg :=
  if off < 0x80 then
    match off % 0x10 / 4 with
    | 0 => .madr (Fin.ofNat 8 (off / 0x10))
    | 1 => .bcr (Fin.ofNat 8 (off / 0x10))
    | 2 => .chcr (Fin.ofNat 8 (off / 0x10))
    | _ => .unimplemented
  else
    match (off - 0x80) / 4 with
    | 0 => .dpcr
    | 1 => .dicr
    | 2 => .dmaEn
    | _ => .unimplemented

/-- The register at a byte offset of a window (R82, 60_exceptions.md R340, R352, R382). -/
def Window.regAt (w : Window) (off : Nat) : DeviceReg :=
  match w with
  | .ic => if off < 4 then .iStat else .iMask
  | .dma => dmaRegAt off
  | .gpu => if off < 4 then .gpuCmd else .gpuData

/-- The windows in the order of the table of R82. -/
def allWindows : List Window := [.ic, .dma, .gpu]

/-- The window a physical address lies in, if any. -/
def windowOf (cfg : Config.Params) (p : Nat) : Option Window := allWindows.find? (·.contains cfg p)

/-- The device register at a physical address, if it lies in a window (R82). -/
def deviceRegOf (cfg : Config.Params) (p : Nat) : Option DeviceReg :=
  (windowOf cfg p).map fun w => w.regAt (p - w.base cfg)

/-- The fixed arithmetic of R79 from a virtual to a physical address; `none` is `UNMAPPED`. -/
def physOf (addr : Word) : Option Nat :=
  let a := addr.toNat
  if a < 0x20000000 then some a
  else if 0x80000000 ≤ a ∧ a < 0xA0000000 then some (a - 0x80000000)
  else if 0xA0000000 ≤ a ∧ a < 0xC0000000 then some (a - 0xA0000000)
  else none

/-- What an address decodes to: "exactly one region or one peripheral register, never both", or unmapped (R77). -/
inductive Target where
  | region (r : Region) (p : Nat)
  | device (reg : DeviceReg)
  | unmapped
deriving DecidableEq, Repr

/-- What a physical address decodes to (R80, R82, R83). -/
def targetOfPhys (cfg : Config.Params) (p : Nat) : Target :=
  match regionOf cfg p with
  | some r => .region r p
  | none =>
    match deviceRegOf cfg p with
    | some reg => .device reg
    | none => .unmapped

/-- What a virtual address decodes to (R79 to R83). -/
def targetOf (cfg : Config.Params) (addr : Word) : Target :=
  match physOf addr with
  | some p => targetOfPhys cfg p
  | none => .unmapped

/-- The aligned word that holds an address: `addr & 0xFFFF_FFFC` (R86). -/
def alignWord (addr : Word) : Word := addr &&& 0xFFFFFFFC#32

/-- `addr[1:0]`, the byte lane of an address (R73). -/
def laneOf (addr : Word) : Nat := addr.toNat % 4

end Sys2Proof.Machine
end

