-- ==== Sys2Proof/Machine/Memory.lean ====
section
/-! DEFINITION. The memory arrays as one canonical list of cells (10_state.md R46): reading and writing bytes and
words by physical address, little-endian (20_memory.md R72, R73). -/

namespace Sys2Proof.Machine

/-- What a byte that nothing has written reads as: "reading a register or a memory word that no instruction has yet
written returns 0" (10_state.md R57). -/
def Memory.unlisted : Byte := 0#8

/-- The byte at a physical address. -/
def Memory.readCells : List Host.Cell → Nat → Byte
  | [], _ => Memory.unlisted
  | (k, b) :: cs, a => if k = a then b else Memory.readCells cs a

/-- The byte at a physical address. -/
def Memory.read (m : Memory) (a : Nat) : Byte := Memory.readCells m.cells a

/-- Put a cell in its place in a list whose addresses rise. -/
def Memory.insertCell (a : Nat) (v : Byte) : List Host.Cell → List Host.Cell
  | [] => [(a, v)]
  | (k, b) :: cs => if a < k then (a, v) :: (k, b) :: cs else (k, b) :: Memory.insertCell a v cs

/-- Write one byte, keeping the canonical form: writing what an unlisted address reads as removes the entry. -/
def Memory.write (m : Memory) (a : Nat) (v : Byte) : Memory :=
  let rest := m.cells.filter (fun c => c.1 != a)
  ⟨if v = Memory.unlisted then rest else Memory.insertCell a v rest⟩

/-- The canonical form: addresses strictly rising, and no entry equal to what an unlisted address reads as. -/
abbrev Memory.wf (m : Memory) : Prop :=
  m.cells.Pairwise (fun c d => c.1 < d.1) ∧ ∀ c ∈ m.cells, c.2 ≠ Memory.unlisted

/-- Bits `8k+7 : 8k` of a word (20_memory.md R73). -/
def laneByte (w : Word) (k : Nat) : Byte := w.extractLsb' (8 * k) 8

/-- The aligned word at physical address `p`: the byte at `p` is bits 7:0 (20_memory.md R72). -/
def Memory.readWord (m : Memory) (p : Nat) : Word :=
  m.read (p + 3) ++ m.read (p + 2) ++ m.read (p + 1) ++ m.read p

/-- Write byte lane `k` of the aligned word at `p` if its byte-enable is set (20_memory.md R97). -/
def Memory.writeLane (m : Memory) (p : Nat) (data : Word) (be : BitVec 4) (k : Nat) : Memory :=
  if be.getLsbD k then m.write (p + k) (laneByte data k) else m

/-- "Replace the enabled byte lanes of the word with those of `data`" (20_memory.md R97). -/
def Memory.writeLanes (m : Memory) (p : Nat) (data : Word) (be : BitVec 4) : Memory :=
  (((m.writeLane p data be 0).writeLane p data be 1).writeLane p data be 2).writeLane p data be 3

/-- Write the whole aligned word at physical address `p`. -/
def Memory.writeWord (m : Memory) (p : Nat) (data : Word) : Memory := m.writeLanes p data 0b1111#4

end Sys2Proof.Machine
end

