-- ==== Sys2Proof/Machine/Gpu.lean ====
section
/-! DEFINITION. The GPU command processor (60_exceptions.md section 8). It touches its own state and video RAM and
nothing else, so its operations go from `Gpu × Memory` to `Gpu × Memory`; the sizes of the video RAM, of the FIFO and of
the packet buffer are those of the configuration (00_scope.md R7). -/

namespace Sys2Proof.Machine

/-! ## Video RAM (R420) -/

/-- The physical address of pixel (`x`, `y`): `VRAM_BASE + 4 * (y * VRAM_W + x)`. -/
def vramAddr (cfg : Config.Params) (x y : Nat) : Nat := cfg.vramBase + 4 * (y * cfg.vramWidth + x)

/-- `vram[y][x]`. -/
def Memory.pixel (cfg : Config.Params) (m : Memory) (x y : Nat) : Word := m.readWord (vramAddr cfg x y)

/-- `vram[y][x] <- c`. -/
def Memory.setPixel (cfg : Config.Params) (m : Memory) (x y : Nat) (c : Word) : Memory :=
  m.writeWord (vramAddr cfg x y) c

/-- `mask_set << 31`. -/
def Gpu.maskBit (g : Gpu) : Word := if g.maskSet then 0x80000000#32 else 0#32

/-- `Plot(x, y, c)` (R420). -/
def Gpu.plot (cfg : Config.Params) (g : Gpu) (m : Memory) (x y : Nat) (c : Word) : Memory :=
  if g.maskCheck && (m.pixel cfg x y).getLsbD 31 then m else m.setPixel cfg x y (c ||| g.maskBit)

/-- For `j` from 0 to `h - 1`, for `i` from 0 to `w - 1`: `f i j`. -/
def forRect (w h : Nat) (f : Nat → Nat → Memory → Memory) (m : Memory) : Memory :=
  (List.range h).foldl (fun m j => (List.range w).foldl (fun m i => f i j m) m) m

/-! ## Packets (R388 to R428) -/

/-- What a first word asks for, by its opcode byte. -/
inductive PacketKind where
  /-- 0x00 (R400). -/
  | nop
  /-- 0x02 (R401). -/
  | fill
  /-- A drawing packet whose pixels are those of the open function `Raster` (R428). -/
  | raster
  /-- 0x60, 0x68, 0x70, 0x78 (R421). -/
  | flatRect
  /-- 0x80 to 0x9F (R402). -/
  | copy
  /-- 0xA0 to 0xBF (R403). -/
  | toVram
  /-- 0xC0 to 0xDF (R404). -/
  | fromVram
  /-- 0xE1 (R405). -/
  | drawMode
  /-- 0xE2 (R406). -/
  | texWindow
  /-- 0xE3 (R407). -/
  | clipTopLeft
  /-- 0xE4 (R408). -/
  | clipBottomRight
  /-- 0xE5 (R409). -/
  | offset
  /-- 0xE6 (R410). -/
  | mask
  /-- Every other opcode: dropped (R389). -/
  | unrecognised
deriving DecidableEq, Repr

/-- The kind of a packet, by its opcode (R388, R400 to R428). -/
def packetKind (op : BitVec 8) : PacketKind :=
  let o := op.toNat
  if o = 0x00 then .nop
  else if o = 0x02 then .fill
  else if o < 0x20 then .unrecognised
  else if o < 0x40 then .raster
  else if o < 0x60 then (if op.getLsbD 3 then .unrecognised else .raster)
  else if o < 0x80 then (if op &&& 0x07#8 = 0#8 then .flatRect else .raster)
  else if o < 0xA0 then .copy
  else if o < 0xC0 then .toVram
  else if o < 0xE0 then .fromVram
  else if o = 0xE1 then .drawMode
  else if o = 0xE2 then .texWindow
  else if o = 0xE3 then .clipTopLeft
  else if o = 0xE4 then .clipBottomRight
  else if o = 0xE5 then .offset
  else if o = 0xE6 then .mask
  else .unrecognised

/-- `PktLen(op)` (R388): the packet's length in words, 0 for an unrecognised opcode. -/
def packetLen (op : BitVec 8) : Nat :=
  let o := op.toNat
  if o = 0x00 then 1
  else if o = 0x02 then 3
  else if o < 0x20 then 0
  else if o < 0x40 then
    let nv := if op.getLsbD 3 then 4 else 3
    let tex := if op.getLsbD 2 then 1 else 0
    let g := if op.getLsbD 4 then 1 else 0
    1 + nv * (1 + tex) + g * (nv - 1)
  else if o < 0x60 then
    if op.getLsbD 3 then 0 else if op.getLsbD 4 then 4 else 3
  else if o < 0x80 then
    2 + (if op.getLsbD 2 then 1 else 0) + (if o / 8 % 4 = 0 then 1 else 0)
  else if o < 0xA0 then 4
  else if o < 0xE0 then 3
  else if 0xE1 ≤ o ∧ o ≤ 0xE6 then 1
  else 0

/-- `v[9:0]`, a column or a width. -/
def xField (v : Word) : Nat := (v.extractLsb' 0 10).toNat
/-- `v[24:16]`, a row or a height. -/
def yField (v : Word) : Nat := (v.extractLsb' 16 9).toNat
/-- `((v[9:0] - 1) & 0x3FF) + 1`: a width field of 0 means 1024 (R402). -/
def wrapWidth (v : Word) : Nat := (v.extractLsb' 0 10 - 1#10).toNat + 1
/-- `((v[24:16] - 1) & 0x1FF) + 1`: a height field of 0 means 512 (R402). -/
def wrapHeight (v : Word) : Nat := (v.extractLsb' 16 9 - 1#9).toNat + 1
/-- `v[23:0]` zero-extended to a pixel word. -/
def colourField (v : Word) : Word := (v.extractLsb' 0 24).setWidth 32

/-- Word `k` of the packet buffer, `pkt[k]`. -/
def Gpu.pktWord (g : Gpu) (k : Nat) : Word := g.pkt.getD k 0#32

/-- Fill rectangle (R401): exact pixel words, no clip, no offset, no mask flags. -/
def Gpu.fill (cfg : Config.Params) (g : Gpu) (m : Memory) : Memory :=
  let c := colourField (g.pktWord 0)
  let x := xField (g.pktWord 1)
  let y := yField (g.pktWord 1)
  forRect (xField (g.pktWord 2)) (yField (g.pktWord 2))
    (fun i j m => m.setPixel cfg ((x + i) % cfg.vramWidth) ((y + j) % cfg.vramHeight) c) m

/-- VRAM-to-VRAM copy (R402): each read immediately before its write. -/
def Gpu.copy (cfg : Config.Params) (g : Gpu) (m : Memory) : Memory :=
  let sx := xField (g.pktWord 1)
  let sy := yField (g.pktWord 1)
  let dx := xField (g.pktWord 2)
  let dy := yField (g.pktWord 2)
  forRect (wrapWidth (g.pktWord 3)) (wrapHeight (g.pktWord 3))
    (fun i j m => g.plot cfg m ((dx + i) % cfg.vramWidth) ((dy + j) % cfg.vramHeight)
      (m.pixel cfg ((sx + i) % cfg.vramWidth) ((sy + j) % cfg.vramHeight))) m

/-- Start a transfer (R403, R404): replaces the state of one still in progress. -/
def Gpu.startTransfer (g : Gpu) (mode : XferMode) : Gpu :=
  { g with
    xferX := xField (g.pktWord 1)
    xferY := yField (g.pktWord 1)
    xferW := wrapWidth (g.pktWord 2)
    xferH := wrapHeight (g.pktWord 2)
    xferI := 0
    xferMode := mode }

/-- `(px, py)` lies in the clip rectangle, bottom-right inclusive (R408, R421, R428). -/
def Gpu.inClip (g : Gpu) (px py : Int) : Bool :=
  decide ((g.clipX1.toNat : Int) ≤ px) && decide (px ≤ (g.clipX2.toNat : Int)) &&
  decide ((g.clipY1.toNat : Int) ≤ py) && decide (py ≤ (g.clipY2.toNat : Int))

/-- `(px, py)` lies in video RAM (R421). -/
def inVram (cfg : Config.Params) (px py : Int) : Bool :=
  decide (0 ≤ px) && decide (px < cfg.vramWidth) && decide (0 ≤ py) && decide (py < cfg.vramHeight)

/-- The size of a flat rectangle by `(op >> 3) & 3` (R421). -/
def Gpu.rectSize (g : Gpu) : Nat × Nat :=
  match (g.pktWord 0).extractLsb' 27 2 with
  | 0#2 => (xField (g.pktWord 2), yField (g.pktWord 2))
  | 1#2 => (1, 1)
  | 2#2 => (8, 8)
  | _ => (16, 16)

/-- Flat, untextured, opaque rectangle (R421). -/
def Gpu.flatRect (cfg : Config.Params) (g : Gpu) (m : Memory) : Memory :=
  let c := colourField (g.pktWord 0)
  let x0 := ((g.pktWord 1).extractLsb' 0 11).toInt + g.offX.toInt
  let y0 := ((g.pktWord 1).extractLsb' 16 11).toInt + g.offY.toInt
  forRect g.rectSize.1 g.rectSize.2
    (fun i j m =>
      let px := x0 + (i : Int)
      let py := y0 + (j : Int)
      if g.inClip px py && inVram cfg px py then g.plot cfg m px.toNat py.toNat c else m) m

/-- Every other drawing packet (R428): the pixels of the open function `Raster`, each clipped, then plotted, in list
order. -/
def Gpu.drawRaster (cfg : Config.Params) (g : Gpu) (m : Memory) : Memory :=
  (Config.raster cfg.vramWidth cfg.vramHeight (g.pkt.take g.pktNeed) g.drawMode g.texWindow g.offX g.offY
      (fun y x => m.pixel cfg x.val y.val)).foldl
    (fun m q => if g.inClip q.1.val q.2.1.val then g.plot cfg m q.1.val q.2.1.val q.2.2 else m) m

/-- Execute the complete packet in `pkt` (R400 to R428). -/
def Gpu.execute (cfg : Config.Params) (g : Gpu) (m : Memory) : Gpu × Memory :=
  let p0 := g.pktWord 0
  match packetKind (p0.extractLsb' 24 8) with
  | .nop => (g, m)
  | .fill => (g, g.fill cfg m)
  | .raster => (g, g.drawRaster cfg m)
  | .flatRect => (g, g.flatRect cfg m)
  | .copy => (g, g.copy cfg m)
  | .toVram => (g.startTransfer .toVram, m)
  | .fromVram => (g.startTransfer .fromVram, m)
  | .drawMode => ({ g with drawMode := p0.extractLsb' 0 11 }, m)
  | .texWindow => ({ g with texWindow := p0.extractLsb' 0 20 }, m)
  | .clipTopLeft => ({ g with clipX1 := p0.extractLsb' 0 10, clipY1 := p0.extractLsb' 10 10 }, m)
  | .clipBottomRight => ({ g with clipX2 := p0.extractLsb' 0 10, clipY2 := p0.extractLsb' 10 10 }, m)
  | .offset => ({ g with offX := p0.extractLsb' 0 11, offY := p0.extractLsb' 11 11 }, m)
  | .mask => ({ g with maskSet := p0.getLsbD 0, maskCheck := p0.getLsbD 1 }, m)
  | .unrecognised => (g, m)

/-! ## Transfers (R386, R387) -/

/-- The column and row of the next pixel of a transfer. -/
def Gpu.xferPixel (cfg : Config.Params) (g : Gpu) : Nat × Nat :=
  ((g.xferX + g.xferI % g.xferW) % cfg.vramWidth, (g.xferY + g.xferI / g.xferW) % cfg.vramHeight)

/-- `xfer_i <- xfer_i + 1`, and back to command mode when the rectangle is exhausted. -/
def Gpu.advanceTransfer (g : Gpu) : Gpu :=
  { g with
    xferI := g.xferI + 1
    xferMode := if g.xferI + 1 = g.xferW * g.xferH then .none else g.xferMode }

/-- Step (4) of `GpuConsume`: a complete packet is executed, then `pkt_len <- 0` (R387). -/
def Gpu.finishPacket (cfg : Config.Params) (g : Gpu) (m : Memory) : Gpu × Memory :=
  if g.pktLen = g.pktNeed then
    let r := g.execute cfg m
    ({ r.1 with pktLen := 0 }, r.2)
  else (g, m)

/-- `GpuConsume(v)` (R387, R389). -/
def Gpu.consume (cfg : Config.Params) (g : Gpu) (m : Memory) (v : Word) : Gpu × Memory :=
  if g.xferMode = .toVram then
    (g.advanceTransfer, g.plot cfg m (g.xferPixel cfg).1 (g.xferPixel cfg).2 v)
  else if g.pktLen = 0 then
    let n := packetLen (v.extractLsb' 24 8)
    if n = 0 then (g, m)
    else Gpu.finishPacket cfg { g with pkt := g.pkt.set 0 v, pktLen := 1, pktNeed := n } m
  else
    Gpu.finishPacket cfg { g with pkt := g.pkt.set g.pktLen v, pktLen := g.pktLen + 1 } m

/-! ## FIFO and registers (R381 to R386) -/

/-- A FIFO cursor one further, modulo GPU_FIFO_DEPTH (R381). -/
def nextSlot (cfg : Config.Params) (k : Nat) : Nat := (k + 1) % cfg.gpuFifoDepth

/-- "While `fifo_rd != fifo_wr`": take a word out of the FIFO and consume it (R383); at most `fuel` words. -/
def Gpu.drain (cfg : Config.Params) : Nat → Gpu → Memory → Gpu × Memory
  | 0, g, m => (g, m)
  | fuel + 1, g, m =>
    if g.fifoRd = g.fifoWr then (g, m)
    else
      let r := Gpu.consume cfg { g with fifoRd := nextSlot cfg g.fifoRd } m (g.fifo.getD g.fifoRd 0#32)
      Gpu.drain cfg fuel r.1 r.2

/-- `GpuWrite(w)` (R383): enqueue, then drain. The FIFO has GPU_FIFO_DEPTH slots, so that many turns empty it. -/
def Gpu.write (cfg : Config.Params) (g : Gpu) (m : Memory) (w : Word) : Gpu × Memory :=
  Gpu.drain cfg cfg.gpuFifoDepth
    { g with fifo := g.fifo.set g.fifoWr w, fifoWr := nextSlot cfg g.fifoWr } m

/-- The status word, computed at each read (R384). -/
def Gpu.status (g : Gpu) : Word :=
  g.drawMode.setWidth 32 |||
  (if g.maskSet then 0x00000800#32 else 0#32) |||
  (if g.maskCheck then 0x00001000#32 else 0#32) |||
  (if g.pktLen = 0 ∧ g.xferMode = .none then 0x04000000#32 else 0#32) |||
  (if g.xferMode ≠ .none then 0x08000000#32 else 0#32)

/-- `GpuDataRead()` (R386), the only read of the machine with a side effect. -/
def Gpu.dataRead (cfg : Config.Params) (g : Gpu) (m : Memory) : Word × Gpu :=
  if g.xferMode = .fromVram then (m.pixel cfg (g.xferPixel cfg).1 (g.xferPixel cfg).2, g.advanceTransfer)
  else (0#32, g)

/-- `line <- line + 1`, wrapping to 0 at `lineCount`; the answer says whether it wrapped (R390). -/
def Gpu.nextLine (g : Gpu) (lineCount : Nat) : Gpu × Bool :=
  let l := g.line + 1#32
  if lineCount ≤ l.toNat then ({ g with line := 0#32 }, true) else ({ g with line := l }, false)

end Sys2Proof.Machine
end

