-- ==== Sys2Proof/Machine/Interrupt.lean ====
section
/-! DEFINITION. The interrupt controller (60_exceptions.md section 6). -/

namespace Sys2Proof.Machine

/-- `pending_line()`: "returns true iff `(status & mask) != 0`" (R341). -/
def Ic.pendingLine (ic : Ic) : Bool := (ic.iStat &&& ic.iMask) != 0#32

/-- `IC.raise(k)` (R342): the bit is latched, whatever the mask. -/
def Ic.raiseSource (ic : Ic) (k : Nat) : Ic := { ic with iStat := ic.iStat ||| (1#32 <<< k) }

/-- Acknowledge (R343): a write clears exactly the 1 bits written; `w` is already masked to the enabled bytes
(20_memory.md R93). -/
def Ic.acknowledge (ic : Ic) (w : Word) : Ic := { ic with iStat := ic.iStat &&& ~~~w }

/-- Mask write (R344). -/
def Ic.writeMask (ic : Ic) (v : Word) : Ic := { ic with iMask := v }

end Sys2Proof.Machine
end

