-- ==== Sys2Proof/Machine/Dma.lean ====
section
/-! DEFINITION. The DMA controller (60_exceptions.md section 7): its registers, the start and stop writes, and
`DmaStep`. -/

namespace Sys2Proof.Machine

/-! ## Fields -/

/-- `chcr[n]` keeps these bits of a write (R354). -/
def chcrMask : Word := 0x00770703#32

/-- The BUSY bit, bit 24 (R354). -/
def busyBit : Word := 0x01000000#32

/-- Channel `n`. -/
def Dma.channel (d : Dma) (n : ChanIdx) : Channel := d.chan.get n

/-- Replace channel `n`. -/
def Dma.setChannel (d : Dma) (n : ChanIdx) (c : Channel) : Dma := { d with chan := d.chan.set n.val c n.isLt }

/-- `prio[n]`, DPCR bits `4n+2 : 4n` (R355). -/
def Dma.prio (d : Dma) (n : ChanIdx) : Nat := (d.dpcr.extractLsb' (4 * n.val) 3).toNat

/-- `en[n]`, DPCR bit `4n+3` (R355). -/
def Dma.chanEnabled (d : Dma) (n : ChanIdx) : Bool := d.dpcr.getLsbD (4 * n.val + 3)

/-- The words a start moves, from BCR and TYPE (R360). -/
def transferLength (bcr chcr : Word) : Word :=
  match chcr.extractLsb' 9 2 with
  | 0#2 => (bcr.extractLsb' 0 16).setWidth 32
  | 1#2 => (bcr.extractLsb' 0 16).setWidth 32 * (bcr.extractLsb' 16 16).setWidth 32
  | _ => 0#32

/-! ## Register reads and writes (R353 to R361) -/

/-- The read value of CHCR (R354). -/
def Channel.chcrRead (c : Channel) : Word := c.chcr ||| (if c.st = .xfer then busyBit else 0#32)

/-- A CHCR write of `v` (R354): the stored bits, then start (R359) or stop (R361). -/
def Dma.writeChcr (d : Dma) (n : ChanIdx) (v : Word) : Dma :=
  let c := { d.channel n with chcr := v &&& chcrMask }
  if v.getLsbD 24 then
    if c.st = .idle ∧ d.enabled = true ∧ d.chanEnabled n = true then
      d.setChannel n
        { c with cur := c.madr &&& 0xFFFFFFFC#32, len := transferLength c.bcr c.chcr, st := .xfer }
    else d.setChannel n c
  else d.setChannel n { c with st := .idle }

/-- `ANY`, DICR bit 31 (R356). -/
def Dma.dicrAny (d : Dma) : Bool := d.master && (d.flag &&& d.en) != 0#8

/-- The read value of DICR (R357). -/
def Dma.dicrRead (d : Dma) : Word :=
  d.flag.setWidth 32 ||| (d.en.setWidth 32 <<< 8) |||
  (if d.master then 0x00010000#32 else 0#32) ||| (if d.dicrAny then 0x80000000#32 else 0#32)

/-- The bits of `old` outside the mask and those of `w` inside it (20_memory.md R93). -/
def mergeMasked (old w mask : Word) : Word := (old &&& ~~~mask) ||| (w &&& mask)

/-- A DICR write of `w` under the byte mask `mask` (R357, 20_memory.md R93): `FLAG` is write-1-to-clear, `EN` and
`MASTER` are plain. -/
def Dma.writeDicr (d : Dma) (w mask : Word) : Dma :=
  let merged := mergeMasked d.dicrRead w mask
  { d with
    flag := d.flag &&& ~~~((w &&& mask).extractLsb' 0 8)
    en := merged.extractLsb' 8 8
    master := merged.getLsbD 16 }

/-- The read value of DMAEN (R358). -/
def Dma.dmaEnRead (d : Dma) : Word := if d.enabled then 1#32 else 0#32

/-! ## DmaStep (R362 to R370) -/

/-- The physical address a cursor names: `c & 0x1FFF_FFFC` (20_memory.md R107). -/
def dmaAddr (c : Word) : Nat := (c &&& 0x1FFFFFFC#32).toNat

/-- `DmaRead(c)` (20_memory.md R107). -/
def dmaRead (cfg : Config.Params) (m : Memory) (c : Word) : Word :=
  match regionOf cfg (dmaAddr c) with
  | some _ => m.readWord (dmaAddr c)
  | none => 0#32

/-- `DmaWrite(c, w)` (20_memory.md R107): `rom` and every other address ignore it. -/
def dmaWrite (cfg : Config.Params) (m : Memory) (c w : Word) : Memory :=
  match regionOf cfg (dmaAddr c) with
  | some .rom => m
  | some _ => m.writeWord (dmaAddr c) w
  | none => m

/-- `PortWrite(n, w)` (R366 to R368): channel 2 is the GPU, every other channel discards. -/
def portWrite (cfg : Config.Params) (b : Bus) (n : ChanIdx) (w : Word) : Bus :=
  if n = Config.dmaGpuChannel then
    let r := b.gpu.write cfg b.mem w
    { b with gpu := r.1, mem := r.2 }
  else b

/-- `PortRead(n)` (R366 to R368): channel 2 is the GPU, every other channel gives 0. -/
def portRead (cfg : Config.Params) (b : Bus) (n : ChanIdx) : Word × Bus :=
  if n = Config.dmaGpuChannel then
    let r := b.gpu.dataRead cfg b.mem
    (r.1, { b with gpu := r.2 })
  else (0#32, b)

/-- Move one word of channel `n` (R363): DIR = 1 is memory to peripheral. -/
def moveWord (cfg : Config.Params) (b : Bus) (n : ChanIdx) (c : Channel) : Bus :=
  if c.chcr.getLsbD 0 then portWrite cfg b n (dmaRead cfg b.mem c.cur)
  else
    let r := portRead cfg b n
    { r.2 with mem := dmaWrite cfg r.2.mem c.cur r.1 }

/-- `Complete(n)` (R362, R365). -/
def completeChannel (cfg : Config.Params) (b : Bus) (n : ChanIdx) : Bus :=
  let d := b.dma.setChannel n { b.dma.channel n with st := .idle }
  { b with
    dma := { d with flag := d.flag ||| (1#8 <<< n.val) }
    ic := if d.en.getLsbD n.val && d.master then b.ic.raiseSource cfg.irqDma else b.ic }

/-- The cursor and the remaining length after one word (R362). -/
def Channel.advance (c : Channel) : Channel :=
  { c with
    cur := if c.chcr.getLsbD 1 then c.cur - 4#32 else c.cur + 4#32
    len := c.len - 1#32 }

/-- What `DmaStep` does for one channel of its list (R362 (a), (b)). -/
def stepChannel (cfg : Config.Params) (b : Bus) (n : ChanIdx) : Bus :=
  let c := b.dma.channel n
  if c.len = 0#32 then completeChannel cfg b n
  else
    let b' := moveWord cfg b n c
    let b'' := { b' with dma := b'.dma.setChannel n c.advance }
    if c.advance.len = 0#32 then completeChannel cfg b'' n else b''

/-- The channels, in index order. -/
def allChannels : List ChanIdx := [0, 1, 2, 3, 4, 5, 6, 7]

/-- The transferring channels in ascending `(prio[n], n)` (R362, R364). -/
def Dma.order (d : Dma) : List ChanIdx :=
  (List.range 8).flatMap fun p => allChannels.filter fun n => (d.channel n).st == .xfer && d.prio n == p

/-- `DmaStep` (R362, R370). -/
def dmaStep (cfg : Config.Params) (b : Bus) : Bus :=
  if b.dma.enabled then b.dma.order.foldl (stepChannel cfg) b else b

end Sys2Proof.Machine
end

