-- ==== Sys2Proof/Machine/Exception.lean ====
section
/-! DEFINITION. The exceptions of the machine and what each records (60_exceptions.md section 1). Taking one is
`State.trap` in Ops.lean. -/

namespace Sys2Proof.Machine

/-- Every exception the machine can raise (60_exceptions.md R300, R313). Each is a next state of the machine, never a
stop. -/
inductive Exc where
  /-- Interrupt (R301). -/
  | int
  /-- Address error on a load or a fetch, with the bad address (R302, R304). -/
  | adel (bad : Word)
  /-- Address error on a store, with the bad address (R303). -/
  | ades (bad : Word)
  /-- Bus error on a fetch (R305). -/
  | ibe
  /-- Bus error on a data access (R306). -/
  | dbe
  /-- SYSCALL (R310). -/
  | sys
  /-- BREAK (R311). -/
  | bp
  /-- Reserved instruction (R307). -/
  | ri
  /-- Coprocessor unusable, with the coprocessor's number (R308). -/
  | cpu (z : BitVec 2)
  /-- Arithmetic overflow (R309). -/
  | ov
deriving DecidableEq, Repr

/-- The exception code (R300). -/
def Exc.code : Exc → BitVec 5
  | .int => 0
  | .adel _ => 4
  | .ades _ => 5
  | .ibe => 6
  | .dbe => 7
  | .sys => 8
  | .bp => 9
  | .ri => 10
  | .cpu _ => 11
  | .ov => 12

/-- What BADV records, for `AdEL` and `AdES` only (R313). -/
def Exc.badAddr : Exc → Option Word
  | .adel bad => some bad
  | .ades bad => some bad
  | _ => none

/-- What CAUSE.CE records: the coprocessor number of `CpU`, else 0 (R313). -/
def Exc.ce : Exc → BitVec 2
  | .cpu z => z
  | _ => 0

end Sys2Proof.Machine
end

