-- ==== Sys2Proof/Machine/BusAccess.lean ====
section
/-! DEFINITION. The bus primitives of 20_memory.md section 6: `Fetch`, `MemRead`, `MemWrite`, `MemWriteBE`, and the
register contracts of the devices with their sub-word rule (R93). `cfg` is the configuration, `user` is SR.KUc. An
access that is refused is the exception it raises; the bus is then as it was. -/

namespace Sys2Proof.Machine

/-- The widths of an access (R71). -/
inductive AccessSize where
  | byte
  | half
  | word
deriving DecidableEq, Repr

/-- The width in bytes. -/
def AccessSize.bytes : AccessSize → Nat
  | .byte => 1
  | .half => 2
  | .word => 4

/-- The low `8n` bits. -/
def AccessSize.mask : AccessSize → Word
  | .byte => 0x000000FF#32
  | .half => 0x0000FFFF#32
  | .word => 0xFFFFFFFF#32

/-- `(1 << n) - 1`. -/
def AccessSize.enables : AccessSize → BitVec 4
  | .byte => 0b0001#4
  | .half => 0b0011#4
  | .word => 0b1111#4

/-- Bits `8*lane + 8n - 1 : 8*lane` of a word (R73). -/
def lanes (w : Word) (lane : Nat) (sz : AccessSize) : Word := (w >>> (8 * lane)) &&& sz.mask

/-- The 32-bit mask of the enabled bytes (R93). -/
def byteMask (be : BitVec 4) : Word :=
  (if be.getLsbD 0 then 0x000000FF#32 else 0#32) ||| (if be.getLsbD 1 then 0x0000FF00#32 else 0#32) |||
  (if be.getLsbD 2 then 0x00FF0000#32 else 0#32) ||| (if be.getLsbD 3 then 0xFF000000#32 else 0#32)

/-- The word read of a device register, with its side effect if it has one (R92, R93). -/
def deviceRead (cfg : Config.Params) (b : Bus) : DeviceReg → Word × Bus
  | .iStat => (b.ic.iStat, b)
  | .iMask => (b.ic.iMask, b)
  | .madr n => ((b.dma.channel n).madr, b)
  | .bcr n => ((b.dma.channel n).bcr, b)
  | .chcr n => ((b.dma.channel n).chcrRead, b)
  | .dpcr => (b.dma.dpcr, b)
  | .dicr => (b.dma.dicrRead, b)
  | .dmaEn => (b.dma.dmaEnRead, b)
  | .gpuCmd => (b.gpu.status, b)
  | .gpuData =>
    let r := b.gpu.dataRead cfg b.mem
    (r.1, { b with gpu := r.2 })
  | .unimplemented => (0#32, b)

/-- The write contract of a device register, for the word `w` under the byte mask `mask` (R93). -/
def deviceWrite (cfg : Config.Params) (b : Bus) (reg : DeviceReg) (w mask : Word) : Bus :=
  match reg with
  | .iStat => { b with ic := b.ic.acknowledge (w &&& mask) }
  | .iMask => { b with ic := b.ic.writeMask (mergeMasked b.ic.iMask w mask) }
  | .madr n =>
    let c := b.dma.channel n
    { b with dma := b.dma.setChannel n { c with madr := mergeMasked c.madr w mask } }
  | .bcr n =>
    let c := b.dma.channel n
    { b with dma := b.dma.setChannel n { c with bcr := mergeMasked c.bcr w mask } }
  | .chcr n => { b with dma := b.dma.writeChcr n (mergeMasked (b.dma.channel n).chcrRead w mask) }
  | .dpcr => { b with dma := { b.dma with dpcr := mergeMasked b.dma.dpcr w mask } }
  | .dicr => { b with dma := b.dma.writeDicr w mask }
  | .dmaEn => { b with dma := { b.dma with enabled := (mergeMasked b.dma.dmaEnRead w mask).getLsbD 0 } }
  | .gpuCmd =>
    let r := b.gpu.write cfg b.mem (w &&& mask)
    { b with gpu := r.1, mem := r.2 }
  | .gpuData => b
  | .unimplemented => b

/-- The user-segment check of R88: user mode and `addr[31] = 1`. -/
def segmentViolation (user : Bool) (addr : Word) : Bool := user && addr.msb

/-- Steps (3) and (4) of `MemRead` (R95) for an aligned address: the word there, or `DBE`. -/
def busReadWord (cfg : Config.Params) (b : Bus) (aaddr : Word) : Except Exc (Word × Bus) :=
  match targetOf cfg aaddr with
  | .region _ p => .ok (b.mem.readWord p, b)
  | .device reg => .ok (deviceRead cfg b reg)
  | .unmapped => .error .dbe

/-- `MemRead(addr, n)` (R95): the value read, in the low `8n` bits. An address and the word that holds it decode to the
same region or register, or are both unmapped, so the decode is made on the word (R73). -/
def memRead (cfg : Config.Params) (user : Bool) (b : Bus) (addr : Word) (sz : AccessSize) : Except Exc (Word × Bus) :=
  if segmentViolation user addr then .error (.adel addr)
  else if addr.toNat % sz.bytes ≠ 0 then .error (.adel addr)
  else (busReadWord cfg b (alignWord addr)).map fun r => (lanes r.1 (laneOf addr) sz, r.2)

/-- The read of LWL and LWR (42_loadstore.md R207, R208): the user-segment check on the unaligned address, then the
aligned word. -/
def memReadUnaligned (cfg : Config.Params) (user : Bool) (b : Bus) (addr : Word) : Except Exc (Word × Bus) :=
  if segmentViolation user addr then .error (.adel addr)
  else busReadWord cfg b (alignWord addr)

/-- `MemWriteBE(aaddr, data, be)` (R97): `rom` ignores it (R84). -/
def memWriteBE (cfg : Config.Params) (b : Bus) (aaddr data : Word) (be : BitVec 4) : Except Exc Bus :=
  match targetOf cfg aaddr with
  | .region .rom _ => .ok b
  | .region _ p => .ok { b with mem := b.mem.writeLanes p data be }
  | .device reg => .ok (deviceWrite cfg b reg data (byteMask be))
  | .unmapped => .error .dbe

/-- `MemWrite(addr, n, v)` (R96). -/
def memWrite (cfg : Config.Params) (user : Bool) (b : Bus) (addr : Word) (sz : AccessSize) (v : Word) :
    Except Exc Bus :=
  if segmentViolation user addr then .error (.ades addr)
  else if addr.toNat % sz.bytes ≠ 0 then .error (.ades addr)
  else memWriteBE cfg b (alignWord addr) ((v &&& sz.mask) <<< (8 * laneOf addr)) (sz.enables <<< laneOf addr)

/-- The write of SWL and SWR (42_loadstore.md R214, R215): the user-segment check on the unaligned address, then the
aligned word's enabled bytes. -/
def memWriteUnaligned (cfg : Config.Params) (user : Bool) (b : Bus) (addr : Word) (store : Word × BitVec 4) :
    Except Exc Bus :=
  if segmentViolation user addr then .error (.ades addr)
  else memWriteBE cfg b (alignWord addr) store.1 store.2

/-- `Fetch(addr)` (R94): a word of a region; a window or an unmapped address is `IBE` and touches no device. -/
def fetchWord (cfg : Config.Params) (user : Bool) (b : Bus) (addr : Word) : Except Exc Word :=
  if segmentViolation user addr then .error (.adel addr)
  else if addr.toNat % 4 ≠ 0 then .error (.adel addr)
  else
    match targetOf cfg addr with
    | .region _ p => .ok (b.mem.readWord p)
    | .device _ => .error .ibe
    | .unmapped => .error .ibe

end Sys2Proof.Machine
end

