-- ==== Sys2Proof/Machine/Flags.lean ====
section
/-! DEFINITION. The machine has no flags (10_state.md R27): comparisons write 0 or 1 to a register, and signed overflow
is an exception. The overflow tests and the comparison results are here. -/

namespace Sys2Proof.Machine

/-- Signed overflow of `a + b`: `a[31] = b[31]` and the sum's bit 31 differs (40_alu.md R152). -/
def addOverflows (a b : Word) : Bool := a.msb == b.msb && (a + b).msb != a.msb

/-- Signed overflow of `a - b`: `a[31] != b[31]` and the difference's bit 31 differs from `a[31]` (R152). -/
def subOverflows (a b : Word) : Bool := a.msb != b.msb && (a - b).msb != a.msb

/-- "Comparisons produce exactly 0x0000_0000 or 0x0000_0001" (R151). -/
def truthWord (c : Bool) : Word := if c then 1#32 else 0#32

/-- `a <s b` as a word (R162, R172). -/
def setLess (a b : Word) : Word := truthWord (decide (a.toInt < b.toInt))

/-- `a <u b` as a word (R163, R173). -/
def setLessU (a b : Word) : Word := truthWord (decide (a.toNat < b.toNat))

end Sys2Proof.Machine
end

