-- ==== Sys2Proof/Machine/Operands.lean ====
section
/-! DEFINITION. How instruction fields become operands (30_encoding.md R125 to R129, 43_branch_jump.md R231): the
extensions of the immediate, the branch and jump targets, the shift amounts, and the byte merges of the unaligned loads
and stores (42_loadstore.md R207, R208, R214, R215). -/

namespace Sys2Proof.Machine

/-- `sext_16(imm)` (R125). -/
def sext16 (imm : BitVec 16) : Word := imm.signExtend 32

/-- `zext_16(imm)` (R125). -/
def zext16 (imm : BitVec 16) : Word := imm.setWidth 32

/-- `imm ++ 0x0000`, the operand of LUI (R125). -/
def upper16 (imm : BitVec 16) : Word := imm ++ 0#16

/-- `cur + 4 + (sext_16(imm) << 2)`, a conditional branch's target (R126). -/
def branchTarget (cur : Word) (imm : BitVec 16) : Word := cur + 4#32 + (sext16 imm <<< 2)

/-- `((cur + 4) & 0xF000_0000) | (target << 2)`, the target of J and JAL (R127, R231). -/
def jumpTarget (cur : Word) (target : BitVec 26) : Word :=
  ((cur + 4#32) &&& 0xF0000000#32) ||| (target.setWidth 32 <<< 2)

/-- The shift amount of SLLV, SRLV, SRAV: bits 4:0 of the register (R128). -/
def shiftAmount (x : Word) : Nat := (x.extractLsb' 0 5).toNat

/-- Bits 7:0 of a loaded value, sign-extended (LB, 42_loadstore.md R202). -/
def sextByte (v : Word) : Word := (v.extractLsb' 0 8).signExtend 32

/-- Bits 7:0 of a loaded value, zero-extended (LBU, R203). -/
def zextByte (v : Word) : Word := (v.extractLsb' 0 8).setWidth 32

/-- Bits 15:0 of a loaded value, sign-extended (LH, R204). -/
def sextHalf (v : Word) : Word := (v.extractLsb' 0 16).signExtend 32

/-- Bits 15:0 of a loaded value, zero-extended (LHU, R205). -/
def zextHalf (v : Word) : Word := (v.extractLsb' 0 16).setWidth 32

/-- The LWL table (R207): memory word `w`, merge base `c`, `k = ea[1:0]`. -/
def lwlMerge (k : Nat) (c w : Word) : Word :=
  match k with
  | 0 => (c &&& 0x00FFFFFF#32) ||| (w <<< 24)
  | 1 => (c &&& 0x0000FFFF#32) ||| (w <<< 16)
  | 2 => (c &&& 0x000000FF#32) ||| (w <<< 8)
  | _ => w

/-- The LWR table (R208). -/
def lwrMerge (k : Nat) (c w : Word) : Word :=
  match k with
  | 0 => w
  | 1 => (c &&& 0xFF000000#32) ||| (w >>> 8)
  | 2 => (c &&& 0xFFFF0000#32) ||| (w >>> 16)
  | _ => (c &&& 0xFFFFFF00#32) ||| (w >>> 24)

/-- The word and the byte-enables SWL stores (R214). -/
def swlStore (k : Nat) (x : Word) : Word × BitVec 4 :=
  match k with
  | 0 => (x >>> 24, 0b0001#4)
  | 1 => (x >>> 16, 0b0011#4)
  | 2 => (x >>> 8, 0b0111#4)
  | _ => (x, 0b1111#4)

/-- The word and the byte-enables SWR stores (R215). -/
def swrStore (k : Nat) (x : Word) : Word × BitVec 4 :=
  match k with
  | 0 => (x, 0b1111#4)
  | 1 => (x <<< 8, 0b1110#4)
  | 2 => (x <<< 16, 0b1100#4)
  | _ => (x <<< 24, 0b1000#4)

end Sys2Proof.Machine
end

