-- ==== Sys2Proof/Machine/Ops.lean ====
section
/-! DEFINITION. The shared operations every meaning is written over: registers and control slots, the end of a cycle
(70_reset_and_hazards.md R452), taking an exception (60_exceptions.md R320) and the return from one (44 R252), loads,
stores and branches.

A meaning is given the state at the start of the cycle, after the interrupt poll and the fetch have passed. It reads
its operands from that state (`pend` not yet committed), and `State.retire` or `State.raise` then ends the cycle: they
do S1, S2, S4, S7, S8 and S9 (or X) of R452 in one update. Nothing between S1 and S9 reads the fields they set early,
except `LWL`/`LWR`, which look at `ld`, so the result is that of the steps in order (log 7). -/

namespace Sys2Proof.Machine

/-! ## Registers -/

/-- `x[r]`, the register file before the pending delayed load commits; register 0 reads 0 (10_state.md R21). -/
def State.reg (s : State) (r : RegIdx) : Word := if r = 0 then 0#32 else s.regs.get r

/-- Write a general register; a write to register 0 is discarded (10_state.md R21). -/
def writeReg (regs : Vector Word 32) (r : RegIdx) (v : Word) : Vector Word 32 :=
  if r = 0 then regs else regs.set r.val v r.isLt

/-- S7 of R452: commit the delayed load taken out of the slot. -/
def commitLoad (regs : Vector Word 32) (pend : LoadSlot) : Vector Word 32 :=
  if pend.kind = .none then regs else writeReg regs pend.reg pend.val

/-- S8 of R452: the instruction's own register write, if it has one. -/
def writeResult (regs : Vector Word 32) : Option (RegIdx × Word) → Vector Word 32
  | some (r, v) => writeReg regs r v
  | none => regs

/-- `npc`, the address of the next instruction to fetch (S4 of R452). -/
def State.npc (s : State) : Word := s.pc + s.pcdelta

/-! ## System control registers -/

/-- The stored value of a control slot. -/
def State.slot (s : State) (i : SlotIdx) : Word := s.scr.get i

/-- SR, slot 12 (10_state.md R39). -/
def State.sr (s : State) : Word := s.slot 12

/-- The stored bits of CAUSE, slot 13 (R40). -/
def State.cause (s : State) : Word := s.slot 13

/-- EPC, slot 14 (R41). -/
def State.epc (s : State) : Word := s.slot 14

/-- BADV, slot 8 (R42). -/
def State.badv (s : State) : Word := s.slot 8

/-- Store a control slot. -/
def writeSlot (scr : Vector Word 32) (i : SlotIdx) (v : Word) : Vector Word 32 := scr.set i.val v i.isLt

/-- SR.IEc, bit 0. -/
def State.intEnabled (s : State) : Bool := s.sr.getLsbD 0

/-- SR.KUc, bit 1: 1 is user mode (60_exceptions.md R335). -/
def State.userMode (s : State) : Bool := s.sr.getLsbD 1

/-- SR.CU0, bit 28. -/
def State.cu0 (s : State) : Bool := s.sr.getLsbD 28

/-- `CauseRead = (scr[13] & 0xFFFF_FBFF) | (pending_line() ? 0x400 : 0)` (10_state.md R40). -/
def State.causeRead (s : State) : Word :=
  (s.cause &&& 0xFFFFFBFF#32) ||| (if s.bus.ic.pendingLine then 0x00000400#32 else 0#32)

/-- The interrupt condition of S3 (60_exceptions.md R301): IEc = 1 and an unmasked request in CAUSE.IP. -/
def State.interruptRequested (s : State) : Bool :=
  s.intEnabled && (s.causeRead.extractLsb' 8 8 &&& s.sr.extractLsb' 8 8) != 0#8

/-- Usability of COP0: kernel mode, or user mode with CU0 = 1 (44_coprocessor_system.md R253). -/
def State.cop0Usable (s : State) : Bool := !s.userMode || s.cu0

/-! ## Taking an exception and returning from one -/

/-- Push of the mode stack at trap entry (60_exceptions.md R320 (5), R321). -/
def srPush (sr : Word) : Word := (sr &&& 0xFFFFFFC0#32) ||| ((sr <<< 2) &&& 0x0000003C#32)

/-- Pop of the mode stack by RFE (44_coprocessor_system.md R252). -/
def srPop (sr : Word) : Word := (sr &&& 0xFFFFFFF0#32) ||| ((sr >>> 2) &&& 0x0000000F#32)

/-- The exception vector, by SR.BEV (60_exceptions.md R322). -/
def trapVector (cfg : Config.Params) (sr : Word) : Word := if sr.getLsbD 22 then cfg.vecRom else cfg.vecRam

/-- What trap entry writes to CAUSE (R320 (3)): BD, CE and ExcCode replaced, IP[1:0] kept, the rest 0. -/
def trapCause (old : Word) (e : Exc) (slot : Bool) : Word :=
  (if slot then 0x80000000#32 else 0#32) ||| (e.ce.setWidth 32 <<< 28) ||| (old &&& 0x00000300#32) |||
  (e.code.setWidth 32 <<< 2)

/-- What trap entry writes to BADV (R320 (4)): the bad address for AdEL and AdES, else nothing. -/
def trapBadv (scr : Vector Word 32) (e : Exc) : Vector Word 32 :=
  match e.badAddr with
  | some bad => writeSlot scr 8 bad
  | none => scr

/-- The address trap entry saves: the instruction's, or its branch's when it stands in a delay slot (R320 (1),
R324). -/
def trapEpc (slot : Bool) (cur : Word) : Word := if slot then cur - 4#32 else cur

/-- Trap entry `Trap(code, slot, cur, bad, ce)` (60_exceptions.md R320), for the state whose pending load has been
committed. -/
def State.trap (s : State) (e : Exc) (slot : Bool) (cur : Word) : State :=
  { s with
    scr := writeSlot (trapBadv (writeSlot (writeSlot s.scr 14 (trapEpc slot cur)) 13 (trapCause s.cause e slot)) e)
      12 (srPush s.sr)
    faultPc := trapEpc slot cur
    faultCause := e.code.setWidth 32
    pc := trapVector s.cfg (srPush s.sr)
    pcdelta := 4#32
    inSlot := false
    ld := LoadSlot.empty }

/-- Raise `e` in the cycle that starts in `s`: commit the pending load (60_exceptions.md R323), then trap entry with
the cycle's `in_slot` and `pc` (step X of R452, and S3 for an interrupt). -/
def State.raise (s : State) (e : Exc) : State :=
  State.trap { s with regs := commitLoad s.regs s.ld } e s.inSlot s.pc

/-- The answer of an instruction that raises `e`. -/
def raiseExc (e : Exc) (s : State) : Result := .next (s.raise e)

/-! ## Ending a cycle that raises nothing -/

/-- S1, S2, S4, S7, S8, S9 of R452: the pending load commits, then the instruction's own result `wr`; the slot takes
the load `ld`; `in_slot` and `pcdelta` become `slot` and `delta`; fetch continues at `npc`. -/
def State.retire (s : State) (wr : Option (RegIdx × Word)) (ld : LoadSlot) (slot : Bool) (delta : Word) : State :=
  { s with
    regs := writeResult (commitLoad s.regs s.ld) wr
    ld := ld
    inSlot := slot
    pcdelta := delta
    pc := s.npc }

/-- The answer of an instruction that writes no general register. -/
def finish (s : State) : Result := .next (s.retire none LoadSlot.empty false 4#32)

/-- The answer of an instruction whose result `v` goes to `r` at retirement (40_alu.md R150, R153). -/
def finishReg (r : RegIdx) (v : Word) (s : State) : Result :=
  .next (s.retire (some (r, v)) LoadSlot.empty false 4#32)

/-- The answer of an instruction whose result `v` goes to `r` through the load-delay slot (42_loadstore.md R201). -/
def finishDelayed (r : RegIdx) (v : Word) (kind : LoadKind) (s : State) : Result :=
  .next (s.retire none ⟨r, v, kind⟩ false 4#32)

/-- The end of a branch or jump: `Branch(t)` when taken, `NoBranch()` when not, with the link write if there is one
(43_branch_jump.md R230, R245). -/
def finishBranch (taken : Bool) (t : Word) (link : Option (RegIdx × Word)) (s : State) : Result :=
  .next (s.retire link LoadSlot.empty true (if taken then t - s.npc else 4#32))

/-- `cur + 8`, the link value (43_branch_jump.md R245). -/
def State.linkValue (s : State) : Word := s.pc + 8#32

/-! ## Loads and stores -/

/-- `ea <- x[rs] + sext_16(imm)` (42_loadstore.md R200). -/
def State.effAddr (s : State) (rs : RegIdx) (imm : BitVec 16) : Word := s.reg rs + sext16 imm

/-- A load of width `sz` whose value is extended by `ext` (42_loadstore.md R201, R216). -/
def load (sz : AccessSize) (ext : Word → Word) (rt rs : RegIdx) (imm : BitVec 16) (s : State) : Result :=
  match memRead s.cfg s.userMode s.bus (s.effAddr rs imm) sz with
  | .error e => raiseExc e s
  | .ok r => finishDelayed rt (ext r.1) .mem { s with bus := r.2 }

/-- The merge base of LWL and LWR (42_loadstore.md R209): the pending load's value if it is for `rt`. -/
def State.mergeBase (s : State) (rt : RegIdx) : Word :=
  if s.ld.kind ≠ .none ∧ s.ld.reg = rt ∧ rt ≠ 0 then s.ld.val else s.reg rt

/-- LWL and LWR, by their merge table (42_loadstore.md R207, R208). -/
def loadUnaligned (merge : Nat → Word → Word → Word) (rt rs : RegIdx) (imm : BitVec 16) (s : State) : Result :=
  match memReadUnaligned s.cfg s.userMode s.bus (s.effAddr rs imm) with
  | .error e => raiseExc e s
  | .ok r => finishDelayed rt (merge (laneOf (s.effAddr rs imm)) (s.mergeBase rt) r.1) .mem { s with bus := r.2 }

/-- The end of a store (42_loadstore.md R210, R216). -/
def finishStore (written : Except Exc Bus) (s : State) : Result :=
  match written with
  | .error e => raiseExc e s
  | .ok b => finish { s with bus := b }

/-- A store of width `sz` (42_loadstore.md R210). -/
def store (sz : AccessSize) (rt rs : RegIdx) (imm : BitVec 16) (s : State) : Result :=
  finishStore (memWrite s.cfg s.userMode s.bus (s.effAddr rs imm) sz (s.reg rt)) s

/-- SWL and SWR, by their store table (42_loadstore.md R214, R215). -/
def storeUnaligned (table : Nat → Word → Word × BitVec 4) (rt rs : RegIdx) (imm : BitVec 16) (s : State) : Result :=
  finishStore (memWriteUnaligned s.cfg s.userMode s.bus (s.effAddr rs imm)
    (table (laneOf (s.effAddr rs imm)) (s.reg rt))) s

/-! ## Multiply and divide results -/

/-- Write HI and LO (41_muldiv.md R198). -/
def finishHiLo (hi lo : Word) (s : State) : Result := finish { s with hi := hi, lo := lo }

end Sys2Proof.Machine
end

