-- ==== Sys2Proof/Machine/Alu.lean ====
section
/-! DEFINITION. The arithmetic and logical instructions (40_alu.md): operands before the pending load commits, the
result at retirement (R150). -/

namespace Sys2Proof.Machine

/-- ADD (R154): raises `Ov` on signed overflow. -/
def execAdd (rd rs rt : RegIdx) (s : State) : Result :=
  if addOverflows (s.reg rs) (s.reg rt) then raiseExc .ov s else finishReg rd (s.reg rs + s.reg rt) s

/-- ADDU (R155). -/
def execAddu (rd rs rt : RegIdx) (s : State) : Result := finishReg rd (s.reg rs + s.reg rt) s

/-- SUB (R156): raises `Ov` on signed overflow. -/
def execSub (rd rs rt : RegIdx) (s : State) : Result :=
  if subOverflows (s.reg rs) (s.reg rt) then raiseExc .ov s else finishReg rd (s.reg rs - s.reg rt) s

/-- SUBU (R157). -/
def execSubu (rd rs rt : RegIdx) (s : State) : Result := finishReg rd (s.reg rs - s.reg rt) s

/-- AND (R158). -/
def execAnd (rd rs rt : RegIdx) (s : State) : Result := finishReg rd (s.reg rs &&& s.reg rt) s

/-- OR (R159). -/
def execOr (rd rs rt : RegIdx) (s : State) : Result := finishReg rd (s.reg rs ||| s.reg rt) s

/-- XOR (R160). -/
def execXor (rd rs rt : RegIdx) (s : State) : Result := finishReg rd (s.reg rs ^^^ s.reg rt) s

/-- NOR (R161). -/
def execNor (rd rs rt : RegIdx) (s : State) : Result := finishReg rd (~~~(s.reg rs ||| s.reg rt)) s

/-- SLT (R162). -/
def execSlt (rd rs rt : RegIdx) (s : State) : Result := finishReg rd (setLess (s.reg rs) (s.reg rt)) s

/-- SLTU (R163). -/
def execSltu (rd rs rt : RegIdx) (s : State) : Result := finishReg rd (setLessU (s.reg rs) (s.reg rt)) s

/-- SLL (R164). -/
def execSll (rd rt : RegIdx) (shamt : BitVec 5) (s : State) : Result := finishReg rd (s.reg rt <<< shamt.toNat) s

/-- SRL (R165). -/
def execSrl (rd rt : RegIdx) (shamt : BitVec 5) (s : State) : Result := finishReg rd (s.reg rt >>> shamt.toNat) s

/-- SRA (R166). -/
def execSra (rd rt : RegIdx) (shamt : BitVec 5) (s : State) : Result :=
  finishReg rd ((s.reg rt).sshiftRight shamt.toNat) s

/-- SLLV (R167). -/
def execSllv (rd rt rs : RegIdx) (s : State) : Result := finishReg rd (s.reg rt <<< shiftAmount (s.reg rs)) s

/-- SRLV (R168). -/
def execSrlv (rd rt rs : RegIdx) (s : State) : Result := finishReg rd (s.reg rt >>> shiftAmount (s.reg rs)) s

/-- SRAV (R169). -/
def execSrav (rd rt rs : RegIdx) (s : State) : Result :=
  finishReg rd ((s.reg rt).sshiftRight (shiftAmount (s.reg rs))) s

/-- ADDI (R170): raises `Ov` on signed overflow. -/
def execAddi (rt rs : RegIdx) (imm : BitVec 16) (s : State) : Result :=
  if addOverflows (s.reg rs) (sext16 imm) then raiseExc .ov s else finishReg rt (s.reg rs + sext16 imm) s

/-- ADDIU (R171): the immediate is sign-extended. -/
def execAddiu (rt rs : RegIdx) (imm : BitVec 16) (s : State) : Result := finishReg rt (s.reg rs + sext16 imm) s

/-- SLTI (R172). -/
def execSlti (rt rs : RegIdx) (imm : BitVec 16) (s : State) : Result :=
  finishReg rt (setLess (s.reg rs) (sext16 imm)) s

/-- SLTIU (R173): the immediate is sign-extended, then compared unsigned. -/
def execSltiu (rt rs : RegIdx) (imm : BitVec 16) (s : State) : Result :=
  finishReg rt (setLessU (s.reg rs) (sext16 imm)) s

/-- ANDI (R174). -/
def execAndi (rt rs : RegIdx) (imm : BitVec 16) (s : State) : Result := finishReg rt (s.reg rs &&& zext16 imm) s

/-- ORI (R175). -/
def execOri (rt rs : RegIdx) (imm : BitVec 16) (s : State) : Result := finishReg rt (s.reg rs ||| zext16 imm) s

/-- XORI (R176). -/
def execXori (rt rs : RegIdx) (imm : BitVec 16) (s : State) : Result := finishReg rt (s.reg rs ^^^ zext16 imm) s

/-- LUI (R177). -/
def execLui (rt : RegIdx) (imm : BitVec 16) (s : State) : Result := finishReg rt (upper16 imm) s

end Sys2Proof.Machine
end

