-- ==== Sys2Proof/Machine/Branch.lean ====
section
/-! DEFINITION. The branches and jumps (43_branch_jump.md): delay slot R230, targets R231, links R245. -/

namespace Sys2Proof.Machine

/-- The link write of `BLTZAL`, `BGEZAL` and JAL: register 31 (R245). -/
def State.linkRa (s : State) : Option (RegIdx × Word) := some (31, s.linkValue)

/-- J (R233). -/
def execJ (target : BitVec 26) (s : State) : Result := finishBranch true (jumpTarget s.pc target) none s

/-- JAL (R234). -/
def execJal (target : BitVec 26) (s : State) : Result := finishBranch true (jumpTarget s.pc target) s.linkRa s

/-- JR (R235). -/
def execJr (rs : RegIdx) (s : State) : Result := finishBranch true (s.reg rs) none s

/-- JALR (R236): the target is read before the link is written (R245). -/
def execJalr (rd rs : RegIdx) (s : State) : Result :=
  finishBranch true (s.reg rs) (some (rd, s.linkValue)) s

/-- BEQ (R237). -/
def execBeq (rs rt : RegIdx) (imm : BitVec 16) (s : State) : Result :=
  finishBranch (s.reg rs == s.reg rt) (branchTarget s.pc imm) none s

/-- BNE (R238). -/
def execBne (rs rt : RegIdx) (imm : BitVec 16) (s : State) : Result :=
  finishBranch (s.reg rs != s.reg rt) (branchTarget s.pc imm) none s

/-- BLEZ (R239). -/
def execBlez (rs : RegIdx) (imm : BitVec 16) (s : State) : Result :=
  finishBranch (decide ((s.reg rs).toInt ≤ 0)) (branchTarget s.pc imm) none s

/-- BGTZ (R240). -/
def execBgtz (rs : RegIdx) (imm : BitVec 16) (s : State) : Result :=
  finishBranch (decide (0 < (s.reg rs).toInt)) (branchTarget s.pc imm) none s

/-- BLTZ (R241): tests the sign bit. -/
def execBltz (rs : RegIdx) (imm : BitVec 16) (s : State) : Result :=
  finishBranch (s.reg rs).msb (branchTarget s.pc imm) none s

/-- BGEZ (R242). -/
def execBgez (rs : RegIdx) (imm : BitVec 16) (s : State) : Result :=
  finishBranch (!(s.reg rs).msb) (branchTarget s.pc imm) none s

/-- BLTZAL (R243): the link is written whether or not the branch is taken, and the old register is tested (R245). -/
def execBltzal (rs : RegIdx) (imm : BitVec 16) (s : State) : Result :=
  finishBranch (s.reg rs).msb (branchTarget s.pc imm) s.linkRa s

/-- BGEZAL (R244). -/
def execBgezal (rs : RegIdx) (imm : BitVec 16) (s : State) : Result :=
  finishBranch (!(s.reg rs).msb) (branchTarget s.pc imm) s.linkRa s

end Sys2Proof.Machine
end

