-- ==== Sys2Proof/Machine/LoadStore.lean ====
section
/-! DEFINITION. The loads and stores (42_loadstore.md): effective address R200, delayed load R201, stores R210,
exceptions in the order of R216. -/

namespace Sys2Proof.Machine

/-- LB (R202). -/
def execLb (rt rs : RegIdx) (imm : BitVec 16) (s : State) : Result := load .byte sextByte rt rs imm s

/-- LBU (R203). -/
def execLbu (rt rs : RegIdx) (imm : BitVec 16) (s : State) : Result := load .byte zextByte rt rs imm s

/-- LH (R204). -/
def execLh (rt rs : RegIdx) (imm : BitVec 16) (s : State) : Result := load .half sextHalf rt rs imm s

/-- LHU (R205). -/
def execLhu (rt rs : RegIdx) (imm : BitVec 16) (s : State) : Result := load .half zextHalf rt rs imm s

/-- LW (R206). -/
def execLw (rt rs : RegIdx) (imm : BitVec 16) (s : State) : Result := load .word id rt rs imm s

/-- LWL (R207). -/
def execLwl (rt rs : RegIdx) (imm : BitVec 16) (s : State) : Result := loadUnaligned lwlMerge rt rs imm s

/-- LWR (R208). -/
def execLwr (rt rs : RegIdx) (imm : BitVec 16) (s : State) : Result := loadUnaligned lwrMerge rt rs imm s

/-- SB (R211). -/
def execSb (rt rs : RegIdx) (imm : BitVec 16) (s : State) : Result := store .byte rt rs imm s

/-- SH (R212). -/
def execSh (rt rs : RegIdx) (imm : BitVec 16) (s : State) : Result := store .half rt rs imm s

/-- SW (R213). -/
def execSw (rt rs : RegIdx) (imm : BitVec 16) (s : State) : Result := store .word rt rs imm s

/-- SWL (R214). -/
def execSwl (rt rs : RegIdx) (imm : BitVec 16) (s : State) : Result := storeUnaligned swlStore rt rs imm s

/-- SWR (R215). -/
def execSwr (rt rs : RegIdx) (imm : BitVec 16) (s : State) : Result := storeUnaligned swrStore rt rs imm s

end Sys2Proof.Machine
end

