-- ==== Sys2Proof/Machine/MulDiv.lean ====
section
/-! DEFINITION. Multiply, divide and the HI/LO moves (41_muldiv.md). No instruction of this file raises an exception
(R198). -/

namespace Sys2Proof.Machine

/-- The DIV rows of R199, as (`lo`, `hi`): truncation toward zero, and the fixed results for a zero divisor and for
the quotient that does not fit. -/
def divSigned (n d : Word) : Word × Word :=
  if d = 0#32 then (if n.msb then 0x00000001#32 else 0xFFFFFFFF#32, n)
  else if n = 0x80000000#32 ∧ d = 0xFFFFFFFF#32 then (0x80000000#32, 0#32)
  else (BitVec.ofInt 32 (n.toInt.tdiv d.toInt), BitVec.ofInt 32 (n.toInt.tmod d.toInt))

/-- The DIVU rows of R199, as (`lo`, `hi`). -/
def divUnsigned (n d : Word) : Word × Word :=
  if d = 0#32 then (0xFFFFFFFF#32, n)
  else (BitVec.ofNat 32 (n.toNat / d.toNat), BitVec.ofNat 32 (n.toNat % d.toNat))

/-- The exact 64-bit signed product (R190). -/
def mulSigned (a b : Word) : BitVec 64 := BitVec.ofInt 64 (a.toInt * b.toInt)

/-- The exact 64-bit unsigned product (R191). -/
def mulUnsigned (a b : Word) : BitVec 64 := BitVec.ofNat 64 (a.toNat * b.toNat)

/-- MULT (R190). -/
def execMult (rs rt : RegIdx) (s : State) : Result :=
  finishHiLo ((mulSigned (s.reg rs) (s.reg rt)).extractLsb' 32 32)
    ((mulSigned (s.reg rs) (s.reg rt)).extractLsb' 0 32) s

/-- MULTU (R191). -/
def execMultu (rs rt : RegIdx) (s : State) : Result :=
  finishHiLo ((mulUnsigned (s.reg rs) (s.reg rt)).extractLsb' 32 32)
    ((mulUnsigned (s.reg rs) (s.reg rt)).extractLsb' 0 32) s

/-- DIV (R192). -/
def execDiv (rs rt : RegIdx) (s : State) : Result :=
  finishHiLo (divSigned (s.reg rs) (s.reg rt)).2 (divSigned (s.reg rs) (s.reg rt)).1 s

/-- DIVU (R193). -/
def execDivu (rs rt : RegIdx) (s : State) : Result :=
  finishHiLo (divUnsigned (s.reg rs) (s.reg rt)).2 (divUnsigned (s.reg rs) (s.reg rt)).1 s

/-- MFHI (R194). -/
def execMfhi (rd : RegIdx) (s : State) : Result := finishReg rd s.hi s

/-- MFLO (R195). -/
def execMflo (rd : RegIdx) (s : State) : Result := finishReg rd s.lo s

/-- MTHI (R196): `lo` is unchanged. -/
def execMthi (rs : RegIdx) (s : State) : Result := finishHiLo (s.reg rs) s.lo s

/-- MTLO (R197): `hi` is unchanged. -/
def execMtlo (rs : RegIdx) (s : State) : Result := finishHiLo s.hi (s.reg rs) s

end Sys2Proof.Machine
end

