-- ==== Sys2Proof/Machine/System.lean ====
section
/-! DEFINITION. Coprocessor 0, the system instructions and the absent coprocessors (44_coprocessor_system.md). -/

namespace Sys2Proof.Machine

/-- The usability test that comes before every word with op = 0x10 (R253): CpU(0) where COP0 is not usable. -/
def cop0 (meaning : Result) (s : State) : Result := if s.cop0Usable then meaning else raiseExc (.cpu 0) s

/-- What MFC0 reads from a slot (R250): CAUSE with its live bit, PRID's constant, else the stored word. -/
def State.readSlot (s : State) (slot : SlotIdx) : Word :=
  if slot = 13 then s.causeRead else if slot = 15 then s.cfg.pridValue else s.slot slot

/-- What MTC0 stores (R251): slots 8, 14, 15 are read-only, CAUSE takes bits 9:8, every other slot all 32 bits. -/
def moveToSlot (scr : Vector Word 32) (slot : SlotIdx) (v : Word) : Vector Word 32 :=
  if slot = 8 ∨ slot = 14 ∨ slot = 15 then scr
  else if slot = 13 then writeSlot scr 13 ((scr.get 13 &&& ~~~0x00000300#32) ||| (v &&& 0x00000300#32))
  else writeSlot scr slot v

/-- MFC0 (R250): delayed like a load. -/
def execMfc0 (rt : RegIdx) (slot : SlotIdx) (s : State) : Result :=
  cop0 (finishDelayed rt (s.readSlot slot) .cop s) s

/-- MTC0 (R251): takes effect at its own retirement. -/
def execMtc0 (rt : RegIdx) (slot : SlotIdx) (s : State) : Result :=
  cop0 (finish { s with scr := moveToSlot s.scr slot (s.reg rt) }) s

/-- RFE (R252, 60_exceptions.md R330): pops the mode stack and does nothing else. -/
def execRfe (s : State) : Result := cop0 (finish { s with scr := writeSlot s.scr 12 (srPop s.sr) }) s

/-- SYSCALL (R255). -/
def execSyscall (_code : BitVec 20) (s : State) : Result := raiseExc .sys s

/-- BREAK (R256). -/
def execBrk (_code : BitVec 20) (s : State) : Result := raiseExc .bp s

/-- COP1 (R257): there is no coprocessor 1. -/
def execCop1 (_low : BitVec 26) (s : State) : Result := raiseExc (.cpu 1) s

/-- COP2 (R257). -/
def execCop2 (_low : BitVec 26) (s : State) : Result := raiseExc (.cpu 2) s

/-- COP3 (R257). -/
def execCop3 (_low : BitVec 26) (s : State) : Result := raiseExc (.cpu 3) s

/-- LWC1 (R258): no effective address, no access. -/
def execLwc1 (_low : BitVec 26) (s : State) : Result := raiseExc (.cpu 1) s

/-- LWC2 (R258). -/
def execLwc2 (_low : BitVec 26) (s : State) : Result := raiseExc (.cpu 2) s

/-- LWC3 (R258). -/
def execLwc3 (_low : BitVec 26) (s : State) : Result := raiseExc (.cpu 3) s

/-- SWC1 (R259): no access. -/
def execSwc1 (_low : BitVec 26) (s : State) : Result := raiseExc (.cpu 1) s

/-- SWC2 (R259). -/
def execSwc2 (_low : BitVec 26) (s : State) : Result := raiseExc (.cpu 2) s

/-- SWC3 (R259). -/
def execSwc3 (_low : BitVec 26) (s : State) : Result := raiseExc (.cpu 3) s

end Sys2Proof.Machine
end

