-- ==== Sys2Proof/Machine/Cycle.lean ====
section
/-! DEFINITION. The cycle and the tick (70_reset_and_hazards.md section 1): `CpuStep`, `DmaStep` on the state,
`TickEnd`. -/

namespace Sys2Proof.Machine

/-- The exception of a reserved word (30_encoding.md R135): RI, but CpU(0) for a word with op = 0x10 where COP0 is not
usable (44_coprocessor_system.md R253, R254). -/
def State.reservedExc (s : State) : DecodeError → Exc
  | .reservedCop0 => if s.cop0Usable then .ri else .cpu 0
  | .truncated => .ri
  | .reservedOpcode => .ri
  | .reservedFunct => .ri
  | .reservedRegimm => .ri
  | .mustBeZero => .ri

/-- The fetch of S5 (R452). -/
def State.fetch (s : State) : Except Exc Word := fetchWord s.cfg s.userMode s.bus s.pc

/-- Decode and execute a fetched word (S6 to S9 or X of R452). -/
def runWord (w : Word) (s : State) : Result :=
  match decode w with
  | .ok i => exec i s
  | .error e => raiseExc (s.reservedExc e) s

/-- `CpuStep()` (R452): the interrupt poll (S3), the fetch (S5), then the instruction. -/
def cpuStep (s : State) : Result :=
  if s.interruptRequested then raiseExc .int s
  else
    match s.fetch with
    | .error e => raiseExc e s
    | .ok w => runWord w s

/-- `DmaStep()` (60_exceptions.md R362) on the state: the CPU takes no part. -/
def State.dmaStep (s : State) : State := { s with bus := Machine.dmaStep s.cfg s.bus }

/-- `TickEnd()` (R454, 60_exceptions.md R390): the raster line, and the vertical-blank source when it wraps. -/
def State.tickEnd (s : State) : State :=
  let r := s.bus.gpu.nextLine s.cfg.lineCount
  { s with
    bus := { s.bus with
      gpu := r.1
      ic := if r.2 then s.bus.ic.raiseSource s.cfg.irqVblank else s.bus.ic } }

/-- Count the cycle that just ended; after the last one of a tick, `TickEnd` (R450). -/
def State.countCycle (s : State) : State :=
  if s.tickCycle + 1 < s.cfg.tickBudget then { s with tickCycle := s.tickCycle + 1 }
  else State.tickEnd { s with tickCycle := 0 }

/-- What follows `CpuStep` in a step: `DmaStep` (R451), then the tick's count. -/
def State.endCycle (s : State) : State := s.dmaStep.countCycle

/-- One cycle (R451), with `TickEnd` after the last cycle of a tick (R450). -/
def fullCycle (s : State) : Result :=
  match cpuStep s with
  | .next t => .next t.endCycle
  | .fault r => .fault r
  | .refused r => .refused r

end Sys2Proof.Machine
end

