-- ==== Sys2Proof/Machine/HostInterface.lean ====
section
/-! DEFINITION. What the host does to the machine and sees of it (70_reset_and_hazards.md section 4): the preload
before the first tick, and the framebuffer between ticks. No step of the machine calls anything here. -/

namespace Sys2Proof.Machine

/-- Store bytes at rising physical addresses from `p`, as the host does (10_state.md R47): `rom` too. -/
def placeBytes (m : Memory) (p : Nat) : List Byte → Memory
  | [] => m
  | b :: bs => placeBytes (m.write p b) (p + 1) bs

/-- The host's preload (R462 (3), R466): the ROM image, byte 0 at the ROM's base, and the communications flag. An image
is complete when it has exactly ROM_SIZE bytes (R465). -/
def State.hostPreload (s : State) (image : List Byte) (flag : Word) : State :=
  { s with bus := { s.bus with mem := placeBytes s.bus.mem s.cfg.romBase image }, comms := flag }

/-- Store the bytes of an instruction where the next fetch reads, if that address is in a region. -/
def State.placeAtPc (s : State) (bytes : List Byte) : State :=
  match targetOf s.cfg s.pc with
  | .region _ p => { s with bus := { s.bus with mem := placeBytes s.bus.mem p bytes } }
  | .device _ => s
  | .unmapped => s

/-- The four 8-bit channels of a framebuffer pixel, in byte order: red, green, blue, fourth (R467,
60_exceptions.md R420). -/
structure PixelChannels where
  red : Byte
  green : Byte
  blue : Byte
  fourth : Byte
deriving DecidableEq, Repr

/-- Pixel (`x`, `y`) of the framebuffer image, which is the content of `vram` (R467). -/
def State.framebufferPixel (s : State) (x : Fin s.cfg.vramWidth) (y : Fin s.cfg.vramHeight) : PixelChannels :=
  let w := s.bus.mem.pixel s.cfg x.val y.val
  ⟨laneByte w 0, laneByte w 1, laneByte w 2, laneByte w 3⟩

end Sys2Proof.Machine
end

