-- ==== Sys2Proof/Machine/Step.lean ====
section
/-! DEFINITION. The step of the machine, one cycle (70_reset_and_hazards.md R451), and the placing of an instruction
word where the next fetch reads. -/

namespace Sys2Proof.Machine

/-- One step of the engine: `CpuStep`, `DmaStep`, and `TickEnd` after the last cycle of a tick (R450, R451). -/
def step (s : State) : Host.Outcome State Fault Refusal := fullCycle s

/-- The instruction whose low `nbits` bits are those of `w` and whose other bits are 0, stored where `step` fetches its
next instruction, as the host's preload would (log 1). -/
def State.withFetchWord (s : State) (nbits w : Nat) : State :=
  s.placeAtPc (bytesOfWord (BitVec.ofNat 32 (w % 2 ^ nbits)))

end Sys2Proof.Machine
end

