-- ==== Sys2Proof/Safety.lean ====
section
/-! DEFINITION. The words in which claims about the machine are made: what the end of an instruction leaves unchanged,
what a taken exception looks like, and the invariants of the state. They are written from the rules of spec/, field by
field and bit by bit, and not over the operations of Machine/Ops.lean, so that a claim says more than a definition of
the model said before. -/

namespace Sys2Proof.Machine

/-! ## Which instructions write what -/

/-- The general register an instruction writes at its own retirement, if any (40_alu.md R153, 41_muldiv.md R194, R195,
43_branch_jump.md R245). A load and MFC0 write none: their value goes through the slot `ld` (42_loadstore.md R201). -/
def destOf : Instr → Option RegIdx
  | .sll rd _ _ => some rd
  | .srl rd _ _ => some rd
  | .sra rd _ _ => some rd
  | .sllv rd _ _ => some rd
  | .srlv rd _ _ => some rd
  | .srav rd _ _ => some rd
  | .jr _ => none
  | .jalr rd _ => some rd
  | .syscall _ => none
  | .brk _ => none
  | .mfhi rd => some rd
  | .mthi _ => none
  | .mflo rd => some rd
  | .mtlo _ => none
  | .mult _ _ => none
  | .multu _ _ => none
  | .div _ _ => none
  | .divu _ _ => none
  | .add rd _ _ => some rd
  | .addu rd _ _ => some rd
  | .sub rd _ _ => some rd
  | .subu rd _ _ => some rd
  | .and rd _ _ => some rd
  | .or rd _ _ => some rd
  | .xor rd _ _ => some rd
  | .nor rd _ _ => some rd
  | .slt rd _ _ => some rd
  | .sltu rd _ _ => some rd
  | .bltz _ _ => none
  | .bgez _ _ => none
  | .bltzal _ _ => some 31
  | .bgezal _ _ => some 31
  | .j _ => none
  | .jal _ => some 31
  | .beq _ _ _ => none
  | .bne _ _ _ => none
  | .blez _ _ => none
  | .bgtz _ _ => none
  | .addi rt _ _ => some rt
  | .addiu rt _ _ => some rt
  | .slti rt _ _ => some rt
  | .sltiu rt _ _ => some rt
  | .andi rt _ _ => some rt
  | .ori rt _ _ => some rt
  | .xori rt _ _ => some rt
  | .lui rt _ => some rt
  | .mfc0 _ _ => none
  | .mtc0 _ _ => none
  | .rfe => none
  | .cop1 _ => none
  | .cop2 _ => none
  | .cop3 _ => none
  | .lb _ _ _ => none
  | .lh _ _ _ => none
  | .lwl _ _ _ => none
  | .lw _ _ _ => none
  | .lbu _ _ _ => none
  | .lhu _ _ _ => none
  | .lwr _ _ _ => none
  | .sb _ _ _ => none
  | .sh _ _ _ => none
  | .swl _ _ _ => none
  | .sw _ _ _ => none
  | .swr _ _ _ => none
  | .lwc1 _ => none
  | .lwc2 _ => none
  | .lwc3 _ => none
  | .swc1 _ => none
  | .swc2 _ => none
  | .swc3 _ => none

/-- The six instructions that write HI or LO (41_muldiv.md R198). -/
def writesHiLo : Instr → Bool
  | .sll _ _ _ => false
  | .srl _ _ _ => false
  | .sra _ _ _ => false
  | .sllv _ _ _ => false
  | .srlv _ _ _ => false
  | .srav _ _ _ => false
  | .jr _ => false
  | .jalr _ _ => false
  | .syscall _ => false
  | .brk _ => false
  | .mfhi _ => false
  | .mthi _ => true
  | .mflo _ => false
  | .mtlo _ => true
  | .mult _ _ => true
  | .multu _ _ => true
  | .div _ _ => true
  | .divu _ _ => true
  | .add _ _ _ => false
  | .addu _ _ _ => false
  | .sub _ _ _ => false
  | .subu _ _ _ => false
  | .and _ _ _ => false
  | .or _ _ _ => false
  | .xor _ _ _ => false
  | .nor _ _ _ => false
  | .slt _ _ _ => false
  | .sltu _ _ _ => false
  | .bltz _ _ => false
  | .bgez _ _ => false
  | .bltzal _ _ => false
  | .bgezal _ _ => false
  | .j _ => false
  | .jal _ => false
  | .beq _ _ _ => false
  | .bne _ _ _ => false
  | .blez _ _ => false
  | .bgtz _ _ => false
  | .addi _ _ _ => false
  | .addiu _ _ _ => false
  | .slti _ _ _ => false
  | .sltiu _ _ _ => false
  | .andi _ _ _ => false
  | .ori _ _ _ => false
  | .xori _ _ _ => false
  | .lui _ _ => false
  | .mfc0 _ _ => false
  | .mtc0 _ _ => false
  | .rfe => false
  | .cop1 _ => false
  | .cop2 _ => false
  | .cop3 _ => false
  | .lb _ _ _ => false
  | .lh _ _ _ => false
  | .lwl _ _ _ => false
  | .lw _ _ _ => false
  | .lbu _ _ _ => false
  | .lhu _ _ _ => false
  | .lwr _ _ _ => false
  | .sb _ _ _ => false
  | .sh _ _ _ => false
  | .swl _ _ _ => false
  | .sw _ _ _ => false
  | .swr _ _ _ => false
  | .lwc1 _ => false
  | .lwc2 _ => false
  | .lwc3 _ => false
  | .swc1 _ => false
  | .swc2 _ => false
  | .swc3 _ => false

/-- The twelve branches and jumps, the instructions followed by a delay slot (43_branch_jump.md R230). -/
def isBranch : Instr → Bool
  | .sll _ _ _ => false
  | .srl _ _ _ => false
  | .sra _ _ _ => false
  | .sllv _ _ _ => false
  | .srlv _ _ _ => false
  | .srav _ _ _ => false
  | .jr _ => true
  | .jalr _ _ => true
  | .syscall _ => false
  | .brk _ => false
  | .mfhi _ => false
  | .mthi _ => false
  | .mflo _ => false
  | .mtlo _ => false
  | .mult _ _ => false
  | .multu _ _ => false
  | .div _ _ => false
  | .divu _ _ => false
  | .add _ _ _ => false
  | .addu _ _ _ => false
  | .sub _ _ _ => false
  | .subu _ _ _ => false
  | .and _ _ _ => false
  | .or _ _ _ => false
  | .xor _ _ _ => false
  | .nor _ _ _ => false
  | .slt _ _ _ => false
  | .sltu _ _ _ => false
  | .bltz _ _ => true
  | .bgez _ _ => true
  | .bltzal _ _ => true
  | .bgezal _ _ => true
  | .j _ => true
  | .jal _ => true
  | .beq _ _ _ => true
  | .bne _ _ _ => true
  | .blez _ _ => true
  | .bgtz _ _ => true
  | .addi _ _ _ => false
  | .addiu _ _ _ => false
  | .slti _ _ _ => false
  | .sltiu _ _ _ => false
  | .andi _ _ _ => false
  | .ori _ _ _ => false
  | .xori _ _ _ => false
  | .lui _ _ => false
  | .mfc0 _ _ => false
  | .mtc0 _ _ => false
  | .rfe => false
  | .cop1 _ => false
  | .cop2 _ => false
  | .cop3 _ => false
  | .lb _ _ _ => false
  | .lh _ _ _ => false
  | .lwl _ _ _ => false
  | .lw _ _ _ => false
  | .lbu _ _ _ => false
  | .lhu _ _ _ => false
  | .lwr _ _ _ => false
  | .sb _ _ _ => false
  | .sh _ _ _ => false
  | .swl _ _ _ => false
  | .sw _ _ _ => false
  | .swr _ _ _ => false
  | .lwc1 _ => false
  | .lwc2 _ => false
  | .lwc3 _ => false
  | .swc1 _ => false
  | .swc2 _ => false
  | .swc3 _ => false

/-! ## The register file at the end of a cycle -/

/-- General register `r` at the end of a cycle that starts in `s`, before the instruction's own result: the pending
delayed load has committed (10_state.md R34, 70_reset_and_hazards.md R452 S7); register 0 reads 0. -/
def State.committed (s : State) (r : RegIdx) : Word :=
  if r ≠ 0 ∧ s.ld.kind ≠ .none ∧ s.ld.reg = r then s.ld.val else s.reg r

/-- General register `r` at the end of the cycle, the instruction's own result `wr` included: it lands after the pending
load and wins over it (S8 of R452); a write to register 0 is discarded (10_state.md R21). -/
def State.regAfter (s : State) (wr : Option (RegIdx × Word)) (r : RegIdx) : Word :=
  match wr with
  | some (d, v) => if r = d ∧ r ≠ 0 then v else s.committed r
  | none => s.committed r

/-! ## Frames -/

/-- HI and LO are unchanged. -/
structure SameHiLo (s t : State) : Prop where
  hi : t.hi = s.hi
  lo : t.lo = s.lo

/-- The system control bank and the two fault latches are unchanged. -/
structure SameControl (s t : State) : Prop where
  slots : ∀ i, t.slot i = s.slot i
  faultCause : t.faultCause = s.faultCause
  faultPc : t.faultPc = s.faultPc

/-- Every byte of memory is unchanged. -/
def SameMemory (s t : State) : Prop := ∀ a, t.bus.mem.read a = s.bus.mem.read a

/-- Interrupt controller, DMA controller and GPU are unchanged. -/
structure SameDevices (s t : State) : Prop where
  ic : t.bus.ic = s.bus.ic
  dma : t.bus.dma = s.bus.dma
  gpu : t.bus.gpu = s.bus.gpu

/-- What no instruction changes: the communications flag, the tick's count and the configuration. -/
structure SameHost (s t : State) : Prop where
  comms : t.comms = s.comms
  tickCycle : t.tickCycle = s.tickCycle
  cfg : t.cfg = s.cfg

/-- Execution continues at `npc` and the next instruction stands in no delay slot (R452 S2, S4, S9). -/
structure Sequential (s t : State) : Prop where
  pc : t.pc = s.pc + s.pcdelta
  pcdelta : t.pcdelta = 4#32
  inSlot : t.inSlot = false

/-- `t` ends a cycle from `s` whose instruction writes the general register and value of `wr` and nothing else. -/
structure WritesOnly (s t : State) (wr : Option (RegIdx × Word)) : Prop where
  regs : ∀ r, t.reg r = s.regAfter wr r
  flow : Sequential s t
  ldEmpty : t.ld = LoadSlot.empty
  hiLo : SameHiLo s t
  control : SameControl s t
  memory : SameMemory s t
  devices : SameDevices s t
  host : SameHost s t

/-- `t` ends a cycle from `s` whose instruction writes HI and LO and nothing else. -/
structure WritesOnlyHiLo (s t : State) : Prop where
  regs : ∀ r, t.reg r = s.committed r
  flow : Sequential s t
  ldEmpty : t.ld = LoadSlot.empty
  control : SameControl s t
  memory : SameMemory s t
  devices : SameDevices s t
  host : SameHost s t

/-- `t` ends a cycle from `s` whose instruction puts `v` for register `rt` into the load-delay slot; the registers are
those of `s` with the earlier pending load committed. Nothing is said of the devices. -/
structure LoadsInto (s t : State) (rt : RegIdx) (v : Word) (kind : LoadKind) : Prop where
  regs : ∀ r, t.reg r = s.committed r
  flow : Sequential s t
  pending : t.ld = ⟨rt, v, kind⟩
  hiLo : SameHiLo s t
  control : SameControl s t
  memory : SameMemory s t
  host : SameHost s t

/-- `t` ends a cycle from `s` whose instruction changes nothing but what stands behind the bus: a store. -/
structure StoresToBus (s t : State) : Prop where
  regs : ∀ r, t.reg r = s.committed r
  flow : Sequential s t
  ldEmpty : t.ld = LoadSlot.empty
  hiLo : SameHiLo s t
  control : SameControl s t
  host : SameHost s t

/-- `t` ends a cycle from `s` whose instruction changes nothing but the system control bank. -/
structure WritesControl (s t : State) : Prop where
  regs : ∀ r, t.reg r = s.committed r
  flow : Sequential s t
  ldEmpty : t.ld = LoadSlot.empty
  hiLo : SameHiLo s t
  faultCause : t.faultCause = s.faultCause
  faultPc : t.faultPc = s.faultPc
  memory : SameMemory s t
  devices : SameDevices s t
  host : SameHost s t

/-- `t` ends the cycle of a branch or jump at `s`, with the link write `link`: the delay slot at `npc` is next, and after
it execution is at `target` if `taken`, else at the address after the slot (43_branch_jump.md R230). -/
structure Branches (s t : State) (link : Option (RegIdx × Word)) (taken : Prop) (target : Word) : Prop where
  regs : ∀ r, t.reg r = s.regAfter link r
  pc : t.pc = s.pc + s.pcdelta
  inSlot : t.inSlot = true
  goes : taken → t.pc + t.pcdelta = target
  falls : ¬taken → t.pcdelta = 4#32
  ldEmpty : t.ld = LoadSlot.empty
  hiLo : SameHiLo s t
  control : SameControl s t
  memory : SameMemory s t
  devices : SameDevices s t
  host : SameHost s t

/-- `t` is the state after the exception `e` was taken in the cycle that starts in `s` (60_exceptions.md R313, R320 to
R324): every register, latch and field of it. -/
structure TrapTaken (s t : State) (e : Exc) : Prop where
  regs : ∀ r, t.reg r = s.committed r
  epc : t.epc = if s.inSlot then s.pc - 4#32 else s.pc
  faultPc : t.faultPc = if s.inSlot then s.pc - 4#32 else s.pc
  faultCause : t.faultCause.toNat = e.code.toNat
  cause : ∀ k, k < 32 → t.cause.getLsbD k =
    if k = 31 then s.inSlot
    else if 28 ≤ k ∧ k ≤ 29 then e.ce.getLsbD (k - 28)
    else if 8 ≤ k ∧ k ≤ 9 then s.cause.getLsbD k
    else if 2 ≤ k ∧ k ≤ 6 then e.code.getLsbD (k - 2)
    else false
  badv : t.badv = e.badAddr.getD s.badv
  sr : ∀ k, k < 32 → t.sr.getLsbD k =
    if k < 2 then false else if k < 6 then s.sr.getLsbD (k - 2) else s.sr.getLsbD k
  otherSlots : ∀ i, i ≠ 8 → i ≠ 12 → i ≠ 13 → i ≠ 14 → t.slot i = s.slot i
  pc : t.pc = if s.sr.getLsbD 22 then s.cfg.vecRom else s.cfg.vecRam
  pcdelta : t.pcdelta = 4#32
  inSlot : t.inSlot = false
  ldEmpty : t.ld = LoadSlot.empty
  hiLo : SameHiLo s t
  memory : SameMemory s t
  devices : SameDevices s t
  host : SameHost s t

/-- The instruction `i` raises `e` in `s`: its next state is that of the taken exception. -/
def Raises (i : Instr) (s : State) (e : Exc) : Prop := ∃ t, exec i s = .next t ∧ TrapTaken s t e

/-! ## The interrupt condition, bit by bit -/

/-- The controller's line: some source is pending and unmasked (60_exceptions.md R341). -/
def LineHigh (ic : Ic) : Prop := ∃ j, j < 32 ∧ ic.iStat.getLsbD j = true ∧ ic.iMask.getLsbD j = true

/-- The condition of 60_exceptions.md R301: `IEc` is 1 and some request `IP[k]` of CAUSE has `IM[k]` = 1. `IP[2]` is
the controller's line, the others are stored bits. -/
def InterruptDue (s : State) : Prop :=
  s.sr.getLsbD 0 = true ∧
    ∃ k, k < 8 ∧ s.sr.getLsbD (8 + k) = true ∧
      (if k = 2 then LineHigh s.bus.ic else s.cause.getLsbD (8 + k) = true)

/-! ## Fetching -/

/-- The instruction at `pc` can be fetched and no interrupt comes first: `pc` is aligned, permitted in the mode, and the
word's bytes stand in region `r` from physical address `p` (20_memory.md R94). -/
structure FetchesFrom (s : State) (r : Region) (p : Nat) : Prop where
  noInterrupt : s.interruptRequested = false
  permitted : ¬(s.userMode = true ∧ s.pc.msb = true)
  aligned : s.pc.toNat % 4 = 0
  inRegion : targetOf s.cfg s.pc = .region r p

/-! ## Invariants -/

/-- The memory is in its canonical form and lists addresses of the five regions only. -/
structure MemoryInv (cfg : Config.Params) (m : Memory) : Prop where
  canonical : m.wf
  inRegions : ∀ c ∈ m.cells, (regionOf cfg c.1).isSome = true

/-- What holds of the CPU's registers between any two cycles: register 0 is 0 (10_state.md R21), the bits of CAUSE that
read 0 or are live are stored as 0 (R40), the stored PRID is 0 (R43), `pcdelta` is 4 outside a delay slot (R29), and an
empty slot is `(0, 0, LD_NONE)` (R35). -/
structure CpuInv (s : State) : Prop where
  zero : s.regs.get 0 = 0#32
  cause : s.cause &&& 0x4FFFFC83#32 = 0#32
  prid : s.slot 15 = 0#32
  pcdelta : s.inSlot = false → s.pcdelta = 4#32
  ld : s.ld.kind = .none → s.ld = LoadSlot.empty

/-- What holds of the GPU's two buffers between any two cycles: each has its length (10_state.md R51), and the FIFO is
empty, its cursors inside it (60_exceptions.md R381). -/
structure GpuBuffers (cfg : Config.Params) (g : Gpu) : Prop where
  fifoLength : g.fifo.length = cfg.gpuFifoDepth
  fifoEmpty : g.fifoRd = g.fifoWr
  fifoCursor : g.fifoRd < cfg.gpuFifoDepth
  pktLength : g.pkt.length = cfg.gpuPktMax

/-- What holds of the GPU between any two cycles: its buffers are as above, a packet in assembly is shorter than the length
its first word gives (R387, R388), and a running transfer has a size in range and words left (R384, R403). -/
structure GpuInv (cfg : Config.Params) (g : Gpu) : Prop where
  buffers : GpuBuffers cfg g
  packet : g.pktLen ≠ 0 → g.pktLen < g.pktNeed ∧ g.pktNeed = packetLen ((g.pktWord 0).extractLsb' 24 8)
  transfer : g.xferMode ≠ .none →
    (g.xferX < 1024 ∧ g.xferY < 512) ∧ (1 ≤ g.xferW ∧ g.xferW ≤ 1024) ∧ (1 ≤ g.xferH ∧ g.xferH ≤ 512) ∧
      g.xferI < g.xferW * g.xferH

/-- What holds of the devices between any two cycles: CHCR stores only its implemented bits (60_exceptions.md R354), only
the two wired sources are ever pending (R348), and the GPU's invariant. -/
structure DeviceInv (cfg : Config.Params) (b : Bus) : Prop where
  chcr : ∀ n, (b.dma.channel n).chcr &&& 0xFF88F8FC#32 = 0#32
  sources : ∀ j, j < 32 → b.ic.iStat.getLsbD j = true → j = cfg.irqVblank ∨ j = cfg.irqDma
  gpu : GpuInv cfg b.gpu

/-- The raster line is below the line count, and the tick's count below its budget, when these are not 0
(60_exceptions.md R390, 70_reset_and_hazards.md R450). -/
structure TickInv (s : State) : Prop where
  line : s.bus.gpu.line = 0#32 ∨ s.bus.gpu.line.toNat < s.cfg.lineCount
  count : s.tickCycle = 0 ∨ s.tickCycle < s.cfg.tickBudget

/-! ## The tick as the host sees it -/

/-- The preconditions of a tick (70_reset_and_hazards.md R465), for the image the host preloads: it is complete, and the
communications flag is nonzero. No step tests them (log 2). -/
structure BootReady (image : List Byte) (flag : Word) : Prop where
  complete : image.length = Config.romSize
  comms : flag ≠ 0#32

end Sys2Proof.Machine
end

