-- ==== Sys2Proof/WellFormed.lean ====
section
/-! DEFINITION. Which words are instructions: the 70 match/mask rows of 30_encoding.md R134 and the strict rule of
R135. The operands of `Instr` are bounded by their types (register numbers below 32, immediates of 16 bits, targets
of 26, code fields of 20, shift amounts of 5), so an ill-formed `Instr` cannot be written down; what can be ill-formed
is the raw word, and it is checked here. Decode.lean decodes by fields (R131 to R133), independently of this table. -/

namespace Sys2Proof

/-- One row of the table of R134. -/
structure EncRow where
  mnemonic : String
  pattern : Word
  mask : Word
deriving DecidableEq, Repr

/-- "A word is the instruction of a row exactly when `(iw & mask) == match`" (R134). -/
def EncRow.matches (r : EncRow) (w : Word) : Bool := (w &&& r.mask) == r.pattern

/-- The special rows of R134. -/
def encSpecial : List EncRow := [
  ⟨"SLL", 0x00000000#32, 0xFFE0003F#32⟩,
  ⟨"SRL", 0x00000002#32, 0xFFE0003F#32⟩,
  ⟨"SRA", 0x00000003#32, 0xFFE0003F#32⟩,
  ⟨"SLLV", 0x00000004#32, 0xFC0007FF#32⟩,
  ⟨"SRLV", 0x00000006#32, 0xFC0007FF#32⟩,
  ⟨"SRAV", 0x00000007#32, 0xFC0007FF#32⟩,
  ⟨"JR", 0x00000008#32, 0xFC1FFFFF#32⟩,
  ⟨"JALR", 0x00000009#32, 0xFC1F07FF#32⟩,
  ⟨"SYSCALL", 0x0000000C#32, 0xFC00003F#32⟩,
  ⟨"BREAK", 0x0000000D#32, 0xFC00003F#32⟩,
  ⟨"MFHI", 0x00000010#32, 0xFFFF07FF#32⟩,
  ⟨"MTHI", 0x00000011#32, 0xFC1FFFFF#32⟩,
  ⟨"MFLO", 0x00000012#32, 0xFFFF07FF#32⟩,
  ⟨"MTLO", 0x00000013#32, 0xFC1FFFFF#32⟩,
  ⟨"MULT", 0x00000018#32, 0xFC00FFFF#32⟩,
  ⟨"MULTU", 0x00000019#32, 0xFC00FFFF#32⟩,
  ⟨"DIV", 0x0000001A#32, 0xFC00FFFF#32⟩,
  ⟨"DIVU", 0x0000001B#32, 0xFC00FFFF#32⟩,
  ⟨"ADD", 0x00000020#32, 0xFC0007FF#32⟩,
  ⟨"ADDU", 0x00000021#32, 0xFC0007FF#32⟩,
  ⟨"SUB", 0x00000022#32, 0xFC0007FF#32⟩,
  ⟨"SUBU", 0x00000023#32, 0xFC0007FF#32⟩,
  ⟨"AND", 0x00000024#32, 0xFC0007FF#32⟩,
  ⟨"OR", 0x00000025#32, 0xFC0007FF#32⟩,
  ⟨"XOR", 0x00000026#32, 0xFC0007FF#32⟩,
  ⟨"NOR", 0x00000027#32, 0xFC0007FF#32⟩,
  ⟨"SLT", 0x0000002A#32, 0xFC0007FF#32⟩,
  ⟨"SLTU", 0x0000002B#32, 0xFC0007FF#32⟩]

/-- The REGIMM, jump, branch and immediate rows of R134. -/
def encImmediate : List EncRow := [
  ⟨"BLTZ", 0x04000000#32, 0xFC1F0000#32⟩,
  ⟨"BGEZ", 0x04010000#32, 0xFC1F0000#32⟩,
  ⟨"BLTZAL", 0x04100000#32, 0xFC1F0000#32⟩,
  ⟨"BGEZAL", 0x04110000#32, 0xFC1F0000#32⟩,
  ⟨"J", 0x08000000#32, 0xFC000000#32⟩,
  ⟨"JAL", 0x0C000000#32, 0xFC000000#32⟩,
  ⟨"BEQ", 0x10000000#32, 0xFC000000#32⟩,
  ⟨"BNE", 0x14000000#32, 0xFC000000#32⟩,
  ⟨"BLEZ", 0x18000000#32, 0xFC1F0000#32⟩,
  ⟨"BGTZ", 0x1C000000#32, 0xFC1F0000#32⟩,
  ⟨"ADDI", 0x20000000#32, 0xFC000000#32⟩,
  ⟨"ADDIU", 0x24000000#32, 0xFC000000#32⟩,
  ⟨"SLTI", 0x28000000#32, 0xFC000000#32⟩,
  ⟨"SLTIU", 0x2C000000#32, 0xFC000000#32⟩,
  ⟨"ANDI", 0x30000000#32, 0xFC000000#32⟩,
  ⟨"ORI", 0x34000000#32, 0xFC000000#32⟩,
  ⟨"XORI", 0x38000000#32, 0xFC000000#32⟩,
  ⟨"LUI", 0x3C000000#32, 0xFFE00000#32⟩]

/-- The coprocessor, load and store rows of R134. -/
def encMemory : List EncRow := [
  ⟨"MFC0", 0x40000000#32, 0xFFE007FF#32⟩,
  ⟨"MTC0", 0x40800000#32, 0xFFE007FF#32⟩,
  ⟨"RFE", 0x42000010#32, 0xFFFFFFFF#32⟩,
  ⟨"COP1", 0x44000000#32, 0xFC000000#32⟩,
  ⟨"COP2", 0x48000000#32, 0xFC000000#32⟩,
  ⟨"COP3", 0x4C000000#32, 0xFC000000#32⟩,
  ⟨"LB", 0x80000000#32, 0xFC000000#32⟩,
  ⟨"LH", 0x84000000#32, 0xFC000000#32⟩,
  ⟨"LWL", 0x88000000#32, 0xFC000000#32⟩,
  ⟨"LW", 0x8C000000#32, 0xFC000000#32⟩,
  ⟨"LBU", 0x90000000#32, 0xFC000000#32⟩,
  ⟨"LHU", 0x94000000#32, 0xFC000000#32⟩,
  ⟨"LWR", 0x98000000#32, 0xFC000000#32⟩,
  ⟨"SB", 0xA0000000#32, 0xFC000000#32⟩,
  ⟨"SH", 0xA4000000#32, 0xFC000000#32⟩,
  ⟨"SWL", 0xA8000000#32, 0xFC000000#32⟩,
  ⟨"SW", 0xAC000000#32, 0xFC000000#32⟩,
  ⟨"SWR", 0xB8000000#32, 0xFC000000#32⟩,
  ⟨"LWC1", 0xC4000000#32, 0xFC000000#32⟩,
  ⟨"LWC2", 0xC8000000#32, 0xFC000000#32⟩,
  ⟨"LWC3", 0xCC000000#32, 0xFC000000#32⟩,
  ⟨"SWC1", 0xE4000000#32, 0xFC000000#32⟩,
  ⟨"SWC2", 0xE8000000#32, 0xFC000000#32⟩,
  ⟨"SWC3", 0xEC000000#32, 0xFC000000#32⟩]

/-- The complete list of instructions (R134). -/
def encodingTable : List EncRow := encSpecial ++ encImmediate ++ encMemory

/-- The row a word belongs to, if it is an instruction. -/
def rowOf (w : Word) : Option EncRow := encodingTable.find? (·.matches w)

/-- Strict well-formedness of a word (R135): it matches a row with every must-be-zero field equal to zero. -/
def wordWellFormed (w : Word) : Bool := encodingTable.any (·.matches w)

/-- The mnemonic of an instruction's row in R134. -/
def Instr.mnemonic : Instr → String
  | .sll _ _ _ => "SLL"
  | .srl _ _ _ => "SRL"
  | .sra _ _ _ => "SRA"
  | .sllv _ _ _ => "SLLV"
  | .srlv _ _ _ => "SRLV"
  | .srav _ _ _ => "SRAV"
  | .jr _ => "JR"
  | .jalr _ _ => "JALR"
  | .syscall _ => "SYSCALL"
  | .brk _ => "BREAK"
  | .mfhi _ => "MFHI"
  | .mthi _ => "MTHI"
  | .mflo _ => "MFLO"
  | .mtlo _ => "MTLO"
  | .mult _ _ => "MULT"
  | .multu _ _ => "MULTU"
  | .div _ _ => "DIV"
  | .divu _ _ => "DIVU"
  | .add _ _ _ => "ADD"
  | .addu _ _ _ => "ADDU"
  | .sub _ _ _ => "SUB"
  | .subu _ _ _ => "SUBU"
  | .and _ _ _ => "AND"
  | .or _ _ _ => "OR"
  | .xor _ _ _ => "XOR"
  | .nor _ _ _ => "NOR"
  | .slt _ _ _ => "SLT"
  | .sltu _ _ _ => "SLTU"
  | .bltz _ _ => "BLTZ"
  | .bgez _ _ => "BGEZ"
  | .bltzal _ _ => "BLTZAL"
  | .bgezal _ _ => "BGEZAL"
  | .j _ => "J"
  | .jal _ => "JAL"
  | .beq _ _ _ => "BEQ"
  | .bne _ _ _ => "BNE"
  | .blez _ _ => "BLEZ"
  | .bgtz _ _ => "BGTZ"
  | .addi _ _ _ => "ADDI"
  | .addiu _ _ _ => "ADDIU"
  | .slti _ _ _ => "SLTI"
  | .sltiu _ _ _ => "SLTIU"
  | .andi _ _ _ => "ANDI"
  | .ori _ _ _ => "ORI"
  | .xori _ _ _ => "XORI"
  | .lui _ _ => "LUI"
  | .mfc0 _ _ => "MFC0"
  | .mtc0 _ _ => "MTC0"
  | .rfe => "RFE"
  | .cop1 _ => "COP1"
  | .cop2 _ => "COP2"
  | .cop3 _ => "COP3"
  | .lb _ _ _ => "LB"
  | .lh _ _ _ => "LH"
  | .lwl _ _ _ => "LWL"
  | .lw _ _ _ => "LW"
  | .lbu _ _ _ => "LBU"
  | .lhu _ _ _ => "LHU"
  | .lwr _ _ _ => "LWR"
  | .sb _ _ _ => "SB"
  | .sh _ _ _ => "SH"
  | .swl _ _ _ => "SWL"
  | .sw _ _ _ => "SW"
  | .swr _ _ _ => "SWR"
  | .lwc1 _ => "LWC1"
  | .lwc2 _ => "LWC2"
  | .lwc3 _ => "LWC3"
  | .swc1 _ => "SWC1"
  | .swc2 _ => "SWC2"
  | .swc3 _ => "SWC3"

end Sys2Proof
end

