-- ==== Sys2Proof/Certificates/Slice0/Obligations.lean ====
section
/-! DEFINITION. The statements for the provers. Each quantifies over every state its hypotheses allow, reachable or
not. -/

open Sys2Proof Sys2Proof.Machine

/-! ## Encoding -/

/-- 30_encoding.md R134: every instruction, with every operand, decodes from its own word. -/
def Obligations.DecodeInvertsEncode : Prop := ∀ i : Instr, decode (encode i) = .ok i

/-- 30_encoding.md R135: the decoder reads every bit: a word that decodes to an instruction is that instruction's word,
so no two words decode to one instruction. -/
def Obligations.EncodeInvertsDecode : Prop := ∀ (w : Word) (i : Instr), decode w = .ok i → encode i = w

/-- 30_encoding.md R134, R135: the decoder, written by fields, accepts exactly the words of the match/mask table, as the
instruction of the row; and a word matches at most one row. -/
def Obligations.DecodeAcceptsExactlyTheTable : Prop :=
  (∀ (w : Word) (i : Instr), decode w = .ok i → ∃ r ∈ encodingTable, r.matches w = true ∧ r.mnemonic = i.mnemonic) ∧
  (∀ (w : Word) (e : DecodeError), decode w = .error e → wordWellFormed w = false) ∧
  (∀ (w : Word) (r q : EncRow), r ∈ encodingTable → q ∈ encodingTable → r.matches w = true → q.matches w = true → r = q)

/-- Words taken from the worked examples of 40_alu.md to 44_coprocessor_system.md decode as those rules say. -/
def Obligations.WorkedExampleWordsDecode : Prop :=
  decode 0x00084900#32 = .ok (.sll 9 8 4) ∧ decode 0x01285004#32 = .ok (.sllv 10 8 9) ∧
  decode 0x2109FFFF#32 = .ok (.addi 9 8 0xFFFF#16) ∧ decode 0x3C0A8000#32 = .ok (.lui 10 0x8000#16) ∧
  decode 0x012E001A#32 = .ok (.div 9 14) ∧ decode 0x0000C010#32 = .ok (.mfhi 24) ∧
  decode 0x8D4B0100#32 = .ok (.lw 11 10 0x0100#16) ∧ decode 0xB8890002#32 = .ok (.swr 9 4 0x0002#16) ∧
  decode 0x0BF00012#32 = .ok (.j 0x3F00012#26) ∧ decode 0x01001009#32 = .ok (.jalr 2 8) ∧
  decode 0x05100004#32 = .ok (.bltzal 8 0x0004#16) ∧ decode 0x401A7000#32 = .ok (.mfc0 26 14) ∧
  decode 0x42000010#32 = .ok .rfe ∧ decode 0xC8000000#32 = .ok (.lwc2 0)

/-! ## The cycle -/

/-- 70_reset_and_hazards.md R451, R452: when no interrupt is due and the bytes at `pc` are an instruction's, the step is
that instruction's effect, then the end of the cycle (`DmaStep` and the tick's count). -/
def Obligations.StepRunsDecodedInstruction : Prop :=
  ∀ (s : State) (r : Region) (p : Nat) (i : Instr), FetchesFrom s r p →
    decodeBytes [s.bus.mem.read p, s.bus.mem.read (p + 1), s.bus.mem.read (p + 2), s.bus.mem.read (p + 3)]
      = .ok (i, []) →
    step s = match exec i s with
      | .next t => .next t.endCycle
      | .fault f => .fault f
      | .refused f => .refused f

/-- 30_encoding.md R135, 44_coprocessor_system.md R253, R254: a fetched word that matches no row raises RI, but CpU(0) if
its opcode is 0x10 in user mode with CU0 = 0. -/
def Obligations.ReservedWordsTrap : Prop :=
  ∀ (s : State) (r : Region) (p : Nat), FetchesFrom s r p → wordWellFormed (s.bus.mem.readWord p) = false →
    ∃ t, TrapTaken s t
        (if opField (s.bus.mem.readWord p) = 0x10#6 ∧ s.sr.getLsbD 1 = true ∧ s.sr.getLsbD 28 = false then .cpu 0
         else .ri) ∧
      step s = .next t.endCycle

/-- 60_exceptions.md R304, R305: an address that is not permitted or not aligned raises AdEL at the fetch; an aligned,
permitted one outside the five regions raises IBE. -/
def Obligations.FetchTraps : Prop :=
  ∀ s : State, s.interruptRequested = false →
    ((s.sr.getLsbD 1 = true ∧ s.pc.msb = true) ∨ s.pc.toNat % 4 ≠ 0 →
      ∃ t, TrapTaken s t (.adel s.pc) ∧ step s = .next t.endCycle) ∧
    (¬(s.sr.getLsbD 1 = true ∧ s.pc.msb = true) → s.pc.toNat % 4 = 0 → (∀ r p, targetOf s.cfg s.pc ≠ .region r p) →
      ∃ t, TrapTaken s t .ibe ∧ step s = .next t.endCycle)

/-- 60_exceptions.md R301, R315: when an interrupt is due the cycle takes it, whatever stands at `pc`; and the model's
test is the condition of the rule. -/
def Obligations.InterruptsAreTakenFirst : Prop :=
  (∀ s : State, s.interruptRequested = true ↔ InterruptDue s) ∧
  (∀ s : State, InterruptDue s → ∃ t, TrapTaken s t .int ∧ step s = .next t.endCycle)

/-- 60_exceptions.md R320: trap entry, for every exception and every state; and the exception codes of R300. -/
def Obligations.TrapEntry : Prop :=
  (∀ (s : State) (e : Exc), TrapTaken s (s.raise e) e) ∧
  (∀ (a : Word) (z : BitVec 2), Exc.code .int = 0#5 ∧ Exc.code (.adel a) = 4#5 ∧ Exc.code (.ades a) = 5#5 ∧
    Exc.code .ibe = 6#5 ∧ Exc.code .dbe = 7#5 ∧ Exc.code .sys = 8#5 ∧ Exc.code .bp = 9#5 ∧ Exc.code .ri = 10#5 ∧
    Exc.code (.cpu z) = 11#5 ∧ Exc.code .ov = 12#5)

/-- 60_exceptions.md R333, 70_reset_and_hazards.md R468: every cycle is a next state, from every state, and so is every
instruction: the machine has no stop. -/
def Obligations.EveryStepHasANextState : Prop :=
  (∀ s : State, ∃ t, step s = .next t) ∧ ∀ (i : Instr) (s : State), ∃ t, exec i s = .next t

/-- 10_state.md R30, R34, 60_exceptions.md R316: every instruction either takes an exception, and then has no other
effect, or moves `pc` by `pcdelta`, commits the pending load, and writes no general register but its own destination.
Only a branch or jump ends in front of a delay slot. -/
def Obligations.EveryInstructionRetiresOrTraps : Prop :=
  ∀ (i : Instr) (s t : State), exec i s = .next t →
    (∃ e, TrapTaken s t e) ∨
    (t.pc = s.pc + s.pcdelta ∧ (∀ r, destOf i ≠ some r → t.reg r = s.committed r) ∧ t.inSlot = isBranch i ∧
      (isBranch i = false → t.pcdelta = 4#32) ∧ SameHost s t)

/-- 60_exceptions.md R337, 44_coprocessor_system.md R253, R261: the system control bank and the fault latches are changed
by taking an exception, or by MTC0 or RFE where COP0 is usable, and by nothing else; so user code without CU0 changes
them only by a trap. -/
def Obligations.ControlRegistersAreGuarded : Prop :=
  ∀ (i : Instr) (s t : State), exec i s = .next t →
    (∃ e, TrapTaken s t e) ∨ SameControl s t ∨
    ((s.sr.getLsbD 1 = false ∨ s.sr.getLsbD 28 = true) ∧ (i = .rfe ∨ ∃ rt slot, i = .mtc0 rt slot) ∧
      t.faultCause = s.faultCause ∧ t.faultPc = s.faultPc)

/-! ## Reset -/

/-- 10_state.md R56, for every configuration: the value of every field after reset, `rom` apart; then, with a complete
image and the flag preloaded by the host (70_reset_and_hazards.md R462, R465), `rom` holds the image byte by byte and
nothing else has changed, and, if the reset vector names the ROM's first word, the first fetch reads the image's first
word, little-endian. The configuration of `State.reset` has every value of the table of 00_scope.md R7 but the tick's
budget, of which the spec gives none (log 3). -/
def Obligations.ResetState : Prop :=
  (∀ cfg : Config.Params,
    let s := State.resetWith cfg
    let g := s.bus.gpu
    (s.cfg = cfg ∧ s.pc = cfg.resetVector ∧ s.pcdelta = 4#32 ∧ s.inSlot = false ∧ (∀ r, s.regs.get r = 0#32) ∧
      s.hi = 0#32 ∧ s.lo = 0#32 ∧ s.ld = ⟨0, 0#32, .none⟩ ∧ s.faultCause = 0#32 ∧ s.faultPc = 0#32 ∧
      (∀ i, s.slot i = if i = 12 then 0x00400000#32 else 0#32) ∧ s.comms = 0#32) ∧
    (s.bus.ic = ⟨0#32, 0#32⟩ ∧ (∀ n, s.bus.dma.channel n = ⟨0#32, 0#32, 0#32, 0#32, 0#32, .idle⟩) ∧
      s.bus.dma.dpcr = 0#32 ∧ s.bus.dma.flag = 0#8 ∧ s.bus.dma.en = 0#8 ∧ s.bus.dma.master = false ∧
      s.bus.dma.enabled = false) ∧
    (g.fifo.length = cfg.gpuFifoDepth ∧ (∀ w ∈ g.fifo, w = 0#32) ∧ g.fifoRd = 0 ∧ g.fifoWr = 0 ∧ g.line = 0#32 ∧
      g.pkt.length = cfg.gpuPktMax ∧ (∀ w ∈ g.pkt, w = 0#32) ∧ g.pktLen = 0 ∧ g.pktNeed = 0 ∧ g.xferMode = .none ∧
      g.xferX = 0 ∧ g.xferY = 0 ∧ g.xferW = 0 ∧ g.xferH = 0 ∧ g.xferI = 0 ∧ g.drawMode = 0#11 ∧ g.texWindow = 0#20 ∧
      g.clipX1 = 0#10 ∧ g.clipY1 = 0#10 ∧ g.clipX2 = 0#10 ∧ g.clipY2 = 0#10 ∧ g.offX = 0#11 ∧ g.offY = 0#11 ∧
      g.maskSet = false ∧ g.maskCheck = false ∧ g.status = 0x04000000#32) ∧
    (∀ a, regionOf cfg a ≠ some .rom → s.bus.mem.read a = 0#8)) ∧
  (∀ (cfg : Config.Params) (image : List Byte) (flag : Word), ConfigOk cfg → BootReady image flag →
    let s := (State.resetWith cfg).hostPreload image flag
    (∀ k, k < 0x80000 → s.bus.mem.read (cfg.romBase + k) = image.getD k 0#8) ∧
    (∀ a, regionOf cfg a ≠ some .rom → s.bus.mem.read a = 0#8) ∧ s.comms = flag ∧
    (physOf cfg.resetVector = some cfg.romBase →
      s.fetch = .ok (image.getD 3 0#8 ++ image.getD 2 0#8 ++ image.getD 1 0#8 ++ image.getD 0 0#8))) ∧
  (let c := State.reset.cfg
  State.reset = State.resetWith c ∧
    (c.wramBase = 0x00000000 ∧ c.wramSize = 0x00200000 ∧ c.auxBase = 0x1F000000 ∧ c.auxSize = 0x00010000 ∧
      c.spadBase = 0x1F800000 ∧ c.spadSize = 0x00000400 ∧ c.vramBase = 0x1E000000 ∧ c.vramWidth = 1024 ∧
      c.vramHeight = 512 ∧ c.vramSize = 0x00200000 ∧ c.romBase = 0x1FC00000 ∧ c.icBase = 0x1F801070 ∧
      c.dmaBase = 0x1F801080 ∧ c.gpuBase = 0x1F801810) ∧
    c.resetVector = 0xBFC00000#32 ∧ c.vecRam = 0x80000080#32 ∧ c.vecRom = 0xBFC00180#32 ∧ c.pridValue = 0x00000002#32 ∧
    c.irqVblank = 0 ∧ c.irqDma = 3 ∧ c.gpuFifoDepth = 16 ∧ c.gpuPktMax = 12 ∧ c.lineCount = 263 ∧
    physOf c.resetVector = some c.romBase)

/-! ## Arithmetic and logic -/

/-- 40_alu.md R155, R157, R171: ADDU, SUBU and ADDIU compute modulo 2^32 and never trap. -/
def Obligations.ModularArithmetic : Prop :=
  ∀ (s : State) (rd rs rt : RegIdx) (imm : BitVec 16),
    (∃ t v, exec (.addu rd rs rt) s = .next t ∧ WritesOnly s t (some (rd, v)) ∧
      v.toNat = ((s.reg rs).toNat + (s.reg rt).toNat) % 2 ^ 32) ∧
    (∃ t v, exec (.subu rd rs rt) s = .next t ∧ WritesOnly s t (some (rd, v)) ∧
      (v.toNat : Int) = ((s.reg rs).toNat - (s.reg rt).toNat : Int) % 2 ^ 32) ∧
    (∃ t v, exec (.addiu rt rs imm) s = .next t ∧ WritesOnly s t (some (rt, v)) ∧
      (v.toNat : Int) = ((s.reg rs).toNat + imm.toInt) % 2 ^ 32)

/-- 40_alu.md R151, R154, R156, R170: where the exact signed result fits in 32 bits, ADD, SUB and ADDI write it. -/
def Obligations.TrappingArithmeticWritesExactResult : Prop :=
  ∀ (s : State) (rd rs rt : RegIdx) (imm : BitVec 16),
    (-2 ^ 31 ≤ (s.reg rs).toInt + (s.reg rt).toInt → (s.reg rs).toInt + (s.reg rt).toInt < 2 ^ 31 →
      ∃ t v, exec (.add rd rs rt) s = .next t ∧ WritesOnly s t (some (rd, v)) ∧
        v.toInt = (s.reg rs).toInt + (s.reg rt).toInt) ∧
    (-2 ^ 31 ≤ (s.reg rs).toInt - (s.reg rt).toInt → (s.reg rs).toInt - (s.reg rt).toInt < 2 ^ 31 →
      ∃ t v, exec (.sub rd rs rt) s = .next t ∧ WritesOnly s t (some (rd, v)) ∧
        v.toInt = (s.reg rs).toInt - (s.reg rt).toInt) ∧
    (-2 ^ 31 ≤ (s.reg rs).toInt + imm.toInt → (s.reg rs).toInt + imm.toInt < 2 ^ 31 →
      ∃ t v, exec (.addi rt rs imm) s = .next t ∧ WritesOnly s t (some (rt, v)) ∧
        v.toInt = (s.reg rs).toInt + imm.toInt)

/-- 60_exceptions.md R309: where the exact signed result does not fit in 32 bits, ADD, SUB and ADDI raise Ov and the
destination is not written. -/
def Obligations.ArithmeticOverflowTraps : Prop :=
  ∀ (s : State) (rd rs rt : RegIdx) (imm : BitVec 16),
    ((s.reg rs).toInt + (s.reg rt).toInt < -2 ^ 31 ∨ 2 ^ 31 ≤ (s.reg rs).toInt + (s.reg rt).toInt →
      Raises (.add rd rs rt) s .ov) ∧
    ((s.reg rs).toInt - (s.reg rt).toInt < -2 ^ 31 ∨ 2 ^ 31 ≤ (s.reg rs).toInt - (s.reg rt).toInt →
      Raises (.sub rd rs rt) s .ov) ∧
    ((s.reg rs).toInt + imm.toInt < -2 ^ 31 ∨ 2 ^ 31 ≤ (s.reg rs).toInt + imm.toInt →
      Raises (.addi rt rs imm) s .ov)

/-- 40_alu.md R158 to R161 and R174 to R177: the bitwise instructions and LUI, bit by bit; the immediate is
zero-extended. -/
def Obligations.BitwiseLogic : Prop :=
  ∀ (s : State) (rd rs rt : RegIdx) (imm : BitVec 16),
    (∃ t v, exec (.and rd rs rt) s = .next t ∧ WritesOnly s t (some (rd, v)) ∧
      ∀ k, k < 32 → v.getLsbD k = ((s.reg rs).getLsbD k && (s.reg rt).getLsbD k)) ∧
    (∃ t v, exec (.or rd rs rt) s = .next t ∧ WritesOnly s t (some (rd, v)) ∧
      ∀ k, k < 32 → v.getLsbD k = ((s.reg rs).getLsbD k || (s.reg rt).getLsbD k)) ∧
    (∃ t v, exec (.xor rd rs rt) s = .next t ∧ WritesOnly s t (some (rd, v)) ∧
      ∀ k, k < 32 → v.getLsbD k = ((s.reg rs).getLsbD k != (s.reg rt).getLsbD k)) ∧
    (∃ t v, exec (.nor rd rs rt) s = .next t ∧ WritesOnly s t (some (rd, v)) ∧
      ∀ k, k < 32 → v.getLsbD k = !((s.reg rs).getLsbD k || (s.reg rt).getLsbD k)) ∧
    (∃ t v, exec (.andi rt rs imm) s = .next t ∧ WritesOnly s t (some (rt, v)) ∧
      ∀ k, k < 32 → v.getLsbD k = (if k < 16 then (s.reg rs).getLsbD k && imm.getLsbD k else false)) ∧
    (∃ t v, exec (.ori rt rs imm) s = .next t ∧ WritesOnly s t (some (rt, v)) ∧
      ∀ k, k < 32 → v.getLsbD k = (if k < 16 then (s.reg rs).getLsbD k || imm.getLsbD k else (s.reg rs).getLsbD k)) ∧
    (∃ t v, exec (.xori rt rs imm) s = .next t ∧ WritesOnly s t (some (rt, v)) ∧
      ∀ k, k < 32 → v.getLsbD k = (if k < 16 then (s.reg rs).getLsbD k != imm.getLsbD k else (s.reg rs).getLsbD k)) ∧
    (∃ t v, exec (.lui rt imm) s = .next t ∧ WritesOnly s t (some (rt, v)) ∧
      ∀ k, k < 32 → v.getLsbD k = (if k < 16 then false else imm.getLsbD (k - 16)))

/-- 40_alu.md R164 to R169, 30_encoding.md R128: shifts as multiplication and division by a power of two; a register
amount counts modulo 32; the arithmetic shift is the floor of the signed quotient. -/
def Obligations.Shifts : Prop :=
  ∀ (s : State) (rd rt rs : RegIdx) (sh : BitVec 5),
    (∃ t v, exec (.sll rd rt sh) s = .next t ∧ WritesOnly s t (some (rd, v)) ∧
      v.toNat = (s.reg rt).toNat * 2 ^ sh.toNat % 2 ^ 32) ∧
    (∃ t v, exec (.srl rd rt sh) s = .next t ∧ WritesOnly s t (some (rd, v)) ∧
      v.toNat = (s.reg rt).toNat / 2 ^ sh.toNat) ∧
    (∃ t v, exec (.sra rd rt sh) s = .next t ∧ WritesOnly s t (some (rd, v)) ∧
      v.toInt = (s.reg rt).toInt / 2 ^ sh.toNat) ∧
    (∃ t v, exec (.sllv rd rt rs) s = .next t ∧ WritesOnly s t (some (rd, v)) ∧
      v.toNat = (s.reg rt).toNat * 2 ^ ((s.reg rs).toNat % 32) % 2 ^ 32) ∧
    (∃ t v, exec (.srlv rd rt rs) s = .next t ∧ WritesOnly s t (some (rd, v)) ∧
      v.toNat = (s.reg rt).toNat / 2 ^ ((s.reg rs).toNat % 32)) ∧
    (∃ t v, exec (.srav rd rt rs) s = .next t ∧ WritesOnly s t (some (rd, v)) ∧
      v.toInt = (s.reg rt).toInt / 2 ^ ((s.reg rs).toNat % 32))

/-- 40_alu.md R162, R163, R172, R173: the comparisons write exactly 0 or 1; SLTIU sign-extends its immediate and compares
unsigned. -/
def Obligations.Comparisons : Prop :=
  ∀ (s : State) (rd rs rt : RegIdx) (imm : BitVec 16),
    (∃ t, exec (.slt rd rs rt) s = .next t ∧
      WritesOnly s t (some (rd, if (s.reg rs).toInt < (s.reg rt).toInt then 1#32 else 0#32))) ∧
    (∃ t, exec (.sltu rd rs rt) s = .next t ∧
      WritesOnly s t (some (rd, if (s.reg rs).toNat < (s.reg rt).toNat then 1#32 else 0#32))) ∧
    (∃ t, exec (.slti rt rs imm) s = .next t ∧
      WritesOnly s t (some (rt, if (s.reg rs).toInt < imm.toInt then 1#32 else 0#32))) ∧
    (∃ t, exec (.sltiu rt rs imm) s = .next t ∧
      WritesOnly s t (some (rt,
        if (s.reg rs).toNat < (if imm.toNat < 0x8000 then imm.toNat else imm.toNat + 0xFFFF0000)
        then 1#32 else 0#32)))

/-! ## Multiply and divide -/

/-- 41_muldiv.md R190, R191: `hi` and `lo` together are the exact 64-bit product. -/
def Obligations.ProductsAreExact : Prop :=
  ∀ (s : State) (rs rt : RegIdx),
    (∃ t, exec (.mult rs rt) s = .next t ∧ WritesOnlyHiLo s t ∧
      (t.hi ++ t.lo : BitVec 64).toInt = (s.reg rs).toInt * (s.reg rt).toInt) ∧
    (∃ t, exec (.multu rs rt) s = .next t ∧ WritesOnlyHiLo s t ∧
      (t.hi ++ t.lo : BitVec 64).toNat = (s.reg rs).toNat * (s.reg rt).toNat)

/-- 41_muldiv.md R199: the division table, every row, for every operand pair. -/
def Obligations.DivisionTable : Prop :=
  ∀ (s : State) (rs rt : RegIdx),
    (∃ t, exec (.div rs rt) s = .next t ∧ WritesOnlyHiLo s t ∧
      (s.reg rt ≠ 0#32 → ¬(s.reg rs = 0x80000000#32 ∧ s.reg rt = 0xFFFFFFFF#32) →
        t.lo.toInt = (s.reg rs).toInt.tdiv (s.reg rt).toInt ∧
        t.hi.toInt = (s.reg rs).toInt - t.lo.toInt * (s.reg rt).toInt ∧
        (t.hi.toInt = 0 ∨ (t.hi.toInt < 0 ↔ (s.reg rs).toInt < 0))) ∧
      (s.reg rt = 0#32 → 0 ≤ (s.reg rs).toInt → t.lo = 0xFFFFFFFF#32 ∧ t.hi = s.reg rs) ∧
      (s.reg rt = 0#32 → (s.reg rs).toInt < 0 → t.lo = 0x00000001#32 ∧ t.hi = s.reg rs) ∧
      (s.reg rs = 0x80000000#32 → s.reg rt = 0xFFFFFFFF#32 → t.lo = 0x80000000#32 ∧ t.hi = 0#32)) ∧
    (∃ t, exec (.divu rs rt) s = .next t ∧ WritesOnlyHiLo s t ∧
      (s.reg rt ≠ 0#32 → t.lo.toNat = (s.reg rs).toNat / (s.reg rt).toNat ∧
        t.hi.toNat = (s.reg rs).toNat % (s.reg rt).toNat) ∧
      (s.reg rt = 0#32 → t.lo = 0xFFFFFFFF#32 ∧ t.hi = s.reg rs))

/-- 41_muldiv.md R194 to R197: the moves between HI, LO and the general registers; a move to one leaves the other. -/
def Obligations.HiLoMoves : Prop :=
  ∀ (s : State) (r : RegIdx),
    (∃ t, exec (.mfhi r) s = .next t ∧ WritesOnly s t (some (r, s.hi))) ∧
    (∃ t, exec (.mflo r) s = .next t ∧ WritesOnly s t (some (r, s.lo))) ∧
    (∃ t, exec (.mthi r) s = .next t ∧ WritesOnlyHiLo s t ∧ t.hi = s.reg r ∧ t.lo = s.lo) ∧
    (∃ t, exec (.mtlo r) s = .next t ∧ WritesOnlyHiLo s t ∧ t.lo = s.reg r ∧ t.hi = s.hi)

/-- 41_muldiv.md R198: a step changes HI or LO only by running one of the six instructions that write them, with no
interrupt taken in front of it. -/
def Obligations.HiLoHaveSixWriters : Prop :=
  ∀ s t : State, step s = .next t → (t.hi ≠ s.hi ∨ t.lo ≠ s.lo) →
    s.interruptRequested = false ∧ ∃ w i, s.fetch = .ok w ∧ decode w = .ok i ∧ writesHiLo i = true

/-! ## Loads -/

/-- 42_loadstore.md R200 to R206, 20_memory.md R72, R73: a load from a region puts the little-endian bytes at the
effective address, extended, into the load-delay slot, and changes nothing else. -/
def Obligations.LoadsFromMemory : Prop :=
  ∀ (s : State) (rt rs : RegIdx) (imm : BitVec 16) (r : Region) (p : Nat),
    segmentViolation s.userMode (s.effAddr rs imm) = false → targetOf s.cfg (alignWord (s.effAddr rs imm)) = .region r p →
    let q := p + laneOf (s.effAddr rs imm)
    (∃ t, exec (.lb rt rs imm) s = .next t ∧ SameDevices s t ∧
      LoadsInto s t rt ((s.bus.mem.read q).signExtend 32) .mem) ∧
    (∃ t, exec (.lbu rt rs imm) s = .next t ∧ SameDevices s t ∧
      LoadsInto s t rt ((s.bus.mem.read q).setWidth 32) .mem) ∧
    ((s.effAddr rs imm).toNat % 2 = 0 →
      (∃ t, exec (.lh rt rs imm) s = .next t ∧ SameDevices s t ∧
        LoadsInto s t rt ((s.bus.mem.read (q + 1) ++ s.bus.mem.read q : BitVec 16).signExtend 32) .mem) ∧
      (∃ t, exec (.lhu rt rs imm) s = .next t ∧ SameDevices s t ∧
        LoadsInto s t rt ((s.bus.mem.read (q + 1) ++ s.bus.mem.read q : BitVec 16).setWidth 32) .mem)) ∧
    ((s.effAddr rs imm).toNat % 4 = 0 →
      ∃ t, exec (.lw rt rs imm) s = .next t ∧ SameDevices s t ∧
        LoadsInto s t rt
          (s.bus.mem.read (q + 3) ++ s.bus.mem.read (q + 2) ++ s.bus.mem.read (q + 1) ++ s.bus.mem.read q) .mem)

/-- 42_loadstore.md R207 to R209: LWL and LWR from a region, byte by byte: the bytes the tables replace come from memory,
the others from the register as the pending load leaves it (the merge base). -/
def Obligations.UnalignedLoads : Prop :=
  ∀ (s : State) (rt rs : RegIdx) (imm : BitVec 16) (r : Region) (p : Nat),
    segmentViolation s.userMode (s.effAddr rs imm) = false → targetOf s.cfg (alignWord (s.effAddr rs imm)) = .region r p →
    let k := laneOf (s.effAddr rs imm)
    (∃ t v, exec (.lwl rt rs imm) s = .next t ∧ SameDevices s t ∧ LoadsInto s t rt v .mem ∧
      ∀ j, j < 4 → v.extractLsb' (8 * j) 8 =
        if 3 ≤ k + j then s.bus.mem.read (p + (k + j - 3)) else (s.committed rt).extractLsb' (8 * j) 8) ∧
    (∃ t v, exec (.lwr rt rs imm) s = .next t ∧ SameDevices s t ∧ LoadsInto s t rt v .mem ∧
      ∀ j, j < 4 → v.extractLsb' (8 * j) 8 =
        if k + j ≤ 3 then s.bus.mem.read (p + (k + j)) else (s.committed rt).extractLsb' (8 * j) 8)

/-- 42_loadstore.md R207, R209: LWR at an address, then LWL three bytes on, back to back, load the unaligned word there. -/
def Obligations.UnalignedLoadPairAssemblesTheWord : Prop :=
  ∀ (s : State) (rt rs : RegIdx) (imm : BitVec 16) (r : Region) (p : Nat), ConfigOk s.cfg →
    rt ≠ 0 → (s.ld.kind = .none ∨ s.ld.reg ≠ rs) → sext16 (imm + 3#16) = sext16 imm + 3#32 →
    segmentViolation s.userMode (s.effAddr rs imm) = false →
    segmentViolation s.userMode (s.effAddr rs imm + 3#32) = false →
    targetOf s.cfg (s.effAddr rs imm) = .region r p → targetOf s.cfg (s.effAddr rs imm + 3#32) = .region r (p + 3) →
    ∃ t u, exec (.lwr rt rs imm) s = .next t ∧ exec (.lwl rt rs (imm + 3#16)) t = .next u ∧
      u.ld = ⟨rt, s.bus.mem.read (p + 3) ++ s.bus.mem.read (p + 2) ++ s.bus.mem.read (p + 1) ++ s.bus.mem.read p, .mem⟩

/-- 42_loadstore.md R216, 60_exceptions.md R302, R306: the exceptions of the loads and the order they are tested in. -/
def Obligations.LoadTraps : Prop :=
  ∀ (s : State) (rt rs : RegIdx) (imm : BitVec 16),
    let ea := s.effAddr rs imm
    (s.sr.getLsbD 1 = true → ea.msb = true →
      Raises (.lb rt rs imm) s (.adel ea) ∧ Raises (.lbu rt rs imm) s (.adel ea) ∧ Raises (.lh rt rs imm) s (.adel ea) ∧
      Raises (.lhu rt rs imm) s (.adel ea) ∧ Raises (.lw rt rs imm) s (.adel ea) ∧
      Raises (.lwl rt rs imm) s (.adel ea) ∧ Raises (.lwr rt rs imm) s (.adel ea)) ∧
    (ea.toNat % 2 ≠ 0 → Raises (.lh rt rs imm) s (.adel ea) ∧ Raises (.lhu rt rs imm) s (.adel ea)) ∧
    (ea.toNat % 4 ≠ 0 → Raises (.lw rt rs imm) s (.adel ea)) ∧
    (¬(s.sr.getLsbD 1 = true ∧ ea.msb = true) → targetOf s.cfg (alignWord ea) = .unmapped →
      Raises (.lb rt rs imm) s .dbe ∧ Raises (.lbu rt rs imm) s .dbe ∧ Raises (.lwl rt rs imm) s .dbe ∧
      Raises (.lwr rt rs imm) s .dbe ∧
      (ea.toNat % 2 = 0 → Raises (.lh rt rs imm) s .dbe ∧ Raises (.lhu rt rs imm) s .dbe) ∧
      (ea.toNat % 4 = 0 → Raises (.lw rt rs imm) s .dbe))

/-- 20_memory.md R92, R93, 42_loadstore.md R207, R208: a load from a device register reads the register's word once and
loads the addressed lanes of it, LWL and LWR into the bytes their tables name, over the register as the pending load
leaves it; only a read of the GPU's DATA port changes anything. -/
def Obligations.LoadsFromDevices : Prop :=
  (∀ (s : State) (rt rs : RegIdx) (imm : BitVec 16) (reg : DeviceReg),
    segmentViolation s.userMode (s.effAddr rs imm) = false →
    targetOf s.cfg (alignWord (s.effAddr rs imm)) = .device reg →
    let k := laneOf (s.effAddr rs imm)
    let w := (deviceRead s.cfg s.bus reg).1
    let b := (deviceRead s.cfg s.bus reg).2
    (∃ t, exec (.lb rt rs imm) s = .next t ∧ t.bus = b ∧
      LoadsInto s t rt ((w.extractLsb' (8 * k) 8).signExtend 32) .mem) ∧
    (∃ t, exec (.lbu rt rs imm) s = .next t ∧ t.bus = b ∧
      LoadsInto s t rt ((w.extractLsb' (8 * k) 8).setWidth 32) .mem) ∧
    ((s.effAddr rs imm).toNat % 2 = 0 →
      (∃ t, exec (.lh rt rs imm) s = .next t ∧ t.bus = b ∧
        LoadsInto s t rt ((w.extractLsb' (8 * k) 16).signExtend 32) .mem) ∧
      (∃ t, exec (.lhu rt rs imm) s = .next t ∧ t.bus = b ∧
        LoadsInto s t rt ((w.extractLsb' (8 * k) 16).setWidth 32) .mem)) ∧
    ((s.effAddr rs imm).toNat % 4 = 0 → ∃ t, exec (.lw rt rs imm) s = .next t ∧ t.bus = b ∧ LoadsInto s t rt w .mem) ∧
    (∃ t v, exec (.lwl rt rs imm) s = .next t ∧ t.bus = b ∧ LoadsInto s t rt v .mem ∧
      ∀ j, j < 4 → v.extractLsb' (8 * j) 8 =
        if 3 ≤ k + j then w.extractLsb' (8 * (k + j - 3)) 8 else (s.committed rt).extractLsb' (8 * j) 8) ∧
    (∃ t v, exec (.lwr rt rs imm) s = .next t ∧ t.bus = b ∧ LoadsInto s t rt v .mem ∧
      ∀ j, j < 4 → v.extractLsb' (8 * j) 8 =
        if k + j ≤ 3 then w.extractLsb' (8 * (k + j)) 8 else (s.committed rt).extractLsb' (8 * j) 8)) ∧
  (∀ (cfg : Config.Params) (b : Bus) (reg : DeviceReg), reg ≠ .gpuData → (deviceRead cfg b reg).2 = b)

/-! ## Stores -/

/-- 42_loadstore.md R210 to R213, 20_memory.md R96, R97: a store to a region other than rom writes the low bytes of the
register, little-endian, at the effective address, and every other byte of memory is unchanged. -/
def Obligations.StoresToMemory : Prop :=
  ∀ (s : State) (rt rs : RegIdx) (imm : BitVec 16) (r : Region) (p : Nat),
    segmentViolation s.userMode (s.effAddr rs imm) = false →
    targetOf s.cfg (alignWord (s.effAddr rs imm)) = .region r p → r ≠ .rom →
    let q := p + laneOf (s.effAddr rs imm)
    let stored (n a : Nat) : Byte :=
      if q ≤ a ∧ a < q + n then (s.reg rt).extractLsb' (8 * (a - q)) 8 else s.bus.mem.read a
    (∃ t, exec (.sb rt rs imm) s = .next t ∧ StoresToBus s t ∧ SameDevices s t ∧
      ∀ a, t.bus.mem.read a = stored 1 a) ∧
    ((s.effAddr rs imm).toNat % 2 = 0 → ∃ t, exec (.sh rt rs imm) s = .next t ∧ StoresToBus s t ∧ SameDevices s t ∧
      ∀ a, t.bus.mem.read a = stored 2 a) ∧
    ((s.effAddr rs imm).toNat % 4 = 0 → ∃ t, exec (.sw rt rs imm) s = .next t ∧ StoresToBus s t ∧ SameDevices s t ∧
      ∀ a, t.bus.mem.read a = stored 4 a)

/-- 42_loadstore.md R214, R215: SWL stores the `k + 1` most significant bytes of the register into the bytes from the
word's start to the effective address, SWR the `4 - k` least significant bytes from the effective address to the word's
end; every other byte of memory is unchanged. -/
def Obligations.UnalignedStores : Prop :=
  ∀ (s : State) (rt rs : RegIdx) (imm : BitVec 16) (r : Region) (p : Nat),
    segmentViolation s.userMode (s.effAddr rs imm) = false →
    targetOf s.cfg (alignWord (s.effAddr rs imm)) = .region r p → r ≠ .rom →
    let k := laneOf (s.effAddr rs imm)
    (∃ t, exec (.swl rt rs imm) s = .next t ∧ StoresToBus s t ∧ SameDevices s t ∧
      ∀ a, t.bus.mem.read a =
        if p ≤ a ∧ a ≤ p + k then (s.reg rt).extractLsb' (8 * (a - p + (3 - k))) 8 else s.bus.mem.read a) ∧
    (∃ t, exec (.swr rt rs imm) s = .next t ∧ StoresToBus s t ∧ SameDevices s t ∧
      ∀ a, t.bus.mem.read a =
        if p + k ≤ a ∧ a ≤ p + 3 then (s.reg rt).extractLsb' (8 * (a - (p + k))) 8 else s.bus.mem.read a)

/-- 20_memory.md R84, R93, R97: a store of any width to rom completes and changes nothing; a store to a device register
applies the register's write contract to the word on the bus lanes, under the mask of the enabled bytes. -/
def Obligations.StoresToRomAndDevices : Prop :=
  ∀ (s : State) (rt rs : RegIdx) (imm : BitVec 16), segmentViolation s.userMode (s.effAddr rs imm) = false →
    (∀ p, targetOf s.cfg (alignWord (s.effAddr rs imm)) = .region .rom p →
      let ignored (i : Instr) : Prop := ∃ t, exec i s = .next t ∧ StoresToBus s t ∧ SameDevices s t ∧ SameMemory s t
      ignored (.sb rt rs imm) ∧ ignored (.swl rt rs imm) ∧ ignored (.swr rt rs imm) ∧
      ((s.effAddr rs imm).toNat % 2 = 0 → ignored (.sh rt rs imm)) ∧
      ((s.effAddr rs imm).toNat % 4 = 0 → ignored (.sw rt rs imm))) ∧
    (∀ reg, targetOf s.cfg (alignWord (s.effAddr rs imm)) = .device reg →
      let k := laneOf (s.effAddr rs imm)
      let x := s.reg rt
      let writes (i : Instr) (w mask : Word) : Prop :=
        ∃ t, exec i s = .next t ∧ StoresToBus s t ∧ t.bus = deviceWrite s.cfg s.bus reg w mask
      writes (.sb rt rs imm) ((x &&& 0xFF#32) <<< (8 * k)) (0xFF#32 <<< (8 * k)) ∧
      ((s.effAddr rs imm).toNat % 2 = 0 →
        writes (.sh rt rs imm) ((x &&& 0xFFFF#32) <<< (8 * k)) (0xFFFF#32 <<< (8 * k))) ∧
      ((s.effAddr rs imm).toNat % 4 = 0 → writes (.sw rt rs imm) x 0xFFFFFFFF#32) ∧
      writes (.swl rt rs imm) (x >>> (8 * (3 - k))) (0xFFFFFFFF#32 >>> (8 * (3 - k))) ∧
      writes (.swr rt rs imm) (x <<< (8 * k)) (0xFFFFFFFF#32 <<< (8 * k)))

/-- 42_loadstore.md R216, 60_exceptions.md R303, R306: the exceptions of the stores and the order they are tested in. -/
def Obligations.StoreTraps : Prop :=
  ∀ (s : State) (rt rs : RegIdx) (imm : BitVec 16),
    let ea := s.effAddr rs imm
    (s.sr.getLsbD 1 = true → ea.msb = true →
      Raises (.sb rt rs imm) s (.ades ea) ∧ Raises (.sh rt rs imm) s (.ades ea) ∧ Raises (.sw rt rs imm) s (.ades ea) ∧
      Raises (.swl rt rs imm) s (.ades ea) ∧ Raises (.swr rt rs imm) s (.ades ea)) ∧
    (ea.toNat % 2 ≠ 0 → Raises (.sh rt rs imm) s (.ades ea)) ∧
    (ea.toNat % 4 ≠ 0 → Raises (.sw rt rs imm) s (.ades ea)) ∧
    (¬(s.sr.getLsbD 1 = true ∧ ea.msb = true) → targetOf s.cfg (alignWord ea) = .unmapped →
      Raises (.sb rt rs imm) s .dbe ∧ Raises (.swl rt rs imm) s .dbe ∧ Raises (.swr rt rs imm) s .dbe ∧
      (ea.toNat % 2 = 0 → Raises (.sh rt rs imm) s .dbe) ∧ (ea.toNat % 4 = 0 → Raises (.sw rt rs imm) s .dbe))

/-- 20_memory.md R79, R105: a word stored is what the next fetch and the next load read, through any alias of its
physical address. -/
def Obligations.StoreIsSeenByTheNextFetch : Prop :=
  ∀ (s : State) (rt rs : RegIdx) (imm : BitVec 16) (r : Region) (p : Nat) (a : Word),
    segmentViolation s.userMode (s.effAddr rs imm) = false → (s.effAddr rs imm).toNat % 4 = 0 →
    targetOf s.cfg (s.effAddr rs imm) = .region r p → r ≠ .rom →
    a.toNat % 4 = 0 → segmentViolation s.userMode a = false → targetOf s.cfg a = .region r p →
    ∃ t, exec (.sw rt rs imm) s = .next t ∧ fetchWord t.cfg t.userMode t.bus a = .ok (s.reg rt) ∧
      memRead t.cfg t.userMode t.bus a .word = .ok (s.reg rt, t.bus)

/-- 20_memory.md R77 to R83, R99: the address decode. For every configuration the three segments are aliases of one
physical space and everything else is unmapped. Where the configuration describes a machine (`ConfigOk`; log 10 says what
of it is the model's choice), a region holds exactly the addresses its base and mask select; every byte of a window decodes to the register of the maps of R82, R340, R352 and
R382; outside regions and windows everything is unmapped; and an offset that names no register reads 0 and ignores
writes. With the listed values the ranges are those of the tables of R80 and R82. -/
def Obligations.AddressDecode : Prop :=
  (∀ (cfg : Config.Params) (p : Nat), p < 0x20000000 →
    targetOf cfg (BitVec.ofNat 32 p) = targetOfPhys cfg p ∧
    targetOf cfg (BitVec.ofNat 32 (0x80000000 + p)) = targetOfPhys cfg p ∧
    targetOf cfg (BitVec.ofNat 32 (0xA0000000 + p)) = targetOfPhys cfg p) ∧
  (∀ (cfg : Config.Params) (a : Word), (0x20000000 ≤ a.toNat ∧ a.toNat < 0x80000000) ∨ 0xC0000000 ≤ a.toNat →
    targetOf cfg a = .unmapped) ∧
  (∀ cfg : Config.Params, ConfigOk cfg →
    (∀ (p : Word) (r : Region), regionOf cfg p.toNat = some r ↔
      p &&& ~~~(BitVec.ofNat 32 (r.size cfg - 1)) = BitVec.ofNat 32 (r.base cfg)) ∧
    (∀ (p : Nat) (r : Region), regionOf cfg p = some r → targetOfPhys cfg p = .region r p) ∧
    (∀ k, k < 4 →
      targetOfPhys cfg (cfg.icBase + k) = .device .iStat ∧ targetOfPhys cfg (cfg.icBase + 4 + k) = .device .iMask ∧
      (∀ n : ChanIdx,
        targetOfPhys cfg (cfg.dmaBase + 16 * n.val + k) = .device (.madr n) ∧
        targetOfPhys cfg (cfg.dmaBase + 16 * n.val + 4 + k) = .device (.bcr n) ∧
        targetOfPhys cfg (cfg.dmaBase + 16 * n.val + 8 + k) = .device (.chcr n) ∧
        targetOfPhys cfg (cfg.dmaBase + 16 * n.val + 12 + k) = .device .unimplemented) ∧
      targetOfPhys cfg (cfg.dmaBase + 0x80 + k) = .device .dpcr ∧
      targetOfPhys cfg (cfg.dmaBase + 0x84 + k) = .device .dicr ∧
      targetOfPhys cfg (cfg.dmaBase + 0x88 + k) = .device .dmaEn ∧
      targetOfPhys cfg (cfg.dmaBase + 0x8C + k) = .device .unimplemented ∧
      targetOfPhys cfg (cfg.gpuBase + k) = .device .gpuCmd ∧
      targetOfPhys cfg (cfg.gpuBase + 4 + k) = .device .gpuData) ∧
    (∀ p, regionOf cfg p = none → ¬(cfg.icBase ≤ p ∧ p < cfg.icBase + 8) →
      ¬(cfg.dmaBase ≤ p ∧ p < cfg.dmaBase + 0x90) → ¬(cfg.gpuBase ≤ p ∧ p < cfg.gpuBase + 8) →
      targetOfPhys cfg p = .unmapped)) ∧
  (∀ (cfg : Config.Params) (b : Bus) (w mask : Word),
    deviceRead cfg b .unimplemented = (0#32, b) ∧ deviceWrite cfg b .unimplemented w mask = b) ∧
  (∀ budget p : Nat,
    let cfg : Config.Params := { tickBudget := budget }
    (regionOf cfg p = some .wram ↔ p ≤ 0x001FFFFF) ∧
    (regionOf cfg p = some .vram ↔ 0x1E000000 ≤ p ∧ p ≤ 0x1E1FFFFF) ∧
    (regionOf cfg p = some .aux ↔ 0x1F000000 ≤ p ∧ p ≤ 0x1F00FFFF) ∧
    (regionOf cfg p = some .spad ↔ 0x1F800000 ≤ p ∧ p ≤ 0x1F8003FF) ∧
    (regionOf cfg p = some .rom ↔ 0x1FC00000 ≤ p ∧ p ≤ 0x1FC7FFFF) ∧
    ((deviceRegOf cfg p).isSome = true ↔ (0x1F801070 ≤ p ∧ p ≤ 0x1F801077) ∨ (0x1F801080 ≤ p ∧ p ≤ 0x1F80110F) ∨
      (0x1F801810 ≤ p ∧ p ≤ 0x1F801817)))

/-! ## Branches and jumps -/

/-- 43_branch_jump.md R233 to R236, R245, 30_encoding.md R127: the jumps, their targets and their links. -/
def Obligations.Jumps : Prop :=
  ∀ (s : State) (target : BitVec 26) (rd rs : RegIdx),
    let t26 := (s.pc + 4#32).extractLsb' 28 4 ++ target ++ 0#2
    (∃ t, exec (.j target) s = .next t ∧ Branches s t none True t26) ∧
    (∃ t, exec (.jal target) s = .next t ∧ Branches s t (some (31, s.pc + 8#32)) True t26) ∧
    (∃ t, exec (.jr rs) s = .next t ∧ Branches s t none True (s.reg rs)) ∧
    (∃ t, exec (.jalr rd rs) s = .next t ∧ Branches s t (some (rd, s.pc + 8#32)) True (s.reg rs))

/-- 43_branch_jump.md R231, R237 to R242: the conditional branches, their conditions and their target. -/
def Obligations.ConditionalBranches : Prop :=
  ∀ (s : State) (rs rt : RegIdx) (imm : BitVec 16),
    let target := s.pc + 4#32 + BitVec.ofInt 32 (4 * imm.toInt)
    (∃ t, exec (.beq rs rt imm) s = .next t ∧ Branches s t none (s.reg rs = s.reg rt) target) ∧
    (∃ t, exec (.bne rs rt imm) s = .next t ∧ Branches s t none (s.reg rs ≠ s.reg rt) target) ∧
    (∃ t, exec (.blez rs imm) s = .next t ∧ Branches s t none ((s.reg rs).toInt ≤ 0) target) ∧
    (∃ t, exec (.bgtz rs imm) s = .next t ∧ Branches s t none (0 < (s.reg rs).toInt) target) ∧
    (∃ t, exec (.bltz rs imm) s = .next t ∧ Branches s t none ((s.reg rs).toInt < 0) target) ∧
    (∃ t, exec (.bgez rs imm) s = .next t ∧ Branches s t none (0 ≤ (s.reg rs).toInt) target)

/-- 43_branch_jump.md R243 to R245: the linking branches write `pc + 8` to register 31 whether or not they are taken, and
test the register as it was before. -/
def Obligations.LinkingBranches : Prop :=
  ∀ (s : State) (rs : RegIdx) (imm : BitVec 16),
    let target := s.pc + 4#32 + BitVec.ofInt 32 (4 * imm.toInt)
    (∃ t, exec (.bltzal rs imm) s = .next t ∧ t.reg 31 = s.pc + 8#32 ∧
      Branches s t (some (31, s.pc + 8#32)) ((s.reg rs).toInt < 0) target) ∧
    (∃ t, exec (.bgezal rs imm) s = .next t ∧ t.reg 31 = s.pc + 8#32 ∧
      Branches s t (some (31, s.pc + 8#32)) (0 ≤ (s.reg rs).toInt) target)

/-! ## Coprocessor 0 and the system instructions -/

/-- 44_coprocessor_system.md R250, 10_state.md R40, R43: what MFC0 reads from each slot, where COP0 is usable; the value
is delayed like a load's. -/
def Obligations.MoveFromControl : Prop :=
  ∀ (s : State) (rt : RegIdx) (slot : SlotIdx), s.sr.getLsbD 1 = false ∨ s.sr.getLsbD 28 = true →
    ∃ t v, exec (.mfc0 rt slot) s = .next t ∧ LoadsInto s t rt v .cop ∧ SameDevices s t ∧
      (slot ≠ 13 → slot ≠ 15 → v = s.slot slot) ∧ (slot = 15 → v = s.cfg.pridValue) ∧
      (slot = 13 → ∀ k, k < 32 → (v.getLsbD k = true ↔
        if k = 10 then LineHigh s.bus.ic else s.cause.getLsbD k = true))

/-- 44_coprocessor_system.md R251, 10_state.md R38: what MTC0 stores in each slot, where COP0 is usable. -/
def Obligations.MoveToControl : Prop :=
  ∀ (s : State) (rt : RegIdx) (slot : SlotIdx), s.sr.getLsbD 1 = false ∨ s.sr.getLsbD 28 = true →
    ∃ t, exec (.mtc0 rt slot) s = .next t ∧ WritesControl s t ∧ (∀ i, i ≠ slot → t.slot i = s.slot i) ∧
      (slot = 8 ∨ slot = 14 ∨ slot = 15 → t.slot slot = s.slot slot) ∧
      (slot = 13 → ∀ k, k < 32 → t.cause.getLsbD k =
        if k = 8 ∨ k = 9 then (s.reg rt).getLsbD k else s.cause.getLsbD k) ∧
      (slot ≠ 8 → slot ≠ 13 → slot ≠ 14 → slot ≠ 15 → t.slot slot = s.reg rt)

/-- 44_coprocessor_system.md R252, 60_exceptions.md R321, R330: RFE, where COP0 is usable, pops the mode stack and does
nothing else: the old pair stays, and `pc` goes on. As the first instruction of a handler it gives back the mode and the
interrupt enable of the trapped program and the pair below it; only the third pair is lost. -/
def Obligations.RfePopsTheModeStack : Prop :=
  (∀ s : State, s.sr.getLsbD 1 = false ∨ s.sr.getLsbD 28 = true →
    ∃ t, exec .rfe s = .next t ∧ WritesControl s t ∧ (∀ i, i ≠ 12 → t.slot i = s.slot i) ∧
      ∀ k, k < 32 → t.sr.getLsbD k = if k < 4 then s.sr.getLsbD (k + 2) else s.sr.getLsbD k) ∧
  (∀ (s : State) (e : Exc), ∃ t, exec .rfe (s.raise e) = .next t ∧
    ∀ k, k < 32 → t.sr.getLsbD k =
      if k < 4 then s.sr.getLsbD k else if k < 6 then s.sr.getLsbD (k - 2) else s.sr.getLsbD k)

/-- 44_coprocessor_system.md R253: in user mode with CU0 = 0, MFC0, MTC0 and RFE raise CpU(0) and have no effect. -/
def Obligations.Cop0IsUnusableInUserMode : Prop :=
  ∀ (s : State) (rt : RegIdx) (slot : SlotIdx), s.sr.getLsbD 1 = true → s.sr.getLsbD 28 = false →
    Raises (.mfc0 rt slot) s (.cpu 0) ∧ Raises (.mtc0 rt slot) s (.cpu 0) ∧ Raises .rfe s (.cpu 0)

/-- 44_coprocessor_system.md R255 to R259: SYSCALL and BREAK always take their exception, and every word of the absent
coprocessors takes CpU with the coprocessor's number, in either mode, whatever the rest of the word is. -/
def Obligations.SystemCallsAndAbsentCoprocessorsTrap : Prop :=
  ∀ (s : State) (code : BitVec 20) (low : BitVec 26),
    Raises (.syscall code) s .sys ∧ Raises (.brk code) s .bp ∧
    Raises (.cop1 low) s (.cpu 1) ∧ Raises (.cop2 low) s (.cpu 2) ∧ Raises (.cop3 low) s (.cpu 3) ∧
    Raises (.lwc1 low) s (.cpu 1) ∧ Raises (.lwc2 low) s (.cpu 2) ∧ Raises (.lwc3 low) s (.cpu 3) ∧
    Raises (.swc1 low) s (.cpu 1) ∧ Raises (.swc2 low) s (.cpu 2) ∧ Raises (.swc3 low) s (.cpu 3)

/-! ## Invariants of the step -/

/-- The reset state of every configuration that describes a machine meets the invariants that the next statements say
every step keeps; so does that of the listed values. -/
def Obligations.ResetMeetsTheInvariants : Prop :=
  (∀ cfg : Config.Params, ConfigOk cfg →
    MemoryInv cfg (State.resetWith cfg).bus.mem ∧ CpuInv (State.resetWith cfg) ∧
    DeviceInv cfg (State.resetWith cfg).bus ∧ TickInv (State.resetWith cfg)) ∧
  MemoryInv State.reset.cfg State.reset.bus.mem ∧ CpuInv State.reset ∧ DeviceInv State.reset.cfg State.reset.bus ∧
  TickInv State.reset

/-- Every step, from every state whose configuration describes a machine, keeps the configuration and the memory's
canonical form, and lists addresses of the five regions only. -/
def Obligations.StepKeepsTheMemoryForm : Prop :=
  ∀ s t : State, ConfigOk s.cfg → step s = .next t → MemoryInv s.cfg s.bus.mem → t.cfg = s.cfg ∧ MemoryInv t.cfg t.bus.mem

/-- 10_state.md R47: no step, from any state whose configuration describes a machine, changes a byte of rom. -/
def Obligations.StepNeverChangesRom : Prop :=
  ∀ (s t : State) (p : Nat), ConfigOk s.cfg → step s = .next t → regionOf s.cfg p = some .rom →
    t.bus.mem.read p = s.bus.mem.read p

/-- 10_state.md R21, R29, R35, R40, R43: every step, from every state, keeps the CPU's invariant. -/
def Obligations.StepKeepsTheCpuInvariant : Prop :=
  ∀ s t : State, step s = .next t → CpuInv s → CpuInv t

/-- 60_exceptions.md R348, R354, R381, R384, R387: every step, from every state whose configuration describes a machine,
keeps the devices' invariant. -/
def Obligations.StepKeepsTheDeviceInvariant : Prop :=
  ∀ s t : State, ConfigOk s.cfg → step s = .next t → DeviceInv s.cfg s.bus → t.cfg = s.cfg ∧ DeviceInv t.cfg t.bus

/-! ## The interrupt controller -/

/-- 60_exceptions.md R341 to R344, R347: raising latches one bit whatever the mask and twice is once; acknowledging
clears exactly the bits written; a mask write stores the enabled bytes; the line is the OR of the unmasked bits. -/
def Obligations.InterruptController : Prop :=
  (∀ (ic : Ic) (k j : Nat), k < 32 → j < 32 →
    (ic.raiseSource k).iStat.getLsbD j = (ic.iStat.getLsbD j || decide (j = k)) ∧
    (ic.raiseSource k).iMask = ic.iMask) ∧
  (∀ (ic : Ic) (k : Nat), (ic.raiseSource k).raiseSource k = ic.raiseSource k) ∧
  (∀ (cfg : Config.Params) (b : Bus) (w mask : Word), ∃ c : Ic, deviceWrite cfg b .iStat w mask = { b with ic := c } ∧
    c.iMask = b.ic.iMask ∧
    ∀ j, j < 32 → c.iStat.getLsbD j = (b.ic.iStat.getLsbD j && !(w.getLsbD j && mask.getLsbD j))) ∧
  (∀ (cfg : Config.Params) (b : Bus) (w mask : Word), ∃ c : Ic, deviceWrite cfg b .iMask w mask = { b with ic := c } ∧
    c.iStat = b.ic.iStat ∧
    ∀ j, j < 32 → c.iMask.getLsbD j = if mask.getLsbD j then w.getLsbD j else b.ic.iMask.getLsbD j) ∧
  (∀ ic : Ic, ic.pendingLine = true ↔ LineHigh ic)

/-! ## The DMA controller -/

/-- 20_memory.md R93, R112, 60_exceptions.md R353, R355, R358: what a write to each plain register leaves, under every
byte mask: each bit inside the mask is the bit written, each bit outside it is as it was, and nothing else behind the bus
changes; so a written word reads back, in the bits the register has. -/
def Obligations.RegisterRoundTrip : Prop :=
  (∀ (cfg : Config.Params) (b : Bus) (n : ChanIdx) (w : Word),
    let back (reg : DeviceReg) : Word := (deviceRead cfg (deviceWrite cfg b reg w 0xFFFFFFFF#32) reg).1
    back .iMask = w ∧ back (.madr n) = w ∧ back (.bcr n) = w ∧ back .dpcr = w ∧
    back (.chcr n) &&& 0xFEFFFFFF#32 = w &&& 0x00770703#32 ∧ back .dmaEn = w &&& 1#32 ∧
    back .dicr &&& 0x7FFFFF00#32 = w &&& 0x0001FF00#32) ∧
  (∀ (cfg : Config.Params) (b : Bus) (n : ChanIdx) (w mask : Word),
    let merged (old new : Word) : Prop :=
      ∀ k, k < 32 → new.getLsbD k = if mask.getLsbD k then w.getLsbD k else old.getLsbD k
    (∃ v, deviceWrite cfg b (.madr n) w mask =
        { b with dma := b.dma.setChannel n { b.dma.channel n with madr := v } } ∧
      merged (b.dma.channel n).madr v) ∧
    (∃ v, deviceWrite cfg b (.bcr n) w mask =
        { b with dma := b.dma.setChannel n { b.dma.channel n with bcr := v } } ∧
      merged (b.dma.channel n).bcr v) ∧
    (∃ v, deviceWrite cfg b .dpcr w mask = { b with dma := { b.dma with dpcr := v } } ∧ merged b.dma.dpcr v) ∧
    (deviceWrite cfg b .dmaEn w mask =
      { b with dma := { b.dma with enabled := if mask.getLsbD 0 then w.getLsbD 0 else b.dma.enabled } }))

/-- 60_exceptions.md R356, R357, 20_memory.md R93: DICR bit by bit. A read gives the flags, the enables, the master bit
and ANY; a write under a byte mask clears the flags written 1, replaces the enables and the master bit, and raises no
interrupt; no other register behind the bus changes. -/
def Obligations.DicrReadAndWrite : Prop :=
  ∀ (cfg : Config.Params) (b : Bus) (w mask : Word) (k : Nat),
    (k < 8 → (deviceRead cfg b .dicr).1.getLsbD k = b.dma.flag.getLsbD k ∧
      (deviceRead cfg b .dicr).1.getLsbD (8 + k) = b.dma.en.getLsbD k ∧
      (deviceWrite cfg b .dicr w mask).dma.flag.getLsbD k =
        (b.dma.flag.getLsbD k && !(w.getLsbD k && mask.getLsbD k)) ∧
      (deviceWrite cfg b .dicr w mask).dma.en.getLsbD k =
        (if mask.getLsbD (8 + k) then w.getLsbD (8 + k) else b.dma.en.getLsbD k)) ∧
    (deviceRead cfg b .dicr).1.getLsbD 16 = b.dma.master ∧
    (deviceWrite cfg b .dicr w mask).dma.master = (if mask.getLsbD 16 then w.getLsbD 16 else b.dma.master) ∧
    (17 ≤ k → k ≤ 30 → (deviceRead cfg b .dicr).1.getLsbD k = false) ∧
    ((deviceRead cfg b .dicr).1.getLsbD 31 = true ↔
      b.dma.master = true ∧ ∃ j, j < 8 ∧ b.dma.flag.getLsbD j = true ∧ b.dma.en.getLsbD j = true) ∧
    (deviceWrite cfg b .dicr w mask).ic = b.ic ∧ (deviceWrite cfg b .dicr w mask).mem = b.mem ∧
    (deviceWrite cfg b .dicr w mask).gpu = b.gpu ∧ (deviceWrite cfg b .dicr w mask).dma.chan = b.dma.chan ∧
    (deviceWrite cfg b .dicr w mask).dma.dpcr = b.dma.dpcr ∧ (deviceWrite cfg b .dicr w mask).dma.enabled = b.dma.enabled

/-- 60_exceptions.md R354, R359 to R361, 20_memory.md R93: a write to CHCR under any byte mask acts with the value `v` that
is the written bit inside the mask and the bit of the register's read value, BUSY included, outside it. It stores the
implemented bits of `v`; with bit 24 of `v` set it starts an idle, enabled channel with the address and length of the
registers, and otherwise changes neither the state nor the counters; with bit 24 clear it stops the channel without a flag
or an interrupt. So a write that does not touch bit 24 neither starts nor stops the channel. -/
def Obligations.ChannelStartAndStop : Prop :=
  ∀ (cfg : Config.Params) (b : Bus) (n : ChanIdx) (w mask : Word), ∃ (v : Word) (c : Channel),
    (∀ k, k < 32 → v.getLsbD k = if mask.getLsbD k then w.getLsbD k
      else ((b.dma.channel n).chcr.getLsbD k || decide (k = 24 ∧ (b.dma.channel n).st = .xfer))) ∧
    deviceWrite cfg b (.chcr n) w mask = { b with dma := b.dma.setChannel n c } ∧
    c.madr = (b.dma.channel n).madr ∧ c.bcr = (b.dma.channel n).bcr ∧ c.chcr = v &&& 0x00770703#32 ∧
    (v.getLsbD 24 = true → (b.dma.channel n).st = .idle → b.dma.enabled = true →
      b.dma.dpcr.getLsbD (4 * n.val + 3) = true →
      c.st = .xfer ∧ c.cur.toNat = c.madr.toNat / 4 * 4 ∧
      c.len.toNat =
        if v.toNat / 512 % 4 = 0 then c.bcr.toNat % 65536
        else if v.toNat / 512 % 4 = 1 then c.bcr.toNat % 65536 * (c.bcr.toNat / 65536)
        else 0) ∧
    (v.getLsbD 24 = true →
      ¬((b.dma.channel n).st = .idle ∧ b.dma.enabled = true ∧ b.dma.dpcr.getLsbD (4 * n.val + 3) = true) →
      c.st = (b.dma.channel n).st ∧ c.cur = (b.dma.channel n).cur ∧ c.len = (b.dma.channel n).len) ∧
    (v.getLsbD 24 = false →
      c.st = .idle ∧ c.cur = (b.dma.channel n).cur ∧ c.len = (b.dma.channel n).len) ∧
    (mask.getLsbD 24 = false →
      (b.dma.channel n).chcr.getLsbD 24 = false →
      c.st = (b.dma.channel n).st ∧ c.cur = (b.dma.channel n).cur ∧ c.len = (b.dma.channel n).len)

/-- 60_exceptions.md R362, R363, R365 to R370: one DMA step. Every transferring channel moves one word (cursor by 4, length
by 1) or, with nothing left, none; a channel whose length is then 0 completes: idle, flag set, and the interrupt source
raised exactly if it and the controller have interrupts enabled. With the latch off nothing changes. The step is the turns
of the channels of `Dma.order`, one after the other; in its turn a channel with words left moves the word at its cursor
(the physical word of 20_memory.md R107) to its port if DIR is 1, or a word of its port there if DIR is 0; the port of
channel 2 is the GPU, the others are stubs. -/
def Obligations.DmaStepAdvancesEveryChannel : Prop :=
  (∀ (cfg : Config.Params) (b : Bus), b.dma.enabled = false → dmaStep cfg b = b) ∧
  (∀ (cfg : Config.Params) (b : Bus), b.dma.enabled = true → dmaStep cfg b = b.dma.order.foldl (stepChannel cfg) b ∧
    let b' := dmaStep cfg b
    let completes (n : ChanIdx) : Prop := (b.dma.channel n).st = .xfer ∧ (b.dma.channel n).len.toNat ≤ 1
    (∀ n, (b'.dma.channel n).madr = (b.dma.channel n).madr ∧ (b'.dma.channel n).bcr = (b.dma.channel n).bcr ∧
      (b'.dma.channel n).chcr = (b.dma.channel n).chcr ∧
      ((b.dma.channel n).st = .idle → b'.dma.channel n = b.dma.channel n) ∧
      ((b.dma.channel n).st = .xfer → (b.dma.channel n).len = 0#32 →
        (b'.dma.channel n).cur = (b.dma.channel n).cur ∧ (b'.dma.channel n).len = 0#32) ∧
      ((b.dma.channel n).st = .xfer → (b.dma.channel n).len ≠ 0#32 →
        (b'.dma.channel n).len = (b.dma.channel n).len - 1#32 ∧
        (b'.dma.channel n).cur =
          if (b.dma.channel n).chcr.getLsbD 1 then (b.dma.channel n).cur - 4#32 else (b.dma.channel n).cur + 4#32) ∧
      (completes n → (b'.dma.channel n).st = .idle ∧ b'.dma.flag.getLsbD n.val = true) ∧
      (¬completes n → (b'.dma.channel n).st = (b.dma.channel n).st ∧
        b'.dma.flag.getLsbD n.val = b.dma.flag.getLsbD n.val)) ∧
    b'.dma.dpcr = b.dma.dpcr ∧ b'.dma.en = b.dma.en ∧ b'.dma.master = b.dma.master ∧ b'.dma.enabled = true ∧
    b'.ic.iMask = b.ic.iMask ∧
    (∀ j, j < 32 → (b'.ic.iStat.getLsbD j = true ↔ b.ic.iStat.getLsbD j = true ∨
      (j = cfg.irqDma ∧ b.dma.master = true ∧ ∃ n, completes n ∧ b.dma.en.getLsbD n.val = true)))) ∧
  (∀ (cfg : Config.Params) (b : Bus) (n : ChanIdx), ConfigOk cfg →
    let c := b.dma.channel n
    let b' := stepChannel cfg b n
    let p := c.cur.toNat % 0x20000000 / 4 * 4
    (c.len = 0#32 → b'.mem = b.mem ∧ b'.gpu = b.gpu) ∧
    (c.len ≠ 0#32 → c.chcr.getLsbD 0 = true →
      (n = 2 → (b'.gpu, b'.mem) = b.gpu.write cfg b.mem
        (if regionOf cfg p = none then 0#32
          else b.mem.read (p + 3) ++ b.mem.read (p + 2) ++ b.mem.read (p + 1) ++ b.mem.read p)) ∧
      (n ≠ 2 → b'.gpu = b.gpu ∧ b'.mem = b.mem)) ∧
    (c.len ≠ 0#32 → c.chcr.getLsbD 0 = false →
      b'.gpu = (if n = 2 then (b.gpu.dataRead cfg b.mem).2 else b.gpu) ∧
      ∀ a, b'.mem.read a =
        if p ≤ a ∧ a < p + 4 ∧ (∃ r, regionOf cfg a = some r ∧ r ≠ .rom)
        then (if n = 2 then (b.gpu.dataRead cfg b.mem).1 else 0#32).extractLsb' (8 * (a - p)) 8
        else b.mem.read a))

/-- 60_exceptions.md R364: the order of a DMA step lists exactly the transferring channels, each once, smaller priority
field first, and the lower channel number first among equals. -/
def Obligations.DmaPriorityOrder : Prop :=
  ∀ d : Dma, d.order.Nodup ∧ (∀ n, n ∈ d.order ↔ (d.channel n).st = .xfer) ∧
    d.order.Pairwise (fun m n => d.prio m < d.prio n ∨ (d.prio m = d.prio n ∧ m < n)) ∧
    ∀ n : ChanIdx, d.prio n = d.dpcr.toNat / 2 ^ (4 * n.val) % 8

/-- 60_exceptions.md R362, R368, R371: a burst of `N` words from a stub port into memory, the only transfer running:
after `k < N` steps the channel is still busy with `N - k` words left and its flag as before; after `N` steps it is idle
with the flag set; exactly the writable words from `A` to `A + 4 (N - 1)` are zero, and every other byte is unchanged. -/
def Obligations.DmaBlockTransfer : Prop :=
  ∀ (cfg : Config.Params) (b : Bus) (n : ChanIdx), ConfigOk cfg →
    b.dma.enabled = true → n ≠ 2 → (b.dma.channel n).st = .xfer →
    (∀ m, m ≠ n → (b.dma.channel m).st = .idle) →
    (b.dma.channel n).chcr.getLsbD 0 = false → (b.dma.channel n).chcr.getLsbD 1 = false →
    (b.dma.channel n).cur.toNat % 4 = 0 →
    (b.dma.channel n).cur.toNat + 4 * (b.dma.channel n).len.toNat ≤ 0x20000000 →
    let A := (b.dma.channel n).cur.toNat
    let N := (b.dma.channel n).len.toNat
    (∀ k, k < N → (((dmaStep cfg)^[k] b).dma.channel n).st = .xfer ∧
      (((dmaStep cfg)^[k] b).dma.channel n).len.toNat = N - k ∧
      (((dmaStep cfg)^[k] b).dma.channel n).cur.toNat = A + 4 * k ∧ ((dmaStep cfg)^[k] b).dma.flag = b.dma.flag ∧
      ((dmaStep cfg)^[k] b).ic = b.ic) ∧
    (1 ≤ N → (((dmaStep cfg)^[N] b).dma.channel n).st = .idle ∧ ((dmaStep cfg)^[N] b).dma.flag.getLsbD n.val = true ∧
      (((dmaStep cfg)^[N] b).ic = b.ic ↔
        (b.dma.en.getLsbD n.val && b.dma.master) = false ∨ b.ic.iStat.getLsbD cfg.irqDma = true) ∧
      ((dmaStep cfg)^[N] b).gpu = b.gpu ∧
      ∀ a, ((dmaStep cfg)^[N] b).mem.read a =
        if A ≤ a ∧ a < A + 4 * N ∧ (∃ r, regionOf cfg a = some r ∧ r ≠ .rom) then 0#8 else b.mem.read a)

/-! ## The GPU -/

/-- 60_exceptions.md R381, R383 to R385, R387 to R389: the status word bit by bit; a write to CMD enqueues one word,
consumes it at once and leaves the FIFO empty; an unrecognised first word is dropped; the packet length of every opcode;
and the words of a packet, written one after the other, are buffered until its length is reached, and then the packet is
executed. -/
def Obligations.GpuStatusAndFifo : Prop :=
  (∀ (cfg : Config.Params) (b : Bus) (k : Nat), k < 32 → (deviceRead cfg b .gpuCmd).2 = b ∧
    ((deviceRead cfg b .gpuCmd).1.getLsbD k = true ↔
      if k < 11 then b.gpu.drawMode.getLsbD k = true
      else if k = 11 then b.gpu.maskSet = true
      else if k = 12 then b.gpu.maskCheck = true
      else if k = 26 then b.gpu.pktLen = 0 ∧ b.gpu.xferMode = .none
      else if k = 27 then b.gpu.xferMode ≠ .none
      else False)) ∧
  (∀ (cfg : Config.Params) (g : Gpu) (m : Memory) (w : Word), ConfigOk cfg → GpuBuffers cfg g → ∃ g' : Gpu,
    g' = { g with
      fifo := g.fifo.set g.fifoWr w
      fifoRd := (g.fifoRd + 1) % cfg.gpuFifoDepth
      fifoWr := (g.fifoWr + 1) % cfg.gpuFifoDepth } ∧
    g.write cfg m w = g'.consume cfg m w ∧ GpuBuffers cfg (g.write cfg m w).1 ∧
    (g.xferMode ≠ .toVram → g.pktLen = 0 → packetLen (w.extractLsb' 24 8) = 0 → g.write cfg m w = (g', m))) ∧
  (∀ op : BitVec 8,
    (op.toNat = 0x00 → packetLen op = 1) ∧ (op.toNat = 0x02 → packetLen op = 3) ∧
    (0x20 ≤ op.toNat → op.toNat ≤ 0x3F → packetLen op =
      1 + (if op.getLsbD 3 then 4 else 3) * (1 + (if op.getLsbD 2 then 1 else 0)) +
        (if op.getLsbD 4 then 1 else 0) * ((if op.getLsbD 3 then 4 else 3) - 1)) ∧
    (0x40 ≤ op.toNat → op.toNat ≤ 0x5F → packetLen op = if op.getLsbD 3 then 0 else if op.getLsbD 4 then 4 else 3) ∧
    (0x60 ≤ op.toNat → op.toNat ≤ 0x7F → packetLen op =
      2 + (if op.getLsbD 2 then 1 else 0) + (if op.getLsbD 3 = false ∧ op.getLsbD 4 = false then 1 else 0)) ∧
    (0x80 ≤ op.toNat → op.toNat ≤ 0x9F → packetLen op = 4) ∧ (0xA0 ≤ op.toNat → op.toNat ≤ 0xDF → packetLen op = 3) ∧
    (0xE1 ≤ op.toNat → op.toNat ≤ 0xE6 → packetLen op = 1) ∧
    (op.toNat = 0x01 ∨ (0x03 ≤ op.toNat ∧ op.toNat ≤ 0x1F) ∨ op.toNat = 0xE0 ∨ 0xE7 ≤ op.toNat → packetLen op = 0)) ∧
  (∀ (cfg : Config.Params) (g : Gpu) (m : Memory) (w : Word) (ws : List Word), ConfigOk cfg → GpuBuffers cfg g →
    g.xferMode ≠ .toVram → g.pktLen = 0 → ws.length + 1 ≤ packetLen (w.extractLsb' 24 8) →
    ∃ g' : Gpu,
      g' = { g with
        fifo := g'.fifo
        fifoRd := g'.fifoRd
        fifoWr := g'.fifoWr
        pkt := (w :: ws) ++ g.pkt.drop (ws.length + 1)
        pktLen := ws.length + 1
        pktNeed := packetLen (w.extractLsb' 24 8) } ∧
      GpuBuffers cfg g' ∧
      (w :: ws).foldl (fun r v => r.1.write cfg r.2 v) (g, m) =
        if ws.length + 1 = packetLen (w.extractLsb' 24 8)
        then ({ (g'.execute cfg m).1 with pktLen := 0 }, (g'.execute cfg m).2) else (g', m))

/-- 60_exceptions.md R405 to R410: the mode-setting packets, one word each, set their fields and nothing else. -/
def Obligations.GpuModePackets : Prop :=
  ∀ (cfg : Config.Params) (g : Gpu) (m : Memory) (w : Word), g.pkt ≠ [] → g.xferMode ≠ .toVram → g.pktLen = 0 →
    let g' : Gpu := { g with pkt := g.pkt.set 0 w, pktNeed := 1 }
    (w.extractLsb' 24 8 = 0xE1#8 → g.consume cfg m w = ({ g' with drawMode := w.extractLsb' 0 11 }, m)) ∧
    (w.extractLsb' 24 8 = 0xE2#8 → g.consume cfg m w = ({ g' with texWindow := w.extractLsb' 0 20 }, m)) ∧
    (w.extractLsb' 24 8 = 0xE3#8 →
      g.consume cfg m w = ({ g' with clipX1 := w.extractLsb' 0 10, clipY1 := w.extractLsb' 10 10 }, m)) ∧
    (w.extractLsb' 24 8 = 0xE4#8 →
      g.consume cfg m w = ({ g' with clipX2 := w.extractLsb' 0 10, clipY2 := w.extractLsb' 10 10 }, m)) ∧
    (w.extractLsb' 24 8 = 0xE5#8 →
      g.consume cfg m w = ({ g' with offX := w.extractLsb' 0 11, offY := w.extractLsb' 11 11 }, m)) ∧
    (w.extractLsb' 24 8 = 0xE6#8 →
      g.consume cfg m w = ({ g' with maskSet := w.getLsbD 0, maskCheck := w.getLsbD 1 }, m))

/-- 60_exceptions.md R383, R387, R401: the three words of a fill packet written to CMD one after the other set exactly
the pixels of the rectangle, which wraps at the edges, to the exact colour word; every other byte of memory is
unchanged, and the processor is ready again. -/
def Obligations.GpuFillRectangle : Prop :=
  ∀ (cfg : Config.Params) (g : Gpu) (m : Memory) (w0 w1 w2 : Word), ConfigOk cfg → GpuBuffers cfg g →
    g.xferMode ≠ .toVram → g.pktLen = 0 → w0.extractLsb' 24 8 = 0x02#8 →
    let r := ((g.write cfg m w0).1.write cfg (g.write cfg m w0).2 w1)
    let r' := r.1.write cfg r.2 w2
    let X := w1.toNat % 1024
    let Y := w1.toNat / 65536 % 512
    let W := w2.toNat % 1024
    let H := w2.toNat / 65536 % 512
    let inside (x y : Nat) : Prop :=
      ∃ i j, i < W ∧ j < H ∧ x = (X + i) % cfg.vramWidth ∧ y = (Y + j) % cfg.vramHeight
    r'.1.pktLen = 0 ∧ r'.1.xferMode = g.xferMode ∧
    (∀ x y, x < cfg.vramWidth → y < cfg.vramHeight →
      (inside x y → r'.2.pixel cfg x y = w0 &&& 0x00FFFFFF#32) ∧
      (¬inside x y → r'.2.pixel cfg x y = m.pixel cfg x y)) ∧
    (∀ a, regionOf cfg a ≠ some .vram → r'.2.read a = m.read a)

/-- 60_exceptions.md R420, R421: a packet whose opcode is 0x60, 0x68, 0x70 or 0x78 changes no register of the processor and
plots exactly the pixels of the rectangle, moved by the drawing offset, that lie in the clip rectangle and in video RAM
and are not protected by the mask bit; every other byte of memory is unchanged. -/
def Obligations.GpuFlatRectangle : Prop :=
  ∀ (cfg : Config.Params) (g : Gpu) (m : Memory), ConfigOk cfg →
    let op := (g.pktWord 0).extractLsb' 24 8
    op = 0x60#8 ∨ op = 0x68#8 ∨ op = 0x70#8 ∨ op = 0x78#8 →
    let x0 : Int := ((g.pktWord 1).extractLsb' 0 11).toInt + g.offX.toInt
    let y0 : Int := ((g.pktWord 1).extractLsb' 16 11).toInt + g.offY.toInt
    let W : Nat :=
      if op = 0x60#8 then (g.pktWord 2).toNat % 1024 else if op = 0x68#8 then 1 else if op = 0x70#8 then 8 else 16
    let H : Nat :=
      if op = 0x60#8 then (g.pktWord 2).toNat / 65536 % 512 else if op = 0x68#8 then 1 else if op = 0x70#8 then 8 else 16
    (g.execute cfg m).1 = g ∧
    (∀ x y : Nat, x < cfg.vramWidth → y < cfg.vramHeight → ((g.execute cfg m).2).pixel cfg x y =
      if (x0 ≤ x ∧ x < x0 + W ∧ y0 ≤ y ∧ y < y0 + H) ∧
          (g.clipX1.toNat ≤ x ∧ x ≤ g.clipX2.toNat ∧ g.clipY1.toNat ≤ y ∧ y ≤ g.clipY2.toNat) ∧
          ¬(g.maskCheck = true ∧ (m.pixel cfg x y).getLsbD 31 = true)
      then ((g.pktWord 0) &&& 0x00FFFFFF#32) ||| (if g.maskSet then 0x80000000#32 else 0#32) else m.pixel cfg x y) ∧
    (∀ a, regionOf cfg a ≠ some .vram → ((g.execute cfg m).2).read a = m.read a)

/-- 60_exceptions.md R386, R387, R402 to R404, R420: the transfers. Executing one of the two transfer packets starts a
transfer of its rectangle, whatever was running, and changes nothing else. One word of a transfer: to video RAM, the word
is plotted at the next pixel of the rectangle; from video RAM, the DATA port gives the next pixel; the transfer ends with
its last word. A read of DATA with no transfer gives 0 and changes nothing. Executing a copy packet goes through the
memories `M 0` to `M (W * H)`: turn `k` reads pixel (`k % W`, `k / W`) of the source rectangle from `M k`, which holds what
the turns before it wrote, and plots it at the same place of the destination rectangle. -/
def Obligations.GpuTransferWord : Prop :=
  (∀ (cfg : Config.Params) (g : Gpu) (m : Memory) (v : Word), ConfigOk cfg →
    let x := (g.xferX + g.xferI % g.xferW) % cfg.vramWidth
    let y := (g.xferY + g.xferI / g.xferW) % cfg.vramHeight
    let next : Gpu := { g with
      xferI := g.xferI + 1
      xferMode := if g.xferI + 1 = g.xferW * g.xferH then .none else g.xferMode }
    (g.xferMode = .toVram → (g.consume cfg m v).1 = next ∧
      (∀ x' y', x' < cfg.vramWidth → y' < cfg.vramHeight → ((g.consume cfg m v).2).pixel cfg x' y' =
        if x' = x ∧ y' = y ∧ ¬(g.maskCheck = true ∧ (m.pixel cfg x y).getLsbD 31 = true)
        then v ||| (if g.maskSet then 0x80000000#32 else 0#32) else m.pixel cfg x' y') ∧
      (∀ a, regionOf cfg a ≠ some .vram → ((g.consume cfg m v).2).read a = m.read a)) ∧
    (g.xferMode = .fromVram → g.dataRead cfg m = (m.pixel cfg x y, next)) ∧
    (g.xferMode ≠ .fromVram → g.dataRead cfg m = (0#32, g))) ∧
  (∀ (cfg : Config.Params) (g : Gpu) (m : Memory),
    let op := ((g.pktWord 0).extractLsb' 24 8).toNat
    let start (mode : XferMode) : Gpu := { g with
      xferX := (g.pktWord 1).toNat % 1024
      xferY := (g.pktWord 1).toNat / 65536 % 512
      xferW := if (g.pktWord 2).toNat % 1024 = 0 then 1024 else (g.pktWord 2).toNat % 1024
      xferH := if (g.pktWord 2).toNat / 65536 % 512 = 0 then 512 else (g.pktWord 2).toNat / 65536 % 512
      xferI := 0
      xferMode := mode }
    (0xA0 ≤ op → op ≤ 0xBF → g.execute cfg m = (start .toVram, m)) ∧
    (0xC0 ≤ op → op ≤ 0xDF → g.execute cfg m = (start .fromVram, m))) ∧
  (∀ (cfg : Config.Params) (g : Gpu) (m : Memory), ConfigOk cfg →
    0x80 ≤ ((g.pktWord 0).extractLsb' 24 8).toNat → ((g.pktWord 0).extractLsb' 24 8).toNat ≤ 0x9F →
    let SX := (g.pktWord 1).toNat % 1024
    let SY := (g.pktWord 1).toNat / 65536 % 512
    let DX := (g.pktWord 2).toNat % 1024
    let DY := (g.pktWord 2).toNat / 65536 % 512
    let W := if (g.pktWord 3).toNat % 1024 = 0 then 1024 else (g.pktWord 3).toNat % 1024
    let H := if (g.pktWord 3).toNat / 65536 % 512 = 0 then 512 else (g.pktWord 3).toNat / 65536 % 512
    ∃ M : Nat → Memory, M 0 = m ∧ g.execute cfg m = (g, M (W * H)) ∧ ∀ k, k < W * H →
      let source := (M k).pixel cfg ((SX + k % W) % cfg.vramWidth) ((SY + k / W) % cfg.vramHeight)
      (∀ x y, x < cfg.vramWidth → y < cfg.vramHeight → (M (k + 1)).pixel cfg x y =
        if x = (DX + k % W) % cfg.vramWidth ∧ y = (DY + k / W) % cfg.vramHeight ∧
            ¬(g.maskCheck = true ∧ ((M k).pixel cfg x y).getLsbD 31 = true)
        then source ||| (if g.maskSet then 0x80000000#32 else 0#32) else (M k).pixel cfg x y) ∧
      ∀ a, regionOf cfg a ≠ some .vram → (M (k + 1)).read a = (M k).read a)

/-! ## The tick -/

/-- 60_exceptions.md R390, 70_reset_and_hazards.md R450, R454: the end of a tick advances the raster line, and its wrap
raises the vertical-blank source and nothing else; and every step keeps the tick's invariant. These clauses rest on
choices of the model: that the count of cycles is a field of State and the tick ends in the step of its last cycle
(log 4), what a budget of 0 does (log 3), and what a line count of 0 does (log 5). -/
def Obligations.TickEnd : Prop :=
  (∀ s : State,
    (s.tickCycle + 1 < s.cfg.tickBudget → s.countCycle = { s with tickCycle := s.tickCycle + 1 }) ∧
    (s.cfg.tickBudget ≤ s.tickCycle + 1 → s.countCycle = State.tickEnd { s with tickCycle := 0 }) ∧
    (∃ (l : Word) (c : Ic),
      s.tickEnd = { s with bus := { s.bus with gpu := { s.bus.gpu with line := l }, ic := c } } ∧
      c.iMask = s.bus.ic.iMask ∧
      ((s.bus.gpu.line + 1#32).toNat < s.cfg.lineCount → l = s.bus.gpu.line + 1#32 ∧ c = s.bus.ic) ∧
      (s.cfg.lineCount ≤ (s.bus.gpu.line + 1#32).toNat → l = 0#32 ∧
        ∀ j, j < 32 → c.iStat.getLsbD j = (s.bus.ic.iStat.getLsbD j || decide (j = s.cfg.irqVblank)))) ∧
    (TickInv s → TickInv s.countCycle)) ∧
  (∀ s t : State, step s = .next t → TickInv s → t.cfg = s.cfg ∧ TickInv t)
end

