-- ==== Sys2Proof/Laws/AddressMap.lean ====
section
/-! SUPPORT. Laws of the address decoder: the regions of a configuration that describes a machine are disjoint, aligned to
a word, and disjoint from the windows. -/

namespace Sys2Proof.Machine

variable {cfg : Config.Params}

theorem Region.contains_iff (r : Region) (p : Nat) :
    r.contains cfg p = true ↔ r.base cfg ≤ p ∧ p < r.base cfg + r.size cfg := by
  simp [Region.contains]

theorem Window.contains_iff (w : Window) (p : Nat) :
    w.contains cfg p = true ↔ w.base cfg ≤ p ∧ p < w.base cfg + w.size := by
  simp [Window.contains]

/-! ## The configuration -/

section
variable (budget : Nat)

/-- The listed ranges of the regions and the windows (20_memory.md R80, R82), as numbers. -/
theorem defaults_base (r : Region) : r.base { tickBudget := budget } = match r with
    | .wram => 0x00000000 | .vram => 0x1E000000 | .aux => 0x1F000000 | .spad => 0x1F800000 | .rom => 0x1FC00000 := by
  cases r <;> rfl

theorem defaults_size (r : Region) : r.size { tickBudget := budget } = match r with
    | .wram => 0x00200000 | .vram => 0x00200000 | .aux => 0x00010000 | .spad => 0x00000400 | .rom => 0x00080000 := by
  cases r <;> rfl

theorem defaults_window (w : Window) : w.base { tickBudget := budget } = match w with
    | .ic => 0x1F801070 | .dma => 0x1F801080 | .gpu => 0x1F801810 := by
  cases w <;> rfl

theorem defaults_vramSize : ({ tickBudget := budget } : Config.Params).vramSize =
    4 * (({ tickBudget := budget } : Config.Params).vramHeight * ({ tickBudget := budget } : Config.Params).vramWidth) := by
  have hs : ({ tickBudget := budget } : Config.Params).vramSize = 0x200000 := rfl
  have hh : ({ tickBudget := budget } : Config.Params).vramHeight = 512 := rfl
  have hw : ({ tickBudget := budget } : Config.Params).vramWidth = 1024 := rfl
  rw [hs, hh, hw]

theorem defaults_regionsApart {r q : Region} (h : r ≠ q) : Apart (r.base { tickBudget := budget })
    (r.size { tickBudget := budget }) (q.base { tickBudget := budget }) (q.size { tickBudget := budget }) := by
  rw [Apart, defaults_base, defaults_base, defaults_size, defaults_size]
  cases r <;> cases q <;> first | exact absurd rfl h | decide

theorem defaults_windowsApart {w v : Window} (h : w ≠ v) :
    Apart (w.base { tickBudget := budget }) w.size (v.base { tickBudget := budget }) v.size := by
  rw [Apart, defaults_window, defaults_window]
  cases w <;> cases v <;> first | exact absurd rfl h | decide

theorem defaults_windowsOutside (w : Window) (r : Region) : Apart (w.base { tickBudget := budget }) w.size
    (r.base { tickBudget := budget }) (r.size { tickBudget := budget }) := by
  rw [Apart, defaults_window, defaults_base, defaults_size]
  cases w <;> cases r <;> decide

theorem defaults_regionSize (r : Region) : ∃ k, 2 ≤ k ∧ r.size { tickBudget := budget } = 2 ^ k := by
  rw [defaults_size]
  cases r
  · exact ⟨21, by decide⟩
  · exact ⟨21, by decide⟩
  · exact ⟨16, by decide⟩
  · exact ⟨10, by decide⟩
  · exact ⟨19, by decide⟩

/-- The listed values describe a machine, whatever the tick's budget (00_scope.md R7). -/
theorem configOk_defaults : ConfigOk { tickBudget := budget } where
  regionSize := defaults_regionSize budget
  regionBase r := by rw [defaults_base, defaults_size]; cases r <;> decide
  regionTop r := by rw [defaults_base, defaults_size]; cases r <;> decide
  regionsApart _ _ h := defaults_regionsApart budget h
  windowBase w := by rw [defaults_window]; cases w <;> decide
  windowTop w := by rw [defaults_window]; cases w <;> decide
  windowsApart _ _ h := defaults_windowsApart budget h
  windowsOutside := defaults_windowsOutside budget
  vramSize := defaults_vramSize budget
  fifoDepth := show 2 ≤ 16 by decide
  pktMax := Nat.le_refl 12
  irqVblank := show 0 < 32 by decide
  irqDma := show 3 < 32 by decide

end

/-- A region is a whole number of aligned words. -/
theorem ConfigOk.region_word (ok : ConfigOk cfg) (r : Region) : r.base cfg % 4 = 0 ∧ r.size cfg % 4 = 0 := by
  obtain ⟨k, hk, hs⟩ := ok.regionSize r
  have h4 : 4 ∣ r.size cfg := by
    rw [hs, show k = 2 + (k - 2) by omega, Nat.pow_add]
    exact Nat.dvd_mul_right 4 _
  exact ⟨Nat.mod_eq_zero_of_dvd (Nat.dvd_trans h4 (Nat.dvd_of_mod_eq_zero (ok.regionBase r))), Nat.mod_eq_zero_of_dvd h4⟩

/-! ## Regions -/

/-- Of the first element of a list that passes a test, when no two elements pass it together. -/
theorem find?_eq_some_of_unique {α : Type} {l : List α} {p : α → Bool} {x : α} (hx : x ∈ l) (hp : p x = true)
    (unique : ∀ y, p y = true → y = x) : l.find? p = some x := by
  rcases h : l.find? p with _ | y
  · exact absurd hp (by simpa using List.find?_eq_none.mp h x hx)
  · rw [unique y (List.find?_some h)]

/-- A region that is found holds the address. -/
theorem regionOf_range {p : Nat} {r : Region} (h : regionOf cfg p = some r) :
    r.base cfg ≤ p ∧ p < r.base cfg + r.size cfg :=
  (Region.contains_iff r p).mp (List.find?_some (p := fun r : Region => r.contains cfg p) h)

/-- A physical address belongs to a region exactly when it lies in its range (20_memory.md R80). -/
theorem regionOf_eq_some (ok : ConfigOk cfg) {p : Nat} {r : Region} :
    regionOf cfg p = some r ↔ r.base cfg ≤ p ∧ p < r.base cfg + r.size cfg := by
  refine ⟨regionOf_range, fun h => find?_eq_some_of_unique (by cases r <;> decide) ((Region.contains_iff r p).mpr h) ?_⟩
  intro q hq
  rw [Region.contains_iff] at hq
  by_contra hne
  have := ok.regionsApart q r hne
  unfold Apart at this
  omega

/-- An address of no region. -/
theorem regionOf_eq_none {p : Nat} :
    regionOf cfg p = none ↔ ∀ r : Region, ¬(r.base cfg ≤ p ∧ p < r.base cfg + r.size cfg) := by
  rw [regionOf, List.find?_eq_none]
  constructor
  · intro h r hr
    exact h r (by cases r <;> decide) ((Region.contains_iff r p).mpr hr)
  · intro h r _ hr
    exact h r ((Region.contains_iff r p).mp hr)

/-- The bytes of an aligned word lie in one region. -/
theorem regionOf_word (ok : ConfigOk cfg) {p k : Nat} {r : Region} (ha : p % 4 = 0) (hk : k < 4) :
    regionOf cfg (p + k) = some r ↔ regionOf cfg p = some r := by
  rw [regionOf_eq_some ok, regionOf_eq_some ok]
  have hb := ok.region_word r
  omega

theorem regionOf_word_none (ok : ConfigOk cfg) {p k : Nat} (ha : p % 4 = 0) (hk : k < 4) :
    regionOf cfg (p + k) = none ↔ regionOf cfg p = none := by
  rcases hp : regionOf cfg p with _ | r
  · rcases hq : regionOf cfg (p + k) with _ | q
    · simp
    · rw [regionOf_word ok ha hk, hp] at hq
      cases hq
  · simp [(regionOf_word ok ha hk).mpr hp]

/-! ## Windows -/

/-- A window that is found holds the address. -/
theorem windowOf_range {p : Nat} {w : Window} (h : windowOf cfg p = some w) :
    w.base cfg ≤ p ∧ p < w.base cfg + w.size :=
  (Window.contains_iff w p).mp (List.find?_some (p := fun w : Window => w.contains cfg p) h)

/-- A physical address belongs to a window exactly when it lies in its range (20_memory.md R82). -/
theorem windowOf_eq_some (ok : ConfigOk cfg) {p : Nat} {w : Window} :
    windowOf cfg p = some w ↔ w.base cfg ≤ p ∧ p < w.base cfg + w.size := by
  refine ⟨windowOf_range, fun h => find?_eq_some_of_unique (by cases w <;> decide) ((Window.contains_iff w p).mpr h) ?_⟩
  intro v hv
  rw [Window.contains_iff] at hv
  by_contra hne
  have := ok.windowsApart v w hne
  unfold Apart at this
  omega

/-- The register at a byte offset of a window (20_memory.md R82). -/
theorem deviceRegOf_window (ok : ConfigOk cfg) (w : Window) {off : Nat} (h : off < w.size) :
    deviceRegOf cfg (w.base cfg + off) = some (w.regAt off) := by
  have hw : windowOf cfg (w.base cfg + off) = some w := (windowOf_eq_some ok).mpr ⟨by omega, by omega⟩
  rw [deviceRegOf, hw, Option.map_some, show w.base cfg + off - w.base cfg = off by omega]

/-- No address of a region lies in a window (20_memory.md R77). -/
theorem deviceRegOf_of_region (ok : ConfigOk cfg) {p : Nat} {r : Region} (h : regionOf cfg p = some r) :
    deviceRegOf cfg p = none := by
  have hr := regionOf_range h
  rcases hw : windowOf cfg p with _ | w
  · rw [deviceRegOf, hw, Option.map_none]
  · have := ok.windowsOutside w r
    have := windowOf_range hw
    unfold Apart at *
    omega

/-! ## Targets -/

theorem targetOfPhys_region {p q : Nat} {r : Region} : targetOfPhys cfg p = .region r q ↔ regionOf cfg p = some r ∧ q = p := by
  simp only [targetOfPhys]
  rcases hp : regionOf cfg p with _ | x
  · rcases deviceRegOf cfg p with _ | y <;> simp
  · simp [eq_comm]

/-- What it means that a virtual address decodes to a region (20_memory.md R79, R80). -/
theorem targetOf_region {a : Word} {r : Region} {p : Nat} :
    targetOf cfg a = .region r p ↔ physOf a = some p ∧ regionOf cfg p = some r := by
  simp only [targetOf]
  rcases h : physOf a with _ | q
  · simp
  · simp only [targetOfPhys_region, Option.some.injEq]
    constructor
    · rintro ⟨h, rfl⟩
      exact ⟨rfl, h⟩
    · rintro ⟨rfl, h⟩
      exact ⟨h, rfl⟩

/-- The aligned word of an address, as a number. -/
theorem alignWord_toNat (a : Word) : (alignWord a).toNat = a.toNat / 4 * 4 := by
  have h : alignWord a = (a >>> 2) <<< 2 := by
    apply BitVec.eq_of_getLsbD_eq
    intro i hi
    simp only [alignWord, BitVec.getLsbD_and, BitVec.getLsbD_shiftLeft, BitVec.getLsbD_ushiftRight]
    interval_cases i <;> simp
  have ha := a.isLt
  rw [h, BitVec.toNat_shiftLeft, BitVec.toNat_ushiftRight, Nat.shiftLeft_eq, Nat.shiftRight_eq_div_pow]
  omega

theorem laneOf_eq (a : Word) : laneOf a = a.toNat % 4 := rfl

theorem laneOf_lt (a : Word) : laneOf a < 4 := Nat.mod_lt _ (by omega)

/-- An aligned address is its own aligned word. -/
theorem alignWord_of_aligned {a : Word} (h : a.toNat % 4 = 0) : alignWord a = a := by
  apply BitVec.eq_of_toNat_eq
  rw [alignWord_toNat]
  omega

/-- A physical address is its virtual address less the base of its segment, a multiple of 512 MiB (20_memory.md R79). -/
theorem physOf_eq_some {a : Word} {p : Nat} : physOf a = some p ↔
    p < 0x20000000 ∧ (a.toNat = p ∨ a.toNat = 0x80000000 + p ∨ a.toNat = 0xA0000000 + p) := by
  simp only [physOf]
  repeat' split
  all_goals
    simp only [Option.some.injEq, reduceCtorEq, false_iff]
    omega

theorem physOf_lt {a : Word} {p : Nat} (h : physOf a = some p) : p < 0x20000000 := (physOf_eq_some.mp h).1

/-- The physical address of an address's aligned word. -/
theorem physOf_alignWord {a : Word} {p : Nat} (h : physOf a = some p) : physOf (alignWord a) = some (p - laneOf a) := by
  rw [physOf_eq_some] at h ⊢
  rw [alignWord_toNat, laneOf_eq]
  omega

theorem physOf_alignWord_none {a : Word} (h : physOf a = none) : physOf (alignWord a) = none := by
  rcases hp : physOf (alignWord a) with _ | p
  · rfl
  · exfalso
    rw [physOf_eq_some, alignWord_toNat] at hp
    have : physOf a = some (p + laneOf a) := by
      rw [physOf_eq_some, laneOf_eq]
      omega
    rw [h] at this
    cases this

/-- The physical address of an aligned virtual address is aligned. -/
theorem physOf_aligned {a : Word} {p : Nat} (h : physOf a = some p) (ha : a.toNat % 4 = 0) : p % 4 = 0 := by
  rw [physOf_eq_some] at h
  omega

/-- The aligned word of an address of a region lies in that region. -/
theorem targetOf_alignWord (ok : ConfigOk cfg) {a : Word} {r : Region} {p : Nat} (h : targetOf cfg a = .region r p) :
    targetOf cfg (alignWord a) = .region r (p - laneOf a) ∧ laneOf a ≤ p ∧ (p - laneOf a) % 4 = 0 := by
  rw [targetOf_region] at h
  have hp := physOf_eq_some.mp h.1
  have hl : laneOf a = p % 4 := by
    rw [laneOf_eq]
    omega
  have h4 : (p - laneOf a) % 4 = 0 := by omega
  refine ⟨targetOf_region.mpr ⟨physOf_alignWord h.1, ?_⟩, by omega, h4⟩
  rw [← regionOf_word ok h4 (laneOf_lt a)]
  rw [show p - laneOf a + laneOf a = p by omega]
  exact h.2

/-- The word a region access names is aligned and all of it lies in the region. -/
theorem targetOf_alignWord_region {a : Word} {r : Region} {p : Nat} (h : targetOf cfg (alignWord a) = .region r p) :
    p % 4 = 0 ∧ regionOf cfg p = some r := by
  rw [targetOf_region] at h
  refine ⟨physOf_aligned h.1 ?_, h.2⟩
  rw [alignWord_toNat]
  omega

end Sys2Proof.Machine
end

