-- ==== Sys2Proof/Laws/Memory.lean ====
section
/-! SUPPORT. Laws of memory: a read after a write, byte by byte, and the canonical form. -/

namespace Sys2Proof.Machine

theorem Memory.readCells_filter (cs : List Host.Cell) (a x : Nat) :
    Memory.readCells (cs.filter (fun c => c.1 != a)) x = if x = a then Memory.unlisted else Memory.readCells cs x := by
  induction cs with
  | nil => simp [Memory.readCells]
  | cons c cs ih =>
    obtain ⟨k, b⟩ := c
    by_cases hk : k = a
    · subst hk
      simp only [List.filter_cons, bne_self_eq_false, Bool.false_eq_true, ↓reduceIte, ih, Memory.readCells]
      split <;> simp_all [eq_comm]
    · simp only [List.filter_cons, bne_iff_ne, ne_eq, hk, not_false_eq_true, ↓reduceIte, Memory.readCells, ih]
      split <;> simp_all

theorem Memory.readCells_insertCell {cs : List Host.Cell} {a : Nat} (v : Byte) (x : Nat) (h : ∀ c ∈ cs, c.1 ≠ a) :
    Memory.readCells (Memory.insertCell a v cs) x = if x = a then v else Memory.readCells cs x := by
  induction cs with
  | nil => simp [Memory.insertCell, Memory.readCells, eq_comm]
  | cons c cs ih =>
    obtain ⟨k, b⟩ := c
    have hk : k ≠ a := h (k, b) (by simp)
    simp only [Memory.insertCell]
    split
    · simp only [Memory.readCells, eq_comm]
    · simp only [Memory.readCells, ih fun c hc => h c (by simp [hc])]
      split <;> simp_all

/-- A byte write is seen at its own address and nowhere else. -/
@[simp] theorem Memory.read_write (m : Memory) (a x : Nat) (v : Byte) :
    (m.write a v).read x = if x = a then v else m.read x := by
  simp only [Memory.read, Memory.write]
  split
  · rename_i hv
    rw [Memory.readCells_filter, hv]
  · rw [Memory.readCells_insertCell, Memory.readCells_filter]
    · split <;> rfl
    · intro c hc
      simpa using (List.mem_filter.mp hc).2

@[simp] theorem Memory.read_empty (a : Nat) : Memory.read ⟨[]⟩ a = 0#8 := rfl

theorem Memory.mem_insertCell {cs : List Host.Cell} {a : Nat} {v : Byte} {c : Host.Cell} :
    c ∈ Memory.insertCell a v cs ↔ c = (a, v) ∨ c ∈ cs := by
  induction cs with
  | nil => simp [Memory.insertCell]
  | cons d cs ih =>
    simp only [Memory.insertCell]
    split
    · simp
    · simp only [List.mem_cons, ih]
      tauto

theorem Memory.pairwise_insertCell {cs : List Host.Cell} {a : Nat} (v : Byte)
    (hs : cs.Pairwise fun c d => c.1 < d.1) (h : ∀ c ∈ cs, c.1 ≠ a) :
    (Memory.insertCell a v cs).Pairwise fun c d => c.1 < d.1 := by
  induction cs with
  | nil => simp [Memory.insertCell]
  | cons d cs ih =>
    have hd := h d (by simp)
    rw [List.pairwise_cons] at hs
    simp only [Memory.insertCell]
    split
    · rename_i hlt
      refine List.pairwise_cons.mpr ⟨?_, List.pairwise_cons.mpr hs⟩
      intro c hc
      rcases List.mem_cons.mp hc with rfl | hc
      · exact hlt
      · exact Nat.lt_trans hlt (hs.1 c hc)
    · refine List.pairwise_cons.mpr ⟨?_, ih hs.2 fun c hc => h c (by simp [hc])⟩
      intro c hc
      rcases Memory.mem_insertCell.mp hc with rfl | hc
      · show d.1 < a
        omega
      · exact hs.1 c hc

/-- A byte write keeps the canonical form. -/
theorem Memory.wf_write {m : Memory} (a : Nat) (v : Byte) (h : m.wf) : (m.write a v).wf := by
  have hs : (m.cells.filter fun c => c.1 != a).Pairwise fun c d => c.1 < d.1 := h.1.filter _
  have hn : ∀ c ∈ m.cells.filter (fun c => c.1 != a), c.2 ≠ Memory.unlisted := fun c hc =>
    h.2 c (List.mem_filter.mp hc).1
  simp only [Memory.write]
  split
  · exact ⟨hs, hn⟩
  · rename_i hv
    refine ⟨Memory.pairwise_insertCell v hs fun c hc => by simpa using (List.mem_filter.mp hc).2, ?_⟩
    intro c hc
    rcases Memory.mem_insertCell.mp hc with rfl | hc
    · exact hv
    · exact hn c hc

/-- A byte write lists no address but its own and those listed before. -/
theorem Memory.cells_write {m : Memory} {a : Nat} {v : Byte} {c : Host.Cell} (h : c ∈ (m.write a v).cells) :
    c.1 = a ∨ c ∈ m.cells := by
  simp only [Memory.write] at h
  split at h
  · exact .inr (List.mem_filter.mp h).1
  · rcases Memory.mem_insertCell.mp h with rfl | h
    · exact .inl rfl
    · exact .inr (List.mem_filter.mp h).1

/-- A property of memories that every byte write at an address in `P` keeps is kept by a lane write in `P`. -/
theorem Memory.writeLanes_induction {Q : Memory → Prop} {p : Nat} (m : Memory) (d : Word) (be : BitVec 4)
    (step : ∀ m k v, k < 4 → Q m → Q (m.write (p + k) v)) (h : Q m) : Q (m.writeLanes p d be) := by
  have lane : ∀ m k, k < 4 → Q m → Q (m.writeLane p d be k) := by
    intro m k hk hm
    simp only [Memory.writeLane]
    split
    · exact step m k _ hk hm
    · exact hm
  exact lane _ 3 (by omega) (lane _ 2 (by omega) (lane _ 1 (by omega) (lane _ 0 (by omega) h)))

/-- A lane write keeps the canonical form. -/
theorem Memory.wf_writeLanes {m : Memory} (p : Nat) (d : Word) (be : BitVec 4) (h : m.wf) : (m.writeLanes p d be).wf :=
  Memory.writeLanes_induction m d be (fun _ _ _ _ hm => Memory.wf_write _ _ hm) h

/-- A lane write is seen in the enabled bytes of its word and nowhere else. -/
theorem Memory.read_writeLanes (m : Memory) (p a : Nat) (d : Word) (be : BitVec 4) :
    (m.writeLanes p d be).read a =
      if p ≤ a ∧ a < p + 4 ∧ be.getLsbD (a - p) = true then laneByte d (a - p) else m.read a := by
  have lane : ∀ (m : Memory) (k : Nat), (m.writeLane p d be k).read a =
      if a = p + k ∧ be.getLsbD k = true then laneByte d k else m.read a := by
    intro m k
    simp only [Memory.writeLane]
    split
    · rename_i h
      simp [h]
    · rename_i h
      simp [h]
  simp only [Memory.writeLanes, lane]
  by_cases h : p ≤ a ∧ a < p + 4
  · obtain ⟨k, rfl⟩ : ∃ k, a = p + k := ⟨a - p, by omega⟩
    have hk : k = 0 ∨ k = 1 ∨ k = 2 ∨ k = 3 := by omega
    rcases hk with rfl | rfl | rfl | rfl <;> simp
  · have h0 : a ≠ p + 0 := by omega
    have h1 : a ≠ p + 1 := by omega
    have h2 : a ≠ p + 2 := by omega
    have h3 : a ≠ p + 3 := by omega
    rw [if_neg (fun c => h3 c.1), if_neg (fun c => h2 c.1), if_neg (fun c => h1 c.1), if_neg (fun c => h0 c.1),
      if_neg (fun c => h ⟨c.1, c.2.1⟩)]

/-- A word write, byte by byte. -/
theorem Memory.read_writeWord (m : Memory) (p a : Nat) (d : Word) :
    (m.writeWord p d).read a = if p ≤ a ∧ a < p + 4 then laneByte d (a - p) else m.read a := by
  rw [Memory.writeWord, Memory.read_writeLanes]
  by_cases h : p ≤ a ∧ a < p + 4
  · have hb : (0b1111#4).getLsbD (a - p) = true := by
      have hk : a - p = 0 ∨ a - p = 1 ∨ a - p = 2 ∨ a - p = 3 := by omega
      rcases hk with h | h | h | h <;> rw [h] <;> rfl
    rw [if_pos ⟨h.1, h.2, hb⟩, if_pos h]
  · rw [if_neg (fun c => h ⟨c.1, c.2.1⟩), if_neg h]

/-- The four byte lanes of a word make the word. -/
theorem laneByte_append (d : Word) : laneByte d 3 ++ laneByte d 2 ++ laneByte d 1 ++ laneByte d 0 = d := by
  apply BitVec.eq_of_getLsbD_eq
  intro i hi
  simp only [laneByte, BitVec.getLsbD_append, BitVec.getLsbD_extractLsb']
  by_cases h0 : i < 8
  · simp [h0]
  · by_cases h1 : i < 16
    · have : i - 8 < 8 := by omega
      simp [h0, this, show 8 + (i - 8) = i by omega]
    · by_cases h2 : i < 24
      · have a1 : ¬ i - 8 < 8 := by omega
        have a2 : i - 8 - 8 < 8 := by omega
        simp [h0, a1, a2, show 16 + (i - 8 - 8) = i by omega]
      · have a1 : ¬ i - 8 < 8 := by omega
        have a2 : ¬ i - 8 - 8 < 8 := by omega
        have a3 : i - 8 - 8 - 8 < 8 := by omega
        simp [h0, a1, a2, a3, show 24 + (i - 8 - 8 - 8) = i by omega]

/-- A word is read back as it was written. -/
@[simp] theorem Memory.readWord_writeWord_same (m : Memory) (p : Nat) (d : Word) :
    (m.writeWord p d).readWord p = d := by
  simp only [Memory.readWord, Memory.read_writeWord]
  simpa using laneByte_append d

/-- A word write leaves every word that does not overlap it. -/
theorem Memory.readWord_writeWord_other (m : Memory) {p q : Nat} (d : Word) (h : q + 4 ≤ p ∨ p + 4 ≤ q) :
    (m.writeWord p d).readWord q = m.readWord q := by
  simp only [Memory.readWord, Memory.read_writeWord]
  rw [if_neg (by omega), if_neg (by omega), if_neg (by omega), if_neg (by omega)]

/-- Byte lane `k` of a word read is the byte at `p + k`. -/
theorem laneByte_readWord (m : Memory) (p k : Nat) (h : k < 4) : laneByte (m.readWord p) k = m.read (p + k) := by
  have hk : k = 0 ∨ k = 1 ∨ k = 2 ∨ k = 3 := by omega
  apply BitVec.eq_of_getLsbD_eq
  intro i hi
  rcases hk with rfl | rfl | rfl | rfl <;>
    simp only [laneByte, Memory.readWord, BitVec.getLsbD_append, BitVec.getLsbD_extractLsb', hi, decide_true,
      Bool.true_and] <;>
    simp [hi, show ¬ 8 + i < 8 by omega, show ¬ 16 + i < 8 by omega, show ¬ 24 + i < 8 by omega,
      show 8 + i - 8 = i by omega, show 16 + i - 8 = 8 + i by omega, show 24 + i - 8 = 16 + i by omega]

end Sys2Proof.Machine
end

