-- ==== Sys2Proof/Laws/Bus.lean ====
section
/-! SUPPORT. Laws of the bus primitives: what a read answers, what a write changes, and when each is refused. -/

namespace Sys2Proof.Machine

variable {cfg : Config.Params}

/-! ## Reads -/

/-- Only a read of the DATA port changes anything (20_memory.md R92). -/
theorem deviceRead_bus {b : Bus} {reg : DeviceReg} (h : reg ≠ .gpuData) : (deviceRead cfg b reg).2 = b := by
  cases reg <;> first | rfl | exact absurd rfl h

/-- No read changes a byte of memory. -/
theorem deviceRead_mem (b : Bus) (reg : DeviceReg) : (deviceRead cfg b reg).2.mem = b.mem := by
  cases reg <;> rfl

theorem busReadWord_region {b : Bus} {a : Word} {r : Region} {p : Nat} (h : targetOf cfg a = .region r p) :
    busReadWord cfg b a = .ok (b.mem.readWord p, b) := by simp [busReadWord, h]

theorem busReadWord_device {b : Bus} {a : Word} {reg : DeviceReg} (h : targetOf cfg a = .device reg) :
    busReadWord cfg b a = .ok (deviceRead cfg b reg) := by simp [busReadWord, h]

theorem busReadWord_unmapped {b : Bus} {a : Word} (h : targetOf cfg a = .unmapped) : busReadWord cfg b a = .error .dbe := by
  simp [busReadWord, h]

/-- A read the bus answers changes no byte of memory. -/
theorem busReadWord_mem {b b' : Bus} {a : Word} {w : Word} (h : busReadWord cfg b a = .ok (w, b')) : b'.mem = b.mem := by
  rcases ht : targetOf cfg a with ⟨r, p⟩ | reg | _
  · rw [busReadWord_region ht] at h
    cases h
    rfl
  · rw [busReadWord_device ht] at h
    have : (deviceRead cfg b reg).2 = b' := by rw [Except.ok.inj h]
    rw [← this, deviceRead_mem]
  · rw [busReadWord_unmapped ht] at h
    cases h

/-- A read that passes the mode and alignment checks is the aligned word's lanes (20_memory.md R95). -/
theorem memRead_pass {user : Bool} {b : Bus} {a : Word} {sz : AccessSize} (hv : segmentViolation user a = false)
    (ha : a.toNat % sz.bytes = 0) :
    memRead cfg user b a sz = (busReadWord cfg b (alignWord a)).map fun r => (lanes r.1 (laneOf a) sz, r.2) := by
  simp [memRead, hv, ha]

theorem memRead_violation {user : Bool} {b : Bus} {a : Word} {sz : AccessSize} (hv : segmentViolation user a = true) :
    memRead cfg user b a sz = .error (.adel a) := by simp [memRead, hv]

/-- A misaligned read raises AdEL, whichever check comes first (20_memory.md R85, R89). -/
theorem memRead_misaligned {user : Bool} {b : Bus} {a : Word} {sz : AccessSize} (ha : a.toNat % sz.bytes ≠ 0) :
    memRead cfg user b a sz = .error (.adel a) := by simp [memRead, ha]

theorem memReadUnaligned_pass {user : Bool} {b : Bus} {a : Word} (hv : segmentViolation user a = false) :
    memReadUnaligned cfg user b a = busReadWord cfg b (alignWord a) := by simp [memReadUnaligned, hv]

theorem memReadUnaligned_violation {user : Bool} {b : Bus} {a : Word} (hv : segmentViolation user a = true) :
    memReadUnaligned cfg user b a = .error (.adel a) := by simp [memReadUnaligned, hv]

/-- The user-segment check of 20_memory.md R88. -/
theorem segmentViolation_eq_true {user : Bool} {a : Word} :
    segmentViolation user a = true ↔ user = true ∧ a.msb = true := by simp [segmentViolation]

theorem segmentViolation_eq_false {user : Bool} {a : Word} :
    segmentViolation user a = false ↔ ¬(user = true ∧ a.msb = true) := by
  rw [← segmentViolation_eq_true, Bool.not_eq_true]

/-- A fetch from a region reads its aligned word (20_memory.md R94). -/
theorem fetchWord_region {user : Bool} {b : Bus} {a : Word} {r : Region} {p : Nat}
    (hv : segmentViolation user a = false) (ha : a.toNat % 4 = 0) (h : targetOf cfg a = .region r p) :
    fetchWord cfg user b a = .ok (b.mem.readWord p) := by simp [fetchWord, hv, ha, h]

/-! ## Writes -/

/-- The bits of the byte mask (20_memory.md R93). -/
theorem byteMask_getLsbD (be : BitVec 4) (i : Nat) (h : i < 32) : (byteMask be).getLsbD i = be.getLsbD (i / 8) := by
  have bit : ∀ (c : Bool) (w : Word), (if c then w else 0#32).getLsbD i = (c && w.getLsbD i) := by
    intro c w
    cases c <;> simp
  simp only [byteMask, BitVec.getLsbD_or, bit]
  interval_cases i <;> simp

/-- A masked write of every bit replaces the word. -/
@[simp] theorem mergeMasked_full (old w : Word) : mergeMasked old w 0xFFFFFFFF#32 = w := by
  apply BitVec.eq_of_getLsbD_eq
  intro i hi
  simp only [mergeMasked, BitVec.getLsbD_or, BitVec.getLsbD_and, BitVec.getLsbD_not]
  interval_cases i <;> simp

/-- A masked write, bit by bit. -/
theorem mergeMasked_getLsbD (old w mask : Word) (i : Nat) :
    (mergeMasked old w mask).getLsbD i = if mask.getLsbD i then w.getLsbD i else old.getLsbD i := by
  by_cases hi : i < 32
  · simp only [mergeMasked, BitVec.getLsbD_or, BitVec.getLsbD_and, BitVec.getLsbD_not]
    rcases mask.getLsbD i <;> simp [hi]
  · have hge : ∀ x : Word, x.getLsbD i = false := fun x => BitVec.getLsbD_of_ge x i (by omega)
    simp [hge]

/-- What a byte-enabled write does, by what its address decodes to (20_memory.md R97). -/
theorem memWriteBE_eq {b : Bus} {a d : Word} {be : BitVec 4} : memWriteBE cfg b a d be =
    match targetOf cfg a with
    | .region .rom _ => .ok b
    | .region _ p => .ok { b with mem := b.mem.writeLanes p d be }
    | .device reg => .ok (deviceWrite cfg b reg d (byteMask be))
    | .unmapped => .error .dbe := rfl

theorem memWriteBE_region {b : Bus} {a d : Word} {be : BitVec 4} {r : Region} {p : Nat} (h : targetOf cfg a = .region r p)
    (hr : r ≠ .rom) : memWriteBE cfg b a d be = .ok { b with mem := b.mem.writeLanes p d be } := by
  rw [memWriteBE_eq, h]
  cases r <;> first | rfl | exact absurd rfl hr

theorem memWriteBE_rom {b : Bus} {a d : Word} {be : BitVec 4} {p : Nat} (h : targetOf cfg a = .region .rom p) :
    memWriteBE cfg b a d be = .ok b := by rw [memWriteBE_eq, h]

theorem memWriteBE_device {b : Bus} {a d : Word} {be : BitVec 4} {reg : DeviceReg} (h : targetOf cfg a = .device reg) :
    memWriteBE cfg b a d be = .ok (deviceWrite cfg b reg d (byteMask be)) := by rw [memWriteBE_eq, h]

theorem memWriteBE_unmapped {b : Bus} {a d : Word} {be : BitVec 4} (h : targetOf cfg a = .unmapped) :
    memWriteBE cfg b a d be = .error .dbe := by rw [memWriteBE_eq, h]

/-- A write that passes the mode and alignment checks is the byte-enabled write of 20_memory.md R96. -/
theorem memWrite_pass {user : Bool} {b : Bus} {a v : Word} {sz : AccessSize} (hv : segmentViolation user a = false)
    (ha : a.toNat % sz.bytes = 0) : memWrite cfg user b a sz v =
      memWriteBE cfg b (alignWord a) ((v &&& sz.mask) <<< (8 * laneOf a)) (sz.enables <<< laneOf a) := by
  simp [memWrite, hv, ha]

theorem memWrite_violation {user : Bool} {b : Bus} {a v : Word} {sz : AccessSize} (hv : segmentViolation user a = true) :
    memWrite cfg user b a sz v = .error (.ades a) := by simp [memWrite, hv]

theorem memWrite_misaligned {user : Bool} {b : Bus} {a v : Word} {sz : AccessSize} (ha : a.toNat % sz.bytes ≠ 0) :
    memWrite cfg user b a sz v = .error (.ades a) := by simp [memWrite, ha]

theorem memWriteUnaligned_pass {user : Bool} {b : Bus} {a : Word} {st : Word × BitVec 4}
    (hv : segmentViolation user a = false) : memWriteUnaligned cfg user b a st = memWriteBE cfg b (alignWord a) st.1 st.2 := by
  simp [memWriteUnaligned, hv]

theorem memWriteUnaligned_violation {user : Bool} {b : Bus} {a : Word} {st : Word × BitVec 4}
    (hv : segmentViolation user a = true) : memWriteUnaligned cfg user b a st = .error (.ades a) := by
  simp [memWriteUnaligned, hv]

/-! ## Lanes -/

/-- A byte lane of a word, bit by bit. -/
theorem laneByte_getLsbD (w : Word) (k i : Nat) (h : i < 8) : (laneByte w k).getLsbD i = w.getLsbD (8 * k + i) := by
  simp [laneByte, h]

/-- The lanes of a byte read are the byte. -/
theorem lanes_byte (w : Word) (k : Nat) : lanes w k .byte = (laneByte w k).setWidth 32 := by
  apply BitVec.eq_of_getLsbD_eq
  intro i hi
  simp only [lanes, AccessSize.mask, BitVec.getLsbD_and, BitVec.getLsbD_ushiftRight, BitVec.getLsbD_setWidth, laneByte,
    BitVec.getLsbD_extractLsb']
  interval_cases i <;> simp

/-- The lanes of a halfword read are two bytes. -/
theorem lanes_half (w : Word) (k : Nat) :
    lanes w k .half = (laneByte w (k + 1) ++ laneByte w k : BitVec 16).setWidth 32 := by
  apply BitVec.eq_of_getLsbD_eq
  intro i hi
  simp only [lanes, AccessSize.mask, BitVec.getLsbD_and, BitVec.getLsbD_ushiftRight, BitVec.getLsbD_setWidth, laneByte,
    BitVec.getLsbD_extractLsb', BitVec.getLsbD_append, Nat.mul_add]
  interval_cases i <;> simp [Nat.add_assoc]

/-- The lanes of an aligned word read are the word. -/
theorem lanes_word (w : Word) : lanes w 0 .word = w := by
  apply BitVec.eq_of_getLsbD_eq
  intro i hi
  simp only [lanes, AccessSize.mask, BitVec.getLsbD_and, BitVec.getLsbD_ushiftRight]
  interval_cases i <;> simp

/-- A byte lane of a word shifted left by whole bytes. -/
theorem laneByte_shiftLeft (w : Word) (j k : Nat) (hj : j < 4) (h : k ≤ j) :
    laneByte (w <<< (8 * k)) j = laneByte w (j - k) := by
  apply BitVec.eq_of_getLsbD_eq
  intro i hi
  rw [laneByte_getLsbD _ _ _ hi, laneByte_getLsbD _ _ _ hi, BitVec.getLsbD_shiftLeft]
  have h1 : 8 * j + i < 32 := by omega
  have h2 : ¬ 8 * j + i < 8 * k := by omega
  rw [show 8 * j + i - 8 * k = 8 * (j - k) + i by omega]
  simp [h1, h2]

/-- A byte lane of a word shifted right by whole bytes. -/
theorem laneByte_ushiftRight (w : Word) (j k : Nat) : laneByte (w >>> (8 * k)) j = laneByte w (j + k) := by
  apply BitVec.eq_of_getLsbD_eq
  intro i hi
  rw [laneByte_getLsbD _ _ _ hi, laneByte_getLsbD _ _ _ hi, BitVec.getLsbD_ushiftRight]
  congr 1
  omega

/-- The low lanes of a truncated value are those of the value (20_memory.md R96). -/
theorem laneByte_mask (w : Word) (sz : AccessSize) (j : Nat) (h : j < sz.bytes) :
    laneByte (w &&& sz.mask) j = laneByte w j := by
  apply BitVec.eq_of_getLsbD_eq
  intro i hi
  rw [laneByte_getLsbD _ _ _ hi, laneByte_getLsbD _ _ _ hi, BitVec.getLsbD_and]
  have : sz.mask.getLsbD (8 * j + i) = true := by
    cases sz <;> simp only [AccessSize.bytes] at h <;> simp only [AccessSize.mask] <;> interval_cases j <;>
      interval_cases i <;> rfl
  simp [this]

/-- The enabled lanes of an access of width `sz` at lane `k`. -/
theorem enables_getLsbD (sz : AccessSize) (k j : Nat) (hj : j < 4) :
    (sz.enables <<< k).getLsbD j = true ↔ k ≤ j ∧ j < k + sz.bytes := by
  rw [BitVec.getLsbD_shiftLeft]
  have h : ∀ n, sz.enables.getLsbD n = decide (n < sz.bytes) := by
    intro n
    by_cases hn : n < 4
    · cases sz <;> interval_cases n <;> rfl
    · rw [BitVec.getLsbD_of_ge _ _ (by omega)]
      have : ¬ n < sz.bytes := by cases sz <;> simp only [AccessSize.bytes] <;> omega
      simp [this]
  rw [h]
  simp only [Bool.and_eq_true, decide_eq_true_eq, Bool.not_eq_eq_eq_not, Bool.not_true, decide_eq_false_iff_not]
  omega

/-- What an aligned write of width `sz` to a region leaves in every byte: the value's low bytes in the bytes of the
access, everything else as before (20_memory.md R96, R97). -/
theorem read_writeLanes_access (m : Memory) (p k a : Nat) (v : Word) (sz : AccessSize) (hk : k + sz.bytes ≤ 4) :
    (m.writeLanes p ((v &&& sz.mask) <<< (8 * k)) (sz.enables <<< k)).read a =
      if p + k ≤ a ∧ a < p + k + sz.bytes then laneByte v (a - (p + k)) else m.read a := by
  rw [Memory.read_writeLanes]
  by_cases h : p + k ≤ a ∧ a < p + k + sz.bytes
  · have hj : a - p < 4 := by omega
    rw [if_pos ⟨by omega, by omega, (enables_getLsbD sz k (a - p) hj).mpr (by omega)⟩, if_pos h,
      laneByte_shiftLeft _ _ _ hj (by omega), show a - p - k = a - (p + k) by omega, laneByte_mask _ _ _ (by omega)]
  · rw [if_neg h, if_neg]
    rintro ⟨h1, h2, h3⟩
    rw [enables_getLsbD sz k (a - p) (by omega)] at h3
    exact h (by omega)

end Sys2Proof.Machine
end

