-- ==== Sys2Proof/Laws/Gpu.lean ====
section
/-! SUPPORT. Laws of the GPU: a pixel after a write or a plot, the pixels of a rectangle, and what the processor can do
to memory: any property that every byte write outside rom keeps is kept by every operation of the GPU. -/

namespace Sys2Proof.Machine

variable {cfg : Config.Params}

/-! ## Pixels -/

/-- A pixel of video RAM is an aligned word of the region. -/
theorem vramAddr_aligned (ok : ConfigOk cfg) {x y : Nat} (hx : x < cfg.vramWidth) (hy : y < cfg.vramHeight) :
    vramAddr cfg x y % 4 = 0 ∧ regionOf cfg (vramAddr cfg x y) = some .vram := by
  have hb : cfg.vramBase % 4 = 0 := (ok.region_word .vram).1
  have hxy : y * cfg.vramWidth + x < cfg.vramHeight * cfg.vramWidth := by
    have := Nat.mul_le_mul_right cfg.vramWidth (show y + 1 ≤ cfg.vramHeight by omega)
    rw [Nat.add_mul] at this
    omega
  have hs := ok.vramSize
  refine ⟨?_, (regionOf_eq_some ok).mpr ?_⟩
  · simp only [vramAddr]
    omega
  · simp only [vramAddr, Region.base, Region.size]
    omega

/-- Two pixels have one address only if they are the same. -/
theorem vramAddr_inj {x y x' y' : Nat} (hx : x < cfg.vramWidth) (hx' : x' < cfg.vramWidth) :
    vramAddr cfg x y = vramAddr cfg x' y' ↔ x = x' ∧ y = y' := by
  constructor
  · intro h
    have hd := congrArg (fun n => (n - cfg.vramBase) / 4 / cfg.vramWidth) h
    have hm := congrArg (fun n => (n - cfg.vramBase) / 4 % cfg.vramWidth) h
    simp only [vramAddr, Nat.add_sub_cancel_left, Nat.mul_div_cancel_left _ (show 0 < 4 by omega)] at hd hm
    rw [Nat.add_comm, Nat.add_mul_mod_self_right, Nat.mod_eq_of_lt hx, Nat.add_comm (y' * _),
      Nat.add_mul_mod_self_right, Nat.mod_eq_of_lt hx'] at hm
    rw [Nat.add_comm, Nat.add_mul_div_right _ _ (by omega), Nat.div_eq_of_lt hx, Nat.add_comm (y' * _),
      Nat.add_mul_div_right _ _ (by omega), Nat.div_eq_of_lt hx'] at hd
    omega
  · rintro ⟨rfl, rfl⟩
    rfl

/-- A pixel write is seen at its own pixel and at no other (60_exceptions.md R420). -/
theorem pixel_setPixel (m : Memory) {x y x' y' : Nat} (c : Word) (hx : x < cfg.vramWidth) (hx' : x' < cfg.vramWidth) :
    (m.setPixel cfg x y c).pixel cfg x' y' = if x' = x ∧ y' = y then c else m.pixel cfg x' y' := by
  simp only [Memory.setPixel, Memory.pixel]
  split
  · rename_i h
    rw [h.1, h.2, Memory.readWord_writeWord_same]
  · rename_i h
    apply Memory.readWord_writeWord_other
    have := mt (vramAddr_inj (y := y') (y' := y) hx' hx).mp h
    simp only [vramAddr] at *
    omega

/-- A pixel write changes no byte outside video RAM. -/
theorem read_setPixel (ok : ConfigOk cfg) (m : Memory) {x y a : Nat} (c : Word) (hx : x < cfg.vramWidth)
    (hy : y < cfg.vramHeight) (ha : regionOf cfg a ≠ some .vram) : (m.setPixel cfg x y c).read a = m.read a := by
  rw [Memory.setPixel, Memory.read_writeWord, if_neg]
  rintro ⟨h1, h2⟩
  apply ha
  rw [show a = vramAddr cfg x y + (a - vramAddr cfg x y) by omega,
    regionOf_word ok (vramAddr_aligned ok hx hy).1 (by omega)]
  exact (vramAddr_aligned ok hx hy).2

/-- The width and the height of the video RAM are not 0. -/
theorem ConfigOk.vram_pos (ok : ConfigOk cfg) : 0 < cfg.vramWidth ∧ 0 < cfg.vramHeight := by
  obtain ⟨k, -, hs⟩ := ok.regionSize .vram
  have hp : 0 < cfg.vramSize := by
    show 0 < Region.size cfg .vram
    rw [hs]
    exact Nat.two_pow_pos k
  rw [ok.vramSize] at hp
  constructor <;> refine Nat.pos_of_ne_zero fun h => ?_ <;> simp [h] at hp

/-- A plot, pixel by pixel: the mask bit is set in what is written, and a protected pixel is left (R420). -/
theorem pixel_plot (g : Gpu) (m : Memory) {x y x' y' : Nat} (c : Word) (hx : x < cfg.vramWidth)
    (hx' : x' < cfg.vramWidth) : (g.plot cfg m x y c).pixel cfg x' y' =
      if x' = x ∧ y' = y ∧ ¬(g.maskCheck = true ∧ (m.pixel cfg x' y').getLsbD 31 = true)
      then c ||| g.maskBit else m.pixel cfg x' y' := by
  simp only [Gpu.plot]
  by_cases hp : x' = x ∧ y' = y
  · obtain ⟨rfl, rfl⟩ := hp
    split
    · rename_i h
      simp_all
    · rename_i h
      rw [pixel_setPixel _ _ hx hx']
      simp_all
  · rw [if_neg (c := x' = x ∧ y' = y ∧ _) (fun c => hp ⟨c.1, c.2.1⟩)]
    split
    · rfl
    · rw [pixel_setPixel _ _ hx hx', if_neg hp]

/-- A plot changes no byte outside video RAM. -/
theorem read_plot (ok : ConfigOk cfg) (g : Gpu) (m : Memory) {x y a : Nat} (c : Word) (hx : x < cfg.vramWidth)
    (hy : y < cfg.vramHeight) (ha : regionOf cfg a ≠ some .vram) : (g.plot cfg m x y c).read a = m.read a := by
  simp only [Gpu.plot]
  split
  · rfl
  · exact read_setPixel ok m _ hx hy ha

/-! ## Rectangles -/

/-- What every turn keeps, the rectangle keeps. -/
theorem forRect_induction {P : Memory → Prop} {w h : Nat} {f : Nat → Nat → Memory → Memory} {m : Memory}
    (turn : ∀ i j m, i < w → j < h → P m → P (f i j m)) (hm : P m) : P (forRect w h f m) := by
  have fold : ∀ (l : List Nat) (g : Memory → Nat → Memory), (∀ m i, i ∈ l → P m → P (g m i)) →
      ∀ m, P m → P (l.foldl g m) := by
    intro l
    induction l with
    | nil => intro g _ m hm; exact hm
    | cons a l ih =>
      intro g hg m hm
      exact ih g (fun m i hi => hg m i (by simp [hi])) _ (hg m a (by simp) hm)
  refine fold _ _ (fun m j hj hm => ?_) _ hm
  exact fold _ _ (fun m i hi hm => turn i j m (List.mem_range.mp hi) (List.mem_range.mp hj) hm) _ hm

/-- A rectangle whose every turn changes the pixels it hits by one idempotent change `upd` changes by `upd` exactly the
pixels that some turn hits. -/
theorem pixel_forRect {w h : Nat} {f : Nat → Nat → Memory → Memory} {x y : Nat} {hit : Nat → Nat → Prop}
    [∀ i j, Decidable (hit i j)] {upd : Word → Word} (idem : ∀ v, upd (upd v) = upd v)
    (turn : ∀ i j m, (f i j m).pixel cfg x y = if hit i j then upd (m.pixel cfg x y) else m.pixel cfg x y) (m : Memory) :
    ((∃ i j, i < w ∧ j < h ∧ hit i j) → (forRect w h f m).pixel cfg x y = upd (m.pixel cfg x y)) ∧
    ((¬∃ i j, i < w ∧ j < h ∧ hit i j) → (forRect w h f m).pixel cfg x y = m.pixel cfg x y) := by
  have fold : ∀ (l : List Nat) (g : Memory → Nat → Memory) (q : Nat → Prop),
      (∀ m i, i ∈ l → (q i → (g m i).pixel cfg x y = upd (m.pixel cfg x y)) ∧
        (¬q i → (g m i).pixel cfg x y = m.pixel cfg x y)) →
      ∀ m, ((∃ i ∈ l, q i) → (l.foldl g m).pixel cfg x y = upd (m.pixel cfg x y)) ∧
        ((¬∃ i ∈ l, q i) → (l.foldl g m).pixel cfg x y = m.pixel cfg x y) := by
    intro l
    induction l with
    | nil => intro g q _ m; simp
    | cons a l ih =>
      intro g q hg m
      have ih' := ih g q (fun m i hi => hg m i (by simp [hi])) (g m a)
      have ha := hg m a (by simp)
      simp only [List.foldl_cons]
      constructor
      · intro hq
        by_cases hl : ∃ i ∈ l, q i
        · rw [ih'.1 hl]
          by_cases qa : q a
          · rw [ha.1 qa, idem]
          · rw [ha.2 qa]
        · rw [ih'.2 hl]
          obtain ⟨i, hi, qi⟩ := hq
          rcases List.mem_cons.mp hi with rfl | hi
          · exact ha.1 qi
          · exact absurd ⟨i, hi, qi⟩ hl
      · intro hq
        have hl : ¬∃ i ∈ l, q i := fun ⟨i, hi, qi⟩ => hq ⟨i, by simp [hi], qi⟩
        rw [ih'.2 hl, ha.2 fun qa => hq ⟨a, by simp, qa⟩]
  have inner : ∀ (m : Memory) (j : Nat),
      ((∃ i, i < w ∧ hit i j) → ((List.range w).foldl (fun m i => f i j m) m).pixel cfg x y = upd (m.pixel cfg x y)) ∧
      ((¬∃ i, i < w ∧ hit i j) → ((List.range w).foldl (fun m i => f i j m) m).pixel cfg x y = m.pixel cfg x y) := by
    intro m j
    have := fold (List.range w) (fun m i => f i j m) (fun i => hit i j)
      (fun m i _ => ⟨fun q => by rw [turn, if_pos q], fun q => by rw [turn, if_neg q]⟩) m
    simpa [List.mem_range] using this
  have outer := fold (List.range h) (fun m j => (List.range w).foldl (fun m i => f i j m) m)
    (fun j => ∃ i, i < w ∧ hit i j) (fun m j _ => inner m j) m
  refine ⟨fun ⟨i, j, hi, hj, q⟩ => outer.1 ⟨j, List.mem_range.mpr hj, i, hi, q⟩, fun q => outer.2 ?_⟩
  rintro ⟨j, hj, i, hi, p⟩
  exact q ⟨i, j, hi, List.mem_range.mp hj, p⟩

/-! ## What the GPU can do to memory -/

section
variable {P : Memory → Prop} (ok : ConfigOk cfg)
  (byte : ∀ (m : Memory) (a : Nat) (v : Byte), regionOf cfg a = some .vram → P m → P (m.write a v))
include ok byte

theorem setPixel_keeps {m : Memory} {x y : Nat} (c : Word) (hx : x < cfg.vramWidth)
    (hy : y < cfg.vramHeight) (hm : P m) :
    P (m.setPixel cfg x y c) := by
  rw [Memory.setPixel, Memory.writeWord]
  refine Memory.writeLanes_induction m c _ (fun m k v hk hm => byte m _ v ?_ hm) hm
  rw [regionOf_word ok (vramAddr_aligned ok hx hy).1 hk]
  exact (vramAddr_aligned ok hx hy).2

theorem plot_keeps (g : Gpu) {m : Memory} {x y : Nat} (c : Word) (hx : x < cfg.vramWidth)
    (hy : y < cfg.vramHeight) (hm : P m) :
    P (g.plot cfg m x y c) := by
  simp only [Gpu.plot]
  split
  · exact hm
  · exact setPixel_keeps ok byte _ hx hy hm

/-- A packet's execution changes memory by byte writes in video RAM only. -/
theorem Gpu.execute_keeps (g : Gpu) {m : Memory} (hm : P m) : P (g.execute cfg m).2 := by
  simp only [Gpu.execute]
  split <;> try exact hm
  · exact forRect_induction (fun i j m _ _ hm =>
      setPixel_keeps ok byte _ (Nat.mod_lt _ ok.vram_pos.1) (Nat.mod_lt _ ok.vram_pos.2) hm) hm
  · have fold : ∀ (l : List (Config.Pixel cfg.vramWidth cfg.vramHeight)) (m : Memory), P m → P (l.foldl (fun m q =>
        if g.inClip q.1.val q.2.1.val then g.plot cfg m q.1.val q.2.1.val q.2.2 else m) m) := by
      intro l
      induction l with
      | nil => intro m hm; exact hm
      | cons q l ih =>
        intro m hm
        refine ih _ ?_
        dsimp only
        split
        · exact plot_keeps ok byte g _ q.1.isLt q.2.1.isLt hm
        · exact hm
    exact fold _ m hm
  · refine forRect_induction (fun i j m _ _ hm => ?_) hm
    dsimp only
    split
    · rename_i h
      simp only [inVram, Bool.and_eq_true, decide_eq_true_eq] at h
      exact plot_keeps ok byte g _ (by omega) (by omega) hm
    · exact hm
  · exact forRect_induction (fun i j m _ _ hm =>
      plot_keeps ok byte g _ (Nat.mod_lt _ ok.vram_pos.1) (Nat.mod_lt _ ok.vram_pos.2) hm) hm

theorem Gpu.finishPacket_keeps (g : Gpu) {m : Memory} (hm : P m) : P (g.finishPacket cfg m).2 := by
  simp only [Gpu.finishPacket]
  split
  · exact Gpu.execute_keeps ok byte g hm
  · exact hm

theorem Gpu.consume_keeps (g : Gpu) {m : Memory} (v : Word) (hm : P m) : P (g.consume cfg m v).2 := by
  simp only [Gpu.consume]
  split
  · exact plot_keeps ok byte g _ (Nat.mod_lt _ ok.vram_pos.1) (Nat.mod_lt _ ok.vram_pos.2) hm
  · split
    · split
      · exact hm
      · exact Gpu.finishPacket_keeps ok byte _ hm
    · exact Gpu.finishPacket_keeps ok byte _ hm

theorem Gpu.drain_keeps (n : Nat) (g : Gpu) {m : Memory} (hm : P m) : P (Gpu.drain cfg n g m).2 := by
  induction n generalizing g m with
  | zero => exact hm
  | succ n ih =>
    simp only [Gpu.drain]
    split
    · exact hm
    · exact ih _ (Gpu.consume_keeps ok byte _ _ hm)

/-- A word written to CMD changes memory by byte writes in video RAM only. -/
theorem Gpu.write_keeps (g : Gpu) {m : Memory} (w : Word) (hm : P m) : P (g.write cfg m w).2 :=
  Gpu.drain_keeps ok byte _ _ hm

end

/-! ## What the GPU's operations leave of its own state -/

/-- What a word consumed leaves: the FIFO and the raster line. -/
structure SameQueue (g h : Gpu) : Prop where
  fifo : h.fifo = g.fifo
  fifoRd : h.fifoRd = g.fifoRd
  fifoWr : h.fifoWr = g.fifoWr
  line : h.line = g.line

theorem Gpu.execute_queue (cfg : Config.Params) (g : Gpu) (m : Memory) : SameQueue g (g.execute cfg m).1 := by
  simp only [Gpu.execute]
  split <;> exact ⟨rfl, rfl, rfl, rfl⟩

/-- Execution leaves the packet registers; only the two transfer packets touch the transfer. -/
theorem Gpu.execute_packet (cfg : Config.Params) (g : Gpu) (m : Memory) :
    (g.execute cfg m).1.pkt = g.pkt ∧ (g.execute cfg m).1.pktLen = g.pktLen ∧
    (g.execute cfg m).1.pktNeed = g.pktNeed := by
  simp only [Gpu.execute]
  split <;> exact ⟨rfl, rfl, rfl⟩

/-- Execution leaves the transfer state as it was or starts a transfer. -/
theorem Gpu.execute_transfer (cfg : Config.Params) (g : Gpu) (m : Memory) :
    ((g.execute cfg m).1.xferMode = g.xferMode ∧ (g.execute cfg m).1.xferX = g.xferX ∧ (g.execute cfg m).1.xferY = g.xferY ∧
      (g.execute cfg m).1.xferW = g.xferW ∧ (g.execute cfg m).1.xferH = g.xferH ∧ (g.execute cfg m).1.xferI = g.xferI) ∨
    ∃ mode, (g.execute cfg m).1 = g.startTransfer mode := by
  simp only [Gpu.execute]
  split <;> first | exact .inr ⟨_, rfl⟩ | exact .inl ⟨rfl, rfl, rfl, rfl, rfl, rfl⟩

theorem Gpu.finishPacket_queue (cfg : Config.Params) (g : Gpu) (m : Memory) : SameQueue g (g.finishPacket cfg m).1 := by
  simp only [Gpu.finishPacket]
  split
  · have h := Gpu.execute_queue cfg g m
    exact ⟨h.fifo, h.fifoRd, h.fifoWr, h.line⟩
  · exact ⟨rfl, rfl, rfl, rfl⟩

theorem Gpu.consume_queue (cfg : Config.Params) (g : Gpu) (m : Memory) (v : Word) : SameQueue g (g.consume cfg m v).1 := by
  simp only [Gpu.consume]
  split
  · exact ⟨rfl, rfl, rfl, rfl⟩
  · split
    · split
      · exact ⟨rfl, rfl, rfl, rfl⟩
      · have h := Gpu.finishPacket_queue cfg
          { g with pkt := g.pkt.set 0 v, pktLen := 1, pktNeed := packetLen (v.extractLsb' 24 8) } m
        exact ⟨h.fifo, h.fifoRd, h.fifoWr, h.line⟩
    · have h := Gpu.finishPacket_queue cfg { g with pkt := g.pkt.set g.pktLen v, pktLen := g.pktLen + 1 } m
      exact ⟨h.fifo, h.fifoRd, h.fifoWr, h.line⟩

/-- The widths and heights of a started transfer are in range. -/
theorem wrapWidth_range (v : Word) : 1 ≤ wrapWidth v ∧ wrapWidth v ≤ 1024 := by
  have := (v.extractLsb' 0 10 - 1#10).isLt
  simp only [wrapWidth]
  omega

theorem wrapHeight_range (v : Word) : 1 ≤ wrapHeight v ∧ wrapHeight v ≤ 512 := by
  have := (v.extractLsb' 16 9 - 1#9).isLt
  simp only [wrapHeight]
  omega

theorem xField_lt (v : Word) : xField v < 1024 := (v.extractLsb' 0 10).isLt

theorem yField_lt (v : Word) : yField v < 512 := (v.extractLsb' 16 9).isLt

/-- No packet is longer than 12 words (60_exceptions.md R388). -/
theorem packetLen_le (op : BitVec 8) : packetLen op ≤ 12 := by
  simp only [packetLen]
  repeat' split
  all_goals decide

end Sys2Proof.Machine
end

