-- ==== Sys2Proof/Laws/Dma.lean ====
section
/-! SUPPORT. Laws of the DMA controller: its channels, what a moved word and a channel's turn can change, and what
every turn keeps, the whole step keeps. -/

namespace Sys2Proof.Machine

variable {cfg : Config.Params}

/-! ## Channels -/

@[simp] theorem Dma.channel_setChannel (d : Dma) (n m : ChanIdx) (c : Channel) :
    (d.setChannel n c).channel m = if m = n then c else d.channel m := by
  simp only [Dma.channel, Dma.setChannel, Vector.get_eq_getElem, Vector.getElem_set]
  by_cases h : m = n
  · subst h
    simp
  · have : n.val ≠ m.val := fun c => h (Fin.ext c.symm)
    simp [h, this]

@[simp] theorem Dma.setChannel_dpcr (d : Dma) (n : ChanIdx) (c : Channel) : (d.setChannel n c).dpcr = d.dpcr := rfl
@[simp] theorem Dma.setChannel_flag (d : Dma) (n : ChanIdx) (c : Channel) : (d.setChannel n c).flag = d.flag := rfl
@[simp] theorem Dma.setChannel_en (d : Dma) (n : ChanIdx) (c : Channel) : (d.setChannel n c).en = d.en := rfl
@[simp] theorem Dma.setChannel_master (d : Dma) (n : ChanIdx) (c : Channel) : (d.setChannel n c).master = d.master := rfl
@[simp] theorem Dma.setChannel_enabled (d : Dma) (n : ChanIdx) (c : Channel) :
    (d.setChannel n c).enabled = d.enabled := rfl

@[simp] theorem Channel.advance_madr (c : Channel) : c.advance.madr = c.madr := rfl
@[simp] theorem Channel.advance_bcr (c : Channel) : c.advance.bcr = c.bcr := rfl
@[simp] theorem Channel.advance_chcr (c : Channel) : c.advance.chcr = c.chcr := rfl
@[simp] theorem Channel.advance_st (c : Channel) : c.advance.st = c.st := rfl
@[simp] theorem Channel.advance_len (c : Channel) : c.advance.len = c.len - 1#32 := rfl
@[simp] theorem Channel.advance_cur (c : Channel) :
    c.advance.cur = if c.chcr.getLsbD 1 then c.cur - 4#32 else c.cur + 4#32 := rfl

/-- The completion bits, one flag set (60_exceptions.md R365). -/
theorem flag_completed (f : BitVec 8) (n j : ChanIdx) :
    (f ||| (1#8 <<< n.val)).getLsbD j.val = (f.getLsbD j.val || decide (j = n)) := by
  rw [BitVec.getLsbD_or, BitVec.getLsbD_shiftLeft]
  congr 1
  revert n j
  decide

/-! ## One word moved -/

/-- The address of a moved word is aligned (20_memory.md R107). -/
theorem dmaAddr_aligned (c : Word) : dmaAddr c % 4 = 0 := by
  have h : c &&& 0x1FFFFFFC#32 = (c.extractLsb' 2 27).setWidth 32 <<< 2 := by
    apply BitVec.eq_of_getLsbD_eq
    intro i hi
    simp only [BitVec.getLsbD_and, BitVec.getLsbD_shiftLeft, BitVec.getLsbD_setWidth, BitVec.getLsbD_extractLsb']
    interval_cases i <;> simp
  have hw := (c.extractLsb' 2 27).isLt
  rw [dmaAddr, h, BitVec.toNat_shiftLeft, BitVec.toNat_setWidth, Nat.shiftLeft_eq]
  norm_num

/-- The cursor itself, when it is an aligned physical address. -/
theorem dmaAddr_of_aligned {c : Word} (h4 : c.toNat % 4 = 0) (hc : c.toNat < 0x20000000) : dmaAddr c = c.toNat := by
  rw [dmaAddr]
  congr 1
  apply BitVec.eq_of_getLsbD_eq
  intro i hi
  rw [BitVec.getLsbD_and]
  have h01 : c.getLsbD 0 = false ∧ c.getLsbD 1 = false := by
    constructor <;> (simp only [BitVec.getLsbD, Nat.testBit_eq_decide_div_mod_eq]; simp; omega)
  have hhi : ∀ k, 29 ≤ k → c.getLsbD k = false := by
    intro k hk
    rw [BitVec.getLsbD]
    exact Nat.testBit_lt_two_pow (Nat.lt_of_lt_of_le hc (Nat.pow_le_pow_right (n := 2) (by omega) hk))
  have h29 := hhi 29 (by omega)
  have h30 := hhi 30 (by omega)
  have h31 := hhi 31 (by omega)
  interval_cases i <;> simp_all

/-- A word moved to memory, byte by byte: only the writable regions take it (20_memory.md R107). -/
theorem read_dmaWrite (ok : ConfigOk cfg) (m : Memory) (c w : Word) (a : Nat) : (dmaWrite cfg m c w).read a =
    if dmaAddr c ≤ a ∧ a < dmaAddr c + 4 ∧ (∃ r, regionOf cfg a = some r ∧ r ≠ .rom) then laneByte w (a - dmaAddr c)
    else m.read a := by
  have word : ∀ r, (dmaAddr c ≤ a ∧ a < dmaAddr c + 4) → (regionOf cfg a = some r ↔ regionOf cfg (dmaAddr c) = some r) := by
    intro r h
    rw [← regionOf_word ok (dmaAddr_aligned c) (k := a - dmaAddr c) (by omega), show dmaAddr c + (a - dmaAddr c) = a by omega]
  simp only [dmaWrite]
  split
  · rename_i h
    rw [if_neg]
    rintro ⟨h1, h2, r, hr, hn⟩
    rw [word r ⟨h1, h2⟩, h] at hr
    exact hn (Option.some.inj hr).symm
  · rename_i r hn h
    rw [Memory.read_writeWord]
    by_cases hw : dmaAddr c ≤ a ∧ a < dmaAddr c + 4
    · rw [if_pos hw, if_pos ⟨hw.1, hw.2, r, (word r hw).mpr h, hn⟩]
    · rw [if_neg hw, if_neg fun c => hw ⟨c.1, c.2.1⟩]
  · rename_i h
    rw [if_neg]
    rintro ⟨h1, h2, r, hr, hn⟩
    rw [word r ⟨h1, h2⟩, h] at hr
    cases hr

section
variable {P : Memory → Prop} (ok : ConfigOk cfg)
  (byte : ∀ (m : Memory) (a : Nat) (v : Byte) (r : Region), regionOf cfg a = some r → r ≠ .rom → P m → P (m.write a v))
include ok byte

theorem dmaWrite_keeps {m : Memory} (c w : Word) (hm : P m) : P (dmaWrite cfg m c w) := by
  simp only [dmaWrite]
  split
  · exact hm
  · rename_i r hn h
    rw [Memory.writeWord]
    refine Memory.writeLanes_induction m w _ (fun m k v hk hm => byte m _ v r ?_ ?_ hm) hm
    · rwa [regionOf_word ok (dmaAddr_aligned c) hk]
    · exact hn
  · exact hm

theorem moveWord_keeps {b : Bus} (n : ChanIdx) (c : Channel) (hm : P b.mem) : P (moveWord cfg b n c).mem := by
  have vram : ∀ (m : Memory) (a : Nat) (v : Byte), regionOf cfg a = some .vram → P m → P (m.write a v) :=
    fun m a v h hm => byte m a v _ h (by decide) hm
  simp only [moveWord, portWrite, portRead]
  split
  · split
    · exact Gpu.write_keeps ok vram _ _ hm
    · exact hm
  · split
    · exact dmaWrite_keeps ok byte _ _ hm
    · exact dmaWrite_keeps ok byte _ _ hm

/-- A channel's turn changes memory by byte writes in the writable regions only. -/
theorem stepChannel_keeps {b : Bus} (n : ChanIdx) (hm : P b.mem) : P (stepChannel cfg b n).mem := by
  simp only [stepChannel]
  split
  · exact hm
  · split <;> exact moveWord_keeps ok byte n _ hm

end

/-- A moved word leaves the DMA controller and the interrupt controller. -/
theorem moveWord_devices (cfg : Config.Params) (b : Bus) (n : ChanIdx) (c : Channel) :
    (moveWord cfg b n c).dma = b.dma ∧ (moveWord cfg b n c).ic = b.ic := by
  simp only [moveWord, portWrite, portRead]
  split <;> split <;> exact ⟨rfl, rfl⟩

/-- A word moved by a channel other than the GPU's leaves the GPU. -/
theorem moveWord_gpu {b : Bus} {n : ChanIdx} (c : Channel) (h : n ≠ 2) : (moveWord cfg b n c).gpu = b.gpu := by
  have h' : n ≠ Config.dmaGpuChannel := h
  simp only [moveWord, portWrite, portRead, if_neg h']
  split <;> rfl

/-! ## One channel's turn -/

/-- What a channel's turn does to the controllers: it completes the channel, or moves a word and goes on, or moves the
last word and completes (60_exceptions.md R362). -/
theorem stepChannel_cases (cfg : Config.Params) (b : Bus) (n : ChanIdx) :
    ((b.dma.channel n).len = 0#32 ∧ stepChannel cfg b n = completeChannel cfg b n) ∨
    ∃ b' : Bus, b' = { moveWord cfg b n (b.dma.channel n) with dma := b.dma.setChannel n (b.dma.channel n).advance } ∧
      (b.dma.channel n).len ≠ 0#32 ∧
      (((b.dma.channel n).len = 1#32 ∧ stepChannel cfg b n = completeChannel cfg b' n) ∨
        ((b.dma.channel n).len ≠ 1#32 ∧ stepChannel cfg b n = b')) := by
  by_cases h : (b.dma.channel n).len = 0#32
  · exact .inl ⟨h, by simp only [stepChannel, if_pos h]⟩
  · refine .inr ⟨_, rfl, h, ?_⟩
    have h1 : (b.dma.channel n).advance.len = 0#32 ↔ (b.dma.channel n).len = 1#32 := by
      rw [Channel.advance_len]
      constructor
      · intro e
        have := congrArg (· + 1#32) e
        simpa using this
      · intro e
        rw [e]
        rfl
    by_cases hl : (b.dma.channel n).len = 1#32
    · left
      refine ⟨hl, ?_⟩
      simp only [stepChannel, if_neg h, if_pos (h1.mpr hl), (moveWord_devices cfg b n _).1]
    · right
      refine ⟨hl, ?_⟩
      simp only [stepChannel, if_neg h, if_neg fun c => hl (h1.mp c), (moveWord_devices cfg b n _).1]

/-- A channel's turn leaves every other channel and the controller's own settings. -/
theorem stepChannel_dma (cfg : Config.Params) (b : Bus) (n : ChanIdx) :
    (∀ m, m ≠ n → (stepChannel cfg b n).dma.channel m = b.dma.channel m) ∧ (stepChannel cfg b n).dma.dpcr = b.dma.dpcr ∧
    (stepChannel cfg b n).dma.en = b.dma.en ∧ (stepChannel cfg b n).dma.master = b.dma.master ∧
    (stepChannel cfg b n).dma.enabled = b.dma.enabled ∧ (stepChannel cfg b n).ic.iMask = b.ic.iMask := by
  have ic : ∀ (p : Prop) [Decidable p] (i : Ic), (if p then i.raiseSource cfg.irqDma else i).iMask = i.iMask := by
    intro p _ i
    split <;> rfl
  have mic := (moveWord_devices cfg b n (b.dma.channel n)).2
  rcases stepChannel_cases cfg b n with ⟨-, h⟩ | ⟨b', rfl, -, ⟨-, h⟩ | ⟨-, h⟩⟩ <;> rw [h]
  · refine ⟨fun m hm => ?_, rfl, rfl, rfl, rfl, ?_⟩
    · show (b.dma.setChannel n _).channel m = _
      simp [hm]
    · exact ic _ _
  · refine ⟨fun m hm => ?_, rfl, rfl, rfl, rfl, ?_⟩
    · show ((b.dma.setChannel n _).setChannel n _).channel m = _
      simp [hm]
    · exact (ic _ _).trans (by rw [mic])
  · refine ⟨fun m hm => ?_, rfl, rfl, rfl, rfl, by rw [mic]⟩
    show (b.dma.setChannel n _).channel m = _
    simp [hm]

/-! ## The whole step -/

/-- What every turn keeps, a DMA step keeps. -/
theorem dmaStep_induction {Q : Bus → Prop} (turn : ∀ b n, Q b → Q (stepChannel cfg b n)) {b : Bus} (h : Q b) :
    Q (dmaStep cfg b) := by
  have fold : ∀ (l : List ChanIdx) (b : Bus), Q b → Q (l.foldl (stepChannel cfg) b) := by
    intro l
    induction l with
    | nil => intro b hb; exact hb
    | cons n l ih => intro b hb; exact ih _ (turn b n hb)
  simp only [dmaStep]
  split
  · exact fold _ _ h
  · exact h

/-- A DMA step changes memory by byte writes in the writable regions only. -/
theorem dmaStep_keeps {P : Memory → Prop} (ok : ConfigOk cfg)
    (byte : ∀ (m : Memory) (a : Nat) (v : Byte) (r : Region), regionOf cfg a = some r → r ≠ .rom → P m → P (m.write a v))
    {b : Bus} (hm : P b.mem) : P (dmaStep cfg b).mem :=
  dmaStep_induction (Q := fun b => P b.mem) (fun _ n h => stepChannel_keeps ok byte n h) hm

end Sys2Proof.Machine
end

