-- ==== Sys2Proof/Laws/State.lean ====
section
/-! SUPPORT. The fields of the state after each named update, one lemma per field per update, and how the accessors of
registers and control slots read an updated state. -/

namespace Sys2Proof.Machine

/-! ## Fields after an update -/

@[simp] theorem State.retire_regs (s : State) (wr : Option (RegIdx × Word)) (l : LoadSlot) (sl : Bool) (d : Word) :
    (s.retire wr l sl d).regs = writeResult (commitLoad s.regs s.ld) wr := rfl

@[simp] theorem State.retire_hi (s : State) (wr : Option (RegIdx × Word)) (l : LoadSlot) (sl : Bool) (d : Word) :
    (s.retire wr l sl d).hi = s.hi := rfl

@[simp] theorem State.retire_lo (s : State) (wr : Option (RegIdx × Word)) (l : LoadSlot) (sl : Bool) (d : Word) :
    (s.retire wr l sl d).lo = s.lo := rfl

@[simp] theorem State.retire_pc (s : State) (wr : Option (RegIdx × Word)) (l : LoadSlot) (sl : Bool) (d : Word) :
    (s.retire wr l sl d).pc = s.pc + s.pcdelta := rfl

@[simp] theorem State.retire_pcdelta (s : State) (wr : Option (RegIdx × Word)) (l : LoadSlot) (sl : Bool) (d : Word) :
    (s.retire wr l sl d).pcdelta = d := rfl

@[simp] theorem State.retire_inSlot (s : State) (wr : Option (RegIdx × Word)) (l : LoadSlot) (sl : Bool) (d : Word) :
    (s.retire wr l sl d).inSlot = sl := rfl

@[simp] theorem State.retire_ld (s : State) (wr : Option (RegIdx × Word)) (l : LoadSlot) (sl : Bool) (d : Word) :
    (s.retire wr l sl d).ld = l := rfl

@[simp] theorem State.retire_faultCause (s : State) (wr : Option (RegIdx × Word)) (l : LoadSlot) (sl : Bool) (d : Word) :
    (s.retire wr l sl d).faultCause = s.faultCause := rfl

@[simp] theorem State.retire_faultPc (s : State) (wr : Option (RegIdx × Word)) (l : LoadSlot) (sl : Bool) (d : Word) :
    (s.retire wr l sl d).faultPc = s.faultPc := rfl

@[simp] theorem State.retire_scr (s : State) (wr : Option (RegIdx × Word)) (l : LoadSlot) (sl : Bool) (d : Word) :
    (s.retire wr l sl d).scr = s.scr := rfl

@[simp] theorem State.retire_bus (s : State) (wr : Option (RegIdx × Word)) (l : LoadSlot) (sl : Bool) (d : Word) :
    (s.retire wr l sl d).bus = s.bus := rfl

@[simp] theorem State.retire_comms (s : State) (wr : Option (RegIdx × Word)) (l : LoadSlot) (sl : Bool) (d : Word) :
    (s.retire wr l sl d).comms = s.comms := rfl

@[simp] theorem State.retire_tickCycle (s : State) (wr : Option (RegIdx × Word)) (l : LoadSlot) (sl : Bool) (d : Word) :
    (s.retire wr l sl d).tickCycle = s.tickCycle := rfl

@[simp] theorem State.retire_cfg (s : State) (wr : Option (RegIdx × Word)) (l : LoadSlot) (sl : Bool) (d : Word) :
    (s.retire wr l sl d).cfg = s.cfg := rfl

@[simp] theorem State.raise_regs (s : State) (e : Exc) :
    (s.raise e).regs = commitLoad s.regs s.ld := rfl

@[simp] theorem State.raise_hi (s : State) (e : Exc) :
    (s.raise e).hi = s.hi := rfl

@[simp] theorem State.raise_lo (s : State) (e : Exc) :
    (s.raise e).lo = s.lo := rfl

@[simp] theorem State.raise_pc (s : State) (e : Exc) :
    (s.raise e).pc = trapVector s.cfg (srPush s.sr) := rfl

@[simp] theorem State.raise_pcdelta (s : State) (e : Exc) :
    (s.raise e).pcdelta = 4#32 := rfl

@[simp] theorem State.raise_inSlot (s : State) (e : Exc) :
    (s.raise e).inSlot = false := rfl

@[simp] theorem State.raise_ld (s : State) (e : Exc) :
    (s.raise e).ld = LoadSlot.empty := rfl

@[simp] theorem State.raise_faultCause (s : State) (e : Exc) :
    (s.raise e).faultCause = e.code.setWidth 32 := rfl

@[simp] theorem State.raise_faultPc (s : State) (e : Exc) :
    (s.raise e).faultPc = trapEpc s.inSlot s.pc := rfl

@[simp] theorem State.raise_scr (s : State) (e : Exc) :
    (s.raise e).scr = writeSlot (trapBadv (writeSlot (writeSlot s.scr 14 (trapEpc s.inSlot s.pc)) 13 (trapCause s.cause e s.inSlot)) e)
      12 (srPush s.sr) := rfl

@[simp] theorem State.raise_bus (s : State) (e : Exc) :
    (s.raise e).bus = s.bus := rfl

@[simp] theorem State.raise_comms (s : State) (e : Exc) :
    (s.raise e).comms = s.comms := rfl

@[simp] theorem State.raise_tickCycle (s : State) (e : Exc) :
    (s.raise e).tickCycle = s.tickCycle := rfl

@[simp] theorem State.raise_cfg (s : State) (e : Exc) :
    (s.raise e).cfg = s.cfg := rfl

@[simp] theorem State.dmaStep_regs (s : State) :
    (s.dmaStep).regs = s.regs := rfl

@[simp] theorem State.dmaStep_hi (s : State) :
    (s.dmaStep).hi = s.hi := rfl

@[simp] theorem State.dmaStep_lo (s : State) :
    (s.dmaStep).lo = s.lo := rfl

@[simp] theorem State.dmaStep_pc (s : State) :
    (s.dmaStep).pc = s.pc := rfl

@[simp] theorem State.dmaStep_pcdelta (s : State) :
    (s.dmaStep).pcdelta = s.pcdelta := rfl

@[simp] theorem State.dmaStep_inSlot (s : State) :
    (s.dmaStep).inSlot = s.inSlot := rfl

@[simp] theorem State.dmaStep_ld (s : State) :
    (s.dmaStep).ld = s.ld := rfl

@[simp] theorem State.dmaStep_faultCause (s : State) :
    (s.dmaStep).faultCause = s.faultCause := rfl

@[simp] theorem State.dmaStep_faultPc (s : State) :
    (s.dmaStep).faultPc = s.faultPc := rfl

@[simp] theorem State.dmaStep_scr (s : State) :
    (s.dmaStep).scr = s.scr := rfl

@[simp] theorem State.dmaStep_bus (s : State) :
    (s.dmaStep).bus = Machine.dmaStep s.cfg s.bus := rfl

@[simp] theorem State.dmaStep_comms (s : State) :
    (s.dmaStep).comms = s.comms := rfl

@[simp] theorem State.dmaStep_tickCycle (s : State) :
    (s.dmaStep).tickCycle = s.tickCycle := rfl

@[simp] theorem State.dmaStep_cfg (s : State) :
    (s.dmaStep).cfg = s.cfg := rfl

/-! ## Registers and control slots -/

theorem writeReg_get (regs : Vector Word 32) (d r : RegIdx) (v : Word) :
    (writeReg regs d v).get r = if r = d ∧ r ≠ 0 then v else regs.get r := by
  simp only [writeReg]
  split
  · rename_i h
    subst h
    split
    · rename_i h
      exact absurd h.1 h.2
    · rfl
  · rename_i h
    simp only [Vector.get_eq_getElem, Vector.getElem_set]
    by_cases hr : r = d
    · subst hr
      simp [h]
    · have : d.val ≠ r.val := fun c => hr (Fin.ext c.symm)
      simp [hr, this]

theorem commitLoad_get (regs : Vector Word 32) (l : LoadSlot) (r : RegIdx) :
    (commitLoad regs l).get r = if r ≠ 0 ∧ l.kind ≠ .none ∧ l.reg = r then l.val else regs.get r := by
  simp only [commitLoad]
  split
  · rename_i h
    simp [h]
  · rename_i h
    rw [writeReg_get]
    by_cases hr : r = l.reg
    · subst hr
      simp [h]
    · rw [if_neg (fun c => hr c.1), if_neg (fun c => hr c.2.2.symm)]

@[simp] theorem writeSlot_get (scr : Vector Word 32) (i j : SlotIdx) (v : Word) :
    (writeSlot scr i v).get j = if j = i then v else scr.get j := by
  simp only [writeSlot, Vector.get_eq_getElem, Vector.getElem_set]
  by_cases h : j = i
  · subst h
    simp
  · have : i.val ≠ j.val := fun c => h (Fin.ext c.symm)
    simp [h, this]

@[simp] theorem State.slot_mk (s : State) (i : SlotIdx) : s.scr.get i = s.slot i := rfl

/-- A register of the state a retiring instruction leaves (40_alu.md R153, 70_reset_and_hazards.md R452 S7, S8). -/
theorem State.reg_retire (s : State) (wr : Option (RegIdx × Word)) (l : LoadSlot) (sl : Bool) (d : Word) (r : RegIdx) :
    (s.retire wr l sl d).reg r = s.regAfter wr r := by
  by_cases h0 : r = 0
  · subst h0
    rcases wr with _ | ⟨w, v⟩ <;> simp [State.reg, State.regAfter, State.committed]
  · rcases wr with _ | ⟨w, v⟩
    · simp [State.reg, h0, State.regAfter, State.committed, writeResult, commitLoad_get]
    · simp [State.reg, h0, State.regAfter, State.committed, writeResult, writeReg_get, commitLoad_get]

/-- A register of the state a taken exception leaves (60_exceptions.md R323). -/
theorem State.reg_raise (s : State) (e : Exc) (r : RegIdx) : (s.raise e).reg r = s.committed r := by
  by_cases h0 : r = 0
  · subst h0
    simp [State.reg, State.committed]
  · simp [State.reg, h0, State.committed, commitLoad_get]

/-- A register read looks at the register file alone. -/
theorem State.reg_congr {s t : State} (h : t.regs = s.regs) (r : RegIdx) : t.reg r = s.reg r := by
  simp only [State.reg, h]

/-- What the registers hold after the pending load commits looks at the register file and the slot alone. -/
theorem State.committed_congr {s t : State} (h : t.regs = s.regs) (hl : t.ld = s.ld) (r : RegIdx) :
    t.committed r = s.committed r := by
  simp only [State.committed, State.reg_congr h, hl]

theorem State.regAfter_congr {s t : State} (h : t.regs = s.regs) (hl : t.ld = s.ld) (wr : Option (RegIdx × Word))
    (r : RegIdx) : t.regAfter wr r = s.regAfter wr r := by
  simp only [State.regAfter, State.committed_congr h hl]

/-- Register 0 reads 0 whatever is written (10_state.md R21). -/
@[simp] theorem State.reg_zero (s : State) : s.reg 0 = 0#32 := by simp [State.reg]

end Sys2Proof.Machine
end

