-- ==== Sys2Proof/Laws/Ops.lean ====
section
/-! SUPPORT. For each shared way an instruction ends, one lemma that says everything its next state is. -/

namespace Sys2Proof.Machine

theorem SameHiLo.refl (s : State) : SameHiLo s s := ⟨rfl, rfl⟩
theorem SameControl.refl (s : State) : SameControl s s := ⟨fun _ => rfl, rfl, rfl⟩
theorem SameMemory.refl (s : State) : SameMemory s s := fun _ => rfl
theorem SameDevices.refl (s : State) : SameDevices s s := ⟨rfl, rfl, rfl⟩
theorem SameHost.refl (s : State) : SameHost s s := ⟨rfl, rfl, rfl⟩

/-- `finishReg` writes its one register and nothing else. -/
theorem finishReg_writesOnly (r : RegIdx) (v : Word) (s : State) :
    ∃ t, finishReg r v s = .next t ∧ WritesOnly s t (some (r, v)) :=
  ⟨_, rfl, fun _ => State.reg_retire .., ⟨rfl, rfl, rfl⟩, rfl, ⟨rfl, rfl⟩, ⟨fun _ => rfl, rfl, rfl⟩, fun _ => rfl,
    ⟨rfl, rfl, rfl⟩, ⟨rfl, rfl, rfl⟩⟩

/-- `finishHiLo` writes HI and LO and nothing else. -/
theorem finishHiLo_writesOnlyHiLo (hi lo : Word) (s : State) :
    ∃ t, finishHiLo hi lo s = .next t ∧ WritesOnlyHiLo s t ∧ t.hi = hi ∧ t.lo = lo :=
  ⟨_, rfl, ⟨fun r => (State.reg_retire _ none _ _ _ r).trans (State.committed_congr rfl rfl r), ⟨rfl, rfl, rfl⟩, rfl,
    ⟨fun _ => rfl, rfl, rfl⟩, fun _ => rfl, ⟨rfl, rfl, rfl⟩, ⟨rfl, rfl, rfl⟩⟩, rfl, rfl⟩

/-- `finishDelayed` fills the load-delay slot and changes nothing else; the access before it may have changed the bus,
but no byte of memory. -/
theorem finishDelayed_loadsInto (r : RegIdx) (v : Word) (kind : LoadKind) (s : State) (b : Bus)
    (hm : ∀ a, b.mem.read a = s.bus.mem.read a) :
    ∃ t, finishDelayed r v kind { s with bus := b } = .next t ∧ LoadsInto s t r v kind ∧ t.bus = b :=
  ⟨_, rfl, ⟨fun x => (State.reg_retire _ none _ _ _ x).trans (State.committed_congr rfl rfl x), ⟨rfl, rfl, rfl⟩, rfl,
    ⟨rfl, rfl⟩, ⟨fun _ => rfl, rfl, rfl⟩, hm, ⟨rfl, rfl, rfl⟩⟩, rfl⟩

/-- A store that the bus accepts changes the bus and nothing else. -/
theorem finishStore_ok (b : Bus) (s : State) :
    ∃ t, finishStore (.ok b) s = .next t ∧ StoresToBus s t ∧ t.bus = b :=
  ⟨_, rfl, ⟨fun x => (State.reg_retire _ none _ _ _ x).trans (State.committed_congr rfl rfl x), ⟨rfl, rfl, rfl⟩, rfl,
    ⟨rfl, rfl⟩, ⟨fun _ => rfl, rfl, rfl⟩, ⟨rfl, rfl, rfl⟩⟩, rfl⟩

/-- A store that the bus refuses raises what the bus says. -/
theorem finishStore_error (e : Exc) (s : State) : finishStore (.error e) s = raiseExc e s := rfl

/-- The end of a move to the control bank: the bank changes and nothing else. -/
theorem finish_writesControl (scr : Vector Word 32) (s : State) :
    ∃ t, finish { s with scr := scr } = .next t ∧ WritesControl s t ∧ t.scr = scr :=
  ⟨_, rfl, ⟨fun x => (State.reg_retire _ none _ _ _ x).trans (State.committed_congr rfl rfl x), ⟨rfl, rfl, rfl⟩, rfl,
    ⟨rfl, rfl⟩, rfl, rfl, fun _ => rfl, ⟨rfl, rfl, rfl⟩, ⟨rfl, rfl, rfl⟩⟩, rfl⟩

/-- `finishBranch` leads to the delay slot and then to the target, or past the slot. -/
theorem finishBranch_branches (taken : Bool) (target : Word) (link : Option (RegIdx × Word)) (s : State) :
    ∃ t, finishBranch taken target link s = .next t ∧ Branches s t link (taken = true) target := by
  refine ⟨_, rfl, fun _ => State.reg_retire .., rfl, rfl, ?_, ?_, rfl, ⟨rfl, rfl⟩, ⟨fun _ => rfl, rfl, rfl⟩,
    fun _ => rfl, ⟨rfl, rfl, rfl⟩, ⟨rfl, rfl, rfl⟩⟩
  · intro h
    subst h
    show s.npc + (target - s.npc) = target
    rw [BitVec.add_comm, BitVec.sub_add_cancel]
  · intro h
    have : taken = false := by simpa using h
    subst this
    rfl

/-- A condition said otherwise. -/
theorem Branches.congr {s t : State} {link : Option (RegIdx × Word)} {p q : Prop} {a b : Word}
    (h : Branches s t link p a) (hp : p ↔ q) (ha : a = b) : Branches s t link q b := by
  subst ha
  exact ⟨h.regs, h.pc, h.inSlot, fun c => h.goes (hp.mpr c), fun c => h.falls fun d => c (hp.mp d), h.ldEmpty, h.hiLo,
    h.control, h.memory, h.devices, h.host⟩

/-! ## Taking an exception -/

/-- The mode stack after a push, bit by bit (60_exceptions.md R321). -/
theorem srPush_getLsbD (sr : Word) (k : Nat) (h : k < 32) : (srPush sr).getLsbD k =
    if k < 2 then false else if k < 6 then sr.getLsbD (k - 2) else sr.getLsbD k := by
  have hk := h
  simp only [srPush, BitVec.getLsbD_or, BitVec.getLsbD_and, BitVec.getLsbD_shiftLeft]
  interval_cases k <;> simp

/-- The mode stack after a pop, bit by bit (44_coprocessor_system.md R252). -/
theorem srPop_getLsbD (sr : Word) (k : Nat) (h : k < 32) : (srPop sr).getLsbD k =
    if k < 4 then sr.getLsbD (k + 2) else sr.getLsbD k := by
  simp only [srPop, BitVec.getLsbD_or, BitVec.getLsbD_and, BitVec.getLsbD_ushiftRight]
  interval_cases k <;> simp

/-- What trap entry writes to CAUSE, bit by bit (60_exceptions.md R320 (3)). -/
theorem trapCause_getLsbD (old : Word) (e : Exc) (slot : Bool) (k : Nat) (h : k < 32) :
    (trapCause old e slot).getLsbD k =
      if k = 31 then slot
      else if 28 ≤ k ∧ k ≤ 29 then e.ce.getLsbD (k - 28)
      else if 8 ≤ k ∧ k ≤ 9 then old.getLsbD k
      else if 2 ≤ k ∧ k ≤ 6 then e.code.getLsbD (k - 2)
      else false := by
  simp only [trapCause, BitVec.getLsbD_or, BitVec.getLsbD_and, BitVec.getLsbD_shiftLeft, BitVec.getLsbD_setWidth]
  cases slot <;> interval_cases k <;> simp [BitVec.getLsbD_of_ge]

/-- The control slots a taken exception leaves (60_exceptions.md R320 (2) to (5)). -/
theorem State.slot_raise (s : State) (e : Exc) (i : SlotIdx) : (s.raise e).slot i =
    if i = 12 then srPush s.sr
    else if i = 8 then e.badAddr.getD s.badv
    else if i = 13 then trapCause s.cause e s.inSlot
    else if i = 14 then trapEpc s.inSlot s.pc
    else s.slot i := by
  show (s.raise e).scr.get i = _
  rw [State.raise_scr, writeSlot_get]
  split
  · rfl
  · rename_i h12
    simp only [trapBadv]
    by_cases h8 : i = 8
    · subst h8
      rcases hb : e.badAddr with _ | bad <;> simp [State.badv]
    · rcases hb : e.badAddr with _ | bad <;> simp only [writeSlot_get, h8, ↓reduceIte, State.slot_mk]

end Sys2Proof.Machine
end

