-- ==== Sys2Proof/Laws/Access.lean ====
section
/-! SUPPORT. What a load, a store and a write to the bus can do, case by case. -/

namespace Sys2Proof.Machine

variable {cfg : Config.Params}

/-! ## Writes to the bus -/

/-- A device write changes memory by byte writes in video RAM only. -/
theorem deviceWrite_keeps {P : Memory → Prop} (ok : ConfigOk cfg)
    (byte : ∀ (m : Memory) (a : Nat) (v : Byte), regionOf cfg a = some .vram → P m → P (m.write a v))
    {b : Bus} (reg : DeviceReg) (w mask : Word) (hm : P b.mem) : P (deviceWrite cfg b reg w mask).mem := by
  cases reg <;> first | exact hm | exact Gpu.write_keeps ok byte _ _ hm

/-- A write the bus accepts changes memory by byte writes in the writable regions only. -/
theorem memWriteBE_keeps {P : Memory → Prop} (ok : ConfigOk cfg)
    (byte : ∀ (m : Memory) (a : Nat) (v : Byte) (r : Region), regionOf cfg a = some r → r ≠ .rom → P m → P (m.write a v))
    {b b' : Bus} {a d : Word} {be : BitVec 4} (h : memWriteBE cfg b (alignWord a) d be = .ok b') (hm : P b.mem) :
    P b'.mem := by
  rcases ht : targetOf cfg (alignWord a) with ⟨r, p⟩ | reg | _
  · by_cases hr : r = .rom
    · subst hr
      rw [memWriteBE_rom ht] at h
      cases h
      exact hm
    · rw [memWriteBE_region ht hr] at h
      cases h
      obtain ⟨h4, hp⟩ := targetOf_alignWord_region ht
      refine Memory.writeLanes_induction _ d be (fun m k v hk hm => byte m _ v r ?_ hr hm) hm
      rwa [regionOf_word ok h4 hk]
  · rw [memWriteBE_device ht] at h
    cases h
    exact deviceWrite_keeps ok (fun m a v h hm => byte m a v _ h (by decide) hm) reg _ _ hm
  · rw [memWriteBE_unmapped ht] at h
    cases h

/-! ## Loads -/

/-- A load traps, or fills the load-delay slot with what one read of the bus gives (42_loadstore.md R201, R216). -/
theorem load_cases (sz : AccessSize) (ext : Word → Word) (rt rs : RegIdx) (imm : BitVec 16) (s : State) :
    (∃ e, memRead s.cfg s.userMode s.bus (s.effAddr rs imm) sz = .error e ∧ load sz ext rt rs imm s = .next (s.raise e)) ∨
    ∃ v b t, memRead s.cfg s.userMode s.bus (s.effAddr rs imm) sz = .ok (v, b) ∧ load sz ext rt rs imm s = .next t ∧
      LoadsInto s t rt (ext v) .mem ∧ t.bus = b ∧
      ∃ w, busReadWord s.cfg s.bus (alignWord (s.effAddr rs imm)) = .ok (w, b) := by
  rcases h : memRead s.cfg s.userMode s.bus (s.effAddr rs imm) sz with e | ⟨v, b⟩
  · exact .inl ⟨e, rfl, by simp only [load, h]; rfl⟩
  · right
    have hr : ∃ w, busReadWord s.cfg s.bus (alignWord (s.effAddr rs imm)) = .ok (w, b) := by
      simp only [memRead] at h
      split at h
      · cases h
      · split at h
        · cases h
        · rcases hb : busReadWord s.cfg s.bus (alignWord (s.effAddr rs imm)) with e | ⟨w, b'⟩
          · rw [hb] at h
            cases h
          · rw [hb] at h
            cases h
            exact ⟨w, rfl⟩
    obtain ⟨w, hw⟩ := hr
    obtain ⟨t, ht, hl, hb⟩ := finishDelayed_loadsInto rt (ext v) .mem s b fun a => by rw [busReadWord_mem hw]
    exact ⟨v, b, t, rfl, by simp only [load, h]; exact ht, hl, hb, w, hw⟩

/-- The same of LWL and LWR (42_loadstore.md R207 to R209). -/
theorem loadUnaligned_cases (merge : Nat → Word → Word → Word) (rt rs : RegIdx) (imm : BitVec 16) (s : State) :
    (∃ e, memReadUnaligned s.cfg s.userMode s.bus (s.effAddr rs imm) = .error e ∧
      loadUnaligned merge rt rs imm s = .next (s.raise e)) ∨
    ∃ w b t, memReadUnaligned s.cfg s.userMode s.bus (s.effAddr rs imm) = .ok (w, b) ∧
      loadUnaligned merge rt rs imm s = .next t ∧
      LoadsInto s t rt (merge (laneOf (s.effAddr rs imm)) (s.mergeBase rt) w) .mem ∧ t.bus = b ∧
      busReadWord s.cfg s.bus (alignWord (s.effAddr rs imm)) = .ok (w, b) := by
  rcases h : memReadUnaligned s.cfg s.userMode s.bus (s.effAddr rs imm) with e | ⟨w, b⟩
  · exact .inl ⟨e, rfl, by simp only [loadUnaligned, h]; rfl⟩
  · right
    have hw : busReadWord s.cfg s.bus (alignWord (s.effAddr rs imm)) = .ok (w, b) := by
      simp only [memReadUnaligned] at h
      split at h
      · cases h
      · exact h
    obtain ⟨t, ht, hl, hb⟩ := finishDelayed_loadsInto rt (merge (laneOf (s.effAddr rs imm)) (s.mergeBase rt) w) .mem s b
      fun a => by rw [busReadWord_mem hw]
    exact ⟨w, b, t, rfl, by simp only [loadUnaligned, h]; exact ht, hl, hb, hw⟩

/-- The merge base of LWL and LWR is the register as the pending load leaves it (42_loadstore.md R209). -/
theorem State.mergeBase_eq (s : State) (rt : RegIdx) : s.mergeBase rt = s.committed rt := by
  simp only [State.mergeBase, State.committed]
  by_cases h : s.ld.kind ≠ .none ∧ s.ld.reg = rt ∧ rt ≠ 0
  · rw [if_pos h, if_pos ⟨h.2.2, h.1, h.2.1⟩]
  · rw [if_neg h, if_neg fun c => h ⟨c.2.1, c.2.2, c.1⟩]

/-! ## Stores -/

/-- A store traps, or changes what stands behind the bus by one write (42_loadstore.md R210, R216). -/
theorem store_cases (sz : AccessSize) (rt rs : RegIdx) (imm : BitVec 16) (s : State) :
    (∃ e, memWrite s.cfg s.userMode s.bus (s.effAddr rs imm) sz (s.reg rt) = .error e ∧
      store sz rt rs imm s = .next (s.raise e)) ∨
    ∃ b t, memWrite s.cfg s.userMode s.bus (s.effAddr rs imm) sz (s.reg rt) = .ok b ∧ store sz rt rs imm s = .next t ∧
      StoresToBus s t ∧ t.bus = b ∧ ∃ d be, memWriteBE s.cfg s.bus (alignWord (s.effAddr rs imm)) d be = .ok b := by
  rcases h : memWrite s.cfg s.userMode s.bus (s.effAddr rs imm) sz (s.reg rt) with e | b
  · exact .inl ⟨e, rfl, by simp only [store, h]; rfl⟩
  · right
    obtain ⟨t, ht, hs, hb⟩ := finishStore_ok b s
    refine ⟨b, t, rfl, by simp only [store, h]; exact ht, hs, hb, ?_⟩
    simp only [memWrite] at h
    split at h
    · cases h
    · split at h
      · cases h
      · exact ⟨_, _, h⟩

/-- The same of SWL and SWR (42_loadstore.md R214, R215). -/
theorem storeUnaligned_cases (table : Nat → Word → Word × BitVec 4) (rt rs : RegIdx) (imm : BitVec 16) (s : State) :
    (∃ e, memWriteUnaligned s.cfg s.userMode s.bus (s.effAddr rs imm) (table (laneOf (s.effAddr rs imm)) (s.reg rt)) = .error e ∧
      storeUnaligned table rt rs imm s = .next (s.raise e)) ∨
    ∃ b t, memWriteUnaligned s.cfg s.userMode s.bus (s.effAddr rs imm) (table (laneOf (s.effAddr rs imm)) (s.reg rt)) = .ok b ∧
      storeUnaligned table rt rs imm s = .next t ∧ StoresToBus s t ∧ t.bus = b ∧
      ∃ d be, memWriteBE s.cfg s.bus (alignWord (s.effAddr rs imm)) d be = .ok b := by
  rcases h : memWriteUnaligned s.cfg s.userMode s.bus (s.effAddr rs imm) (table (laneOf (s.effAddr rs imm)) (s.reg rt)) with e | b
  · exact .inl ⟨e, rfl, by simp only [storeUnaligned, h]; rfl⟩
  · right
    obtain ⟨t, ht, hs, hb⟩ := finishStore_ok b s
    refine ⟨b, t, rfl, by simp only [storeUnaligned, h]; exact ht, hs, hb, ?_⟩
    simp only [memWriteUnaligned] at h
    split at h
    · cases h
    · exact ⟨_, _, h⟩

/-! ## What any instruction does behind the bus -/

/-- What one instruction can do behind the bus: nothing, one read, or one write. -/
inductive BusMove (cfg : Config.Params) (b b' : Bus) : Prop where
  | none (h : b' = b)
  | read (a w : Word) (h : busReadWord cfg b (alignWord a) = .ok (w, b'))
  | write (a d : Word) (be : BitVec 4) (h : memWriteBE cfg b (alignWord a) d be = .ok b')

theorem BusMove.of_load (sz : AccessSize) (ext : Word → Word) (rt rs : RegIdx) (imm : BitVec 16) {s t : State}
    (h : load sz ext rt rs imm s = .next t) : BusMove s.cfg s.bus t.bus := by
  rcases load_cases sz ext rt rs imm s with ⟨e, -, h'⟩ | ⟨v, b, t', -, h', -, hb, w, hw⟩ <;> rw [h'] at h <;> cases h
  · exact .none rfl
  · exact .read _ w (hb ▸ hw)

theorem BusMove.of_loadUnaligned (merge : Nat → Word → Word → Word) (rt rs : RegIdx) (imm : BitVec 16) {s t : State}
    (h : loadUnaligned merge rt rs imm s = .next t) : BusMove s.cfg s.bus t.bus := by
  rcases loadUnaligned_cases merge rt rs imm s with ⟨e, -, h'⟩ | ⟨w, b, t', -, h', -, hb, hw⟩ <;> rw [h'] at h <;> cases h
  · exact .none rfl
  · exact .read _ w (hb ▸ hw)

theorem BusMove.of_store (sz : AccessSize) (rt rs : RegIdx) (imm : BitVec 16) {s t : State}
    (h : store sz rt rs imm s = .next t) : BusMove s.cfg s.bus t.bus := by
  rcases store_cases sz rt rs imm s with ⟨e, -, h'⟩ | ⟨b, t', -, h', -, hb, d, be, hw⟩ <;> rw [h'] at h <;> cases h
  · exact .none rfl
  · exact .write _ d be (hb ▸ hw)

theorem BusMove.of_storeUnaligned (table : Nat → Word → Word × BitVec 4) (rt rs : RegIdx) (imm : BitVec 16) {s t : State}
    (h : storeUnaligned table rt rs imm s = .next t) : BusMove s.cfg s.bus t.bus := by
  rcases storeUnaligned_cases table rt rs imm s with ⟨e, -, h'⟩ | ⟨b, t', -, h', -, hb, d, be, hw⟩ <;> rw [h'] at h <;>
    cases h
  · exact .none rfl
  · exact .write _ d be (hb ▸ hw)

/-- A bus move changes memory by byte writes in the writable regions only. -/
theorem BusMove.keeps {P : Memory → Prop} (ok : ConfigOk cfg)
    (byte : ∀ (m : Memory) (a : Nat) (v : Byte) (r : Region), regionOf cfg a = some r → r ≠ .rom → P m → P (m.write a v))
    {b b' : Bus} (h : BusMove cfg b b') (hm : P b.mem) : P b'.mem := by
  cases h with
  | none h => rwa [h]
  | read a w h => rwa [busReadWord_mem h]
  | write a d be h => exact memWriteBE_keeps ok byte h hm

end Sys2Proof.Machine
end

