-- ==== Sys2Proof/Laws/Cycle.lean ====
section
/-! SUPPORT. What a cycle can do: the cases of the CPU's part, what any instruction does behind the bus, and what the
end of a cycle leaves. -/

namespace Sys2Proof.Machine

/-! ## The cases of a cycle -/

/-- The CPU's part of a cycle takes an exception or runs a fetched, decoded instruction (70_reset_and_hazards.md
R452). -/
theorem cpuStep_cases (s : State) :
    (∃ e, cpuStep s = .next (s.raise e)) ∨
    ∃ w i, s.interruptRequested = false ∧ s.fetch = .ok w ∧ decode w = .ok i ∧ cpuStep s = exec i s := by
  simp only [cpuStep]
  split
  · exact .inl ⟨_, rfl⟩
  · rename_i hi
    rcases hf : s.fetch with e | w
    · exact .inl ⟨e, rfl⟩
    · rcases hd : decode w with e | i
      · exact .inl ⟨_, by simp only [runWord, hd]; rfl⟩
      · exact .inr ⟨w, i, by simpa using hi, rfl, hd, by simp only [runWord, hd]⟩

/-- A step is the CPU's part, then the end of the cycle. -/
theorem step_eq_next {s t : State} : step s = .next t ↔ ∃ u, cpuStep s = .next u ∧ t = u.endCycle := by
  simp only [step, fullCycle]
  rcases cpuStep s with u | f | r
  · simp [eq_comm]
  · simp
  · simp

/-- The cases of a step. -/
theorem step_cases {s t : State} (h : step s = .next t) :
    ∃ u, t = u.endCycle ∧ ((∃ e, u = s.raise e) ∨
      ∃ w i, s.interruptRequested = false ∧ s.fetch = .ok w ∧ decode w = .ok i ∧ exec i s = .next u) := by
  obtain ⟨u, hu, rfl⟩ := step_eq_next.mp h
  refine ⟨u, rfl, ?_⟩
  rcases cpuStep_cases s with ⟨e, he⟩ | ⟨w, i, hi, hw, hd, he⟩ <;> rw [he] at hu
  · cases hu
    exact .inl ⟨e, rfl⟩
  · exact .inr ⟨w, i, hi, hw, hd, hu⟩

/-! ## Behind the bus -/

theorem BusMove.of_finish {s t u : State} (hb : u.bus = s.bus) (h : finish u = .next t) : BusMove s.cfg s.bus t.bus := by
  cases h
  exact .none hb

theorem BusMove.of_finishReg {s t : State} {r : RegIdx} {v : Word} (h : finishReg r v s = .next t) :
    BusMove s.cfg s.bus t.bus := by
  cases h
  exact .none rfl

theorem BusMove.of_raise {s t : State} {e : Exc} (h : raiseExc e s = .next t) : BusMove s.cfg s.bus t.bus := by
  cases h
  exact .none rfl

/-- What any instruction does behind the bus: nothing, one read or one write (10_state.md R30, 42_loadstore.md R201,
R210). -/
theorem exec_busMove {i : Instr} {s t : State} (h : exec i s = .next t) : BusMove s.cfg s.bus t.bus := by
  cases i
  case lb rt rs imm => exact BusMove.of_load _ _ _ _ _ h
  case lbu rt rs imm => exact BusMove.of_load _ _ _ _ _ h
  case lh rt rs imm => exact BusMove.of_load _ _ _ _ _ h
  case lhu rt rs imm => exact BusMove.of_load _ _ _ _ _ h
  case lw rt rs imm => exact BusMove.of_load _ _ _ _ _ h
  case lwl rt rs imm => exact BusMove.of_loadUnaligned _ _ _ _ h
  case lwr rt rs imm => exact BusMove.of_loadUnaligned _ _ _ _ h
  case sb rt rs imm => exact BusMove.of_store _ _ _ _ h
  case sh rt rs imm => exact BusMove.of_store _ _ _ _ h
  case sw rt rs imm => exact BusMove.of_store _ _ _ _ h
  case swl rt rs imm => exact BusMove.of_storeUnaligned _ _ _ _ h
  case swr rt rs imm => exact BusMove.of_storeUnaligned _ _ _ _ h
  case add rd rs rt =>
    simp only [exec, execAdd] at h
    split at h <;> cases h <;> exact .none rfl
  case sub rd rs rt =>
    simp only [exec, execSub] at h
    split at h <;> cases h <;> exact .none rfl
  case addi rt rs imm =>
    simp only [exec, execAddi] at h
    split at h <;> cases h <;> exact .none rfl
  case mfc0 rt slot =>
    simp only [exec, execMfc0, cop0] at h
    split at h <;> cases h <;> exact .none rfl
  case mtc0 rt slot =>
    simp only [exec, execMtc0, cop0] at h
    split at h <;> cases h <;> exact .none rfl
  case rfe =>
    simp only [exec, execRfe, cop0] at h
    split at h <;> cases h <;> exact .none rfl
  all_goals
    cases h
    exact .none rfl

/-- No instruction changes the host-facing fields: the communications flag, the tick's count and the configuration
(00_scope.md R7, 70_reset_and_hazards.md R465). -/
theorem exec_host {i : Instr} {s t : State} (h : exec i s = .next t) : SameHost s t := by
  have load : ∀ sz ext rt rs imm, load sz ext rt rs imm s = .next t → SameHost s t := by
    intro sz ext rt rs imm h
    rcases load_cases sz ext rt rs imm s with ⟨e, -, h'⟩ | ⟨v, b, t', -, h', hl, -⟩ <;> rw [h'] at h <;> cases h
    · exact ⟨rfl, rfl, rfl⟩
    · exact hl.host
  have loadUnaligned : ∀ merge rt rs imm, loadUnaligned merge rt rs imm s = .next t → SameHost s t := by
    intro merge rt rs imm h
    rcases loadUnaligned_cases merge rt rs imm s with ⟨e, -, h'⟩ | ⟨w, b, t', -, h', hl, -⟩ <;> rw [h'] at h <;> cases h
    · exact ⟨rfl, rfl, rfl⟩
    · exact hl.host
  have store : ∀ sz rt rs imm, store sz rt rs imm s = .next t → SameHost s t := by
    intro sz rt rs imm h
    rcases store_cases sz rt rs imm s with ⟨e, -, h'⟩ | ⟨b, t', -, h', hs, -⟩ <;> rw [h'] at h <;> cases h
    · exact ⟨rfl, rfl, rfl⟩
    · exact hs.host
  have storeUnaligned : ∀ table rt rs imm, storeUnaligned table rt rs imm s = .next t → SameHost s t := by
    intro table rt rs imm h
    rcases storeUnaligned_cases table rt rs imm s with ⟨e, -, h'⟩ | ⟨b, t', -, h', hs, -⟩ <;> rw [h'] at h <;> cases h
    · exact ⟨rfl, rfl, rfl⟩
    · exact hs.host
  cases i
  case lb rt rs imm => exact load _ _ _ _ _ h
  case lbu rt rs imm => exact load _ _ _ _ _ h
  case lh rt rs imm => exact load _ _ _ _ _ h
  case lhu rt rs imm => exact load _ _ _ _ _ h
  case lw rt rs imm => exact load _ _ _ _ _ h
  case lwl rt rs imm => exact loadUnaligned _ _ _ _ h
  case lwr rt rs imm => exact loadUnaligned _ _ _ _ h
  case sb rt rs imm => exact store _ _ _ _ h
  case sh rt rs imm => exact store _ _ _ _ h
  case sw rt rs imm => exact store _ _ _ _ h
  case swl rt rs imm => exact storeUnaligned _ _ _ _ h
  case swr rt rs imm => exact storeUnaligned _ _ _ _ h
  case add rd rs rt =>
    simp only [exec, execAdd] at h
    split at h <;> cases h <;> exact ⟨rfl, rfl, rfl⟩
  case sub rd rs rt =>
    simp only [exec, execSub] at h
    split at h <;> cases h <;> exact ⟨rfl, rfl, rfl⟩
  case addi rt rs imm =>
    simp only [exec, execAddi] at h
    split at h <;> cases h <;> exact ⟨rfl, rfl, rfl⟩
  case mfc0 rt slot =>
    simp only [exec, execMfc0, cop0] at h
    split at h <;> cases h <;> exact ⟨rfl, rfl, rfl⟩
  case mtc0 rt slot =>
    simp only [exec, execMtc0, cop0] at h
    split at h <;> cases h <;> exact ⟨rfl, rfl, rfl⟩
  case rfe =>
    simp only [exec, execRfe, cop0] at h
    split at h <;> cases h <;> exact ⟨rfl, rfl, rfl⟩
  all_goals
    cases h
    exact ⟨rfl, rfl, rfl⟩

/-- The CPU's part of a cycle leaves the host-facing fields. -/
theorem cpuStep_host {s u : State} (h : cpuStep s = .next u) : SameHost s u := by
  rcases cpuStep_cases s with ⟨e, he⟩ | ⟨w, i, -, -, -, he⟩ <;> rw [he] at h
  · cases h
    exact ⟨rfl, rfl, rfl⟩
  · exact exec_host h

theorem cpuStep_cfg {s u : State} (h : cpuStep s = .next u) : u.cfg = s.cfg := (cpuStep_host h).cfg

/-- Before the end of the cycle, a step does behind the bus what one instruction does. -/
theorem cpuStep_busMove {s u : State} (h : cpuStep s = .next u) : BusMove s.cfg s.bus u.bus := by
  rcases cpuStep_cases s with ⟨e, he⟩ | ⟨w, i, -, -, -, he⟩ <;> rw [he] at h
  · cases h
    exact .none rfl
  · exact exec_busMove h

/-! ## The end of a cycle -/

/-- What the end of a cycle leaves: everything but the bus and the tick's count. -/
structure SameCpu (s t : State) : Prop where
  regs : t.regs = s.regs
  hi : t.hi = s.hi
  lo : t.lo = s.lo
  pc : t.pc = s.pc
  pcdelta : t.pcdelta = s.pcdelta
  inSlot : t.inSlot = s.inSlot
  ld : t.ld = s.ld
  faultCause : t.faultCause = s.faultCause
  faultPc : t.faultPc = s.faultPc
  scr : t.scr = s.scr
  comms : t.comms = s.comms
  cfg : t.cfg = s.cfg

theorem State.countCycle_sameCpu (s : State) : SameCpu s s.countCycle := by
  simp only [State.countCycle]
  split <;> exact ⟨rfl, rfl, rfl, rfl, rfl, rfl, rfl, rfl, rfl, rfl, rfl, rfl⟩

/-- `DmaStep` and the tick's count leave the CPU. -/
theorem State.endCycle_sameCpu (s : State) : SameCpu s s.endCycle := by
  have h := s.dmaStep.countCycle_sameCpu
  exact ⟨h.regs, h.hi, h.lo, h.pc, h.pcdelta, h.inSlot, h.ld, h.faultCause, h.faultPc, h.scr, h.comms, h.cfg⟩

/-- A step of the raster changes the line alone. -/
theorem Gpu.nextLine_gpu (g : Gpu) (lineCount : Nat) : ∃ l, (g.nextLine lineCount).1 = { g with line := l } := by
  simp only [Gpu.nextLine]
  split <;> exact ⟨_, rfl⟩

/-- What the tick's count does to the devices: nothing, or the raster line and at most the vertical-blank source
(60_exceptions.md R390). -/
theorem State.countCycle_bus (s : State) : s.countCycle.bus = s.bus ∨
    ∃ l, s.countCycle.bus = { s.bus with gpu := { s.bus.gpu with line := l } } ∨
      s.countCycle.bus = { s.bus with gpu := { s.bus.gpu with line := l }, ic := s.bus.ic.raiseSource s.cfg.irqVblank } := by
  simp only [State.countCycle]
  split
  · exact .inl rfl
  · right
    obtain ⟨l, hl⟩ := Gpu.nextLine_gpu s.bus.gpu s.cfg.lineCount
    refine ⟨l, ?_⟩
    simp only [State.tickEnd, hl]
    split
    · exact .inr rfl
    · exact .inl rfl

/-- The tick's count changes no byte of memory and no register of the DMA controller. -/
theorem State.countCycle_mem (s : State) : s.countCycle.bus.mem = s.bus.mem ∧ s.countCycle.bus.dma = s.bus.dma := by
  rcases s.countCycle_bus with h | ⟨l, h | h⟩ <;> rw [h] <;> exact ⟨rfl, rfl⟩

end Sys2Proof.Machine
end

