-- ==== Sys2Proof/Laws/Encoding.lean ====
section
/-! SUPPORT. Laws of the formats of 30_encoding.md R121 to R124: each field of a word written in a format is the field
that was put there. -/

namespace Sys2Proof

/-- The low part of a concatenation. -/
theorem extractLsb'_append_low {n m : Nat} (x : BitVec n) (y : BitVec m) (s k : Nat) (h : s + k ≤ m) :
    (x ++ y).extractLsb' s k = y.extractLsb' s k := by
  apply BitVec.eq_of_getLsbD_eq
  intro i hi
  simp only [BitVec.getLsbD_extractLsb', BitVec.getLsbD_append, hi, decide_true, Bool.true_and]
  rw [if_pos (by omega)]

/-- The high part of a concatenation. -/
theorem extractLsb'_append_high {n m : Nat} (x : BitVec n) (y : BitVec m) (s k : Nat) (h : m ≤ s) :
    (x ++ y).extractLsb' s k = x.extractLsb' (s - m) k := by
  apply BitVec.eq_of_getLsbD_eq
  intro i hi
  simp only [BitVec.getLsbD_extractLsb', BitVec.getLsbD_append, hi, decide_true, Bool.true_and]
  rw [if_neg (by omega), show s + i - m = s - m + i by omega]

/-- All the bits. -/
theorem extractLsb'_all {n : Nat} (x : BitVec n) : x.extractLsb' 0 n = x := by
  apply BitVec.eq_of_getLsbD_eq
  intro i hi
  simp [hi]

@[simp] theorem toFin_regBits (r : Fin 32) : (regBits r).toFin = r := rfl

@[simp] theorem regBits_toFin (x : BitVec 5) : regBits x.toFin = x := rfl

/-- The six parts of a concatenation in the R format. -/
theorem extract_r (a : BitVec 6) (b c d e : BitVec 5) (f : BitVec 6) :
    let w : BitVec (6 + 5 + 5 + 5 + 5 + 6) := a ++ b ++ c ++ d ++ e ++ f
    w.extractLsb' 26 6 = a ∧ w.extractLsb' 21 5 = b ∧ w.extractLsb' 16 5 = c ∧ w.extractLsb' 11 5 = d ∧
    w.extractLsb' 6 5 = e ∧ w.extractLsb' 0 6 = f := by
  intros
  refine ⟨?_, ?_, ?_, ?_, ?_, ?_⟩ <;>
    repeat (first
      | rw [extractLsb'_append_high _ _ _ _ (by decide)]
      | rw [extractLsb'_append_low _ _ _ _ (by decide)])
  all_goals exact extractLsb'_all _

/-- The four parts of a concatenation in the I format. -/
theorem extract_i (a : BitVec 6) (b c : BitVec 5) (d : BitVec 16) :
    let w : BitVec (6 + 5 + 5 + 16) := a ++ b ++ c ++ d
    w.extractLsb' 26 6 = a ∧ w.extractLsb' 21 5 = b ∧ w.extractLsb' 16 5 = c ∧ w.extractLsb' 0 16 = d := by
  intros
  refine ⟨?_, ?_, ?_, ?_⟩ <;>
    repeat (first
      | rw [extractLsb'_append_high _ _ _ _ (by decide)]
      | rw [extractLsb'_append_low _ _ _ _ (by decide)])
  all_goals exact extractLsb'_all _

/-- The two parts of a concatenation in the J format. -/
theorem extract_j (a : BitVec 6) (b : BitVec 26) :
    let w : BitVec (6 + 26) := a ++ b
    w.extractLsb' 26 6 = a ∧ w.extractLsb' 0 26 = b := by
  intros
  refine ⟨?_, ?_⟩ <;>
    repeat (first
      | rw [extractLsb'_append_high _ _ _ _ (by decide)]
      | rw [extractLsb'_append_low _ _ _ _ (by decide)])
  all_goals exact extractLsb'_all _

/-- The three parts of a concatenation in the format of SYSCALL and BREAK. -/
theorem extract_code (a : BitVec 6) (b : BitVec 20) (c : BitVec 6) :
    let w : BitVec (6 + 20 + 6) := a ++ b ++ c
    w.extractLsb' 26 6 = a ∧ w.extractLsb' 6 20 = b ∧ w.extractLsb' 0 6 = c := by
  intros
  refine ⟨?_, ?_, ?_⟩ <;>
    repeat (first
      | rw [extractLsb'_append_high _ _ _ _ (by decide)]
      | rw [extractLsb'_append_low _ _ _ _ (by decide)])
  all_goals exact extractLsb'_all _

/-- The five parts of a concatenation in the coprocessor format. -/
theorem extract_cop (a : BitVec 6) (b c d : BitVec 5) (e : BitVec 11) :
    let w : BitVec (6 + 5 + 5 + 5 + 11) := a ++ b ++ c ++ d ++ e
    w.extractLsb' 26 6 = a ∧ w.extractLsb' 21 5 = b ∧ w.extractLsb' 16 5 = c ∧ w.extractLsb' 11 5 = d ∧
    w.extractLsb' 0 11 = e := by
  intros
  refine ⟨?_, ?_, ?_, ?_, ?_⟩ <;>
    repeat (first
      | rw [extractLsb'_append_high _ _ _ _ (by decide)]
      | rw [extractLsb'_append_low _ _ _ _ (by decide)])
  all_goals exact extractLsb'_all _

/-- The parts of a word in the R format (R121). -/
theorem rWord_fields (rs rt rd : Fin 32) (sh : BitVec 5) (f : BitVec 6) :
    opField (rWord rs rt rd sh f) = 0#6 ∧ rsField (rWord rs rt rd sh f) = rs ∧ rtField (rWord rs rt rd sh f) = rt ∧
    rdField (rWord rs rt rd sh f) = rd ∧ shamtField (rWord rs rt rd sh f) = sh ∧
    functField (rWord rs rt rd sh f) = f := by
  have h := extract_r 0#6 (regBits rs) (regBits rt) (regBits rd) sh f
  exact ⟨h.1, congrArg BitVec.toFin h.2.1, congrArg BitVec.toFin h.2.2.1, congrArg BitVec.toFin h.2.2.2.1,
    h.2.2.2.2.1, h.2.2.2.2.2⟩

/-- The parts of a word in the I format (R122). -/
theorem iWord_fields (op : BitVec 6) (rs rt : Fin 32) (imm : BitVec 16) :
    opField (iWord op rs rt imm) = op ∧ rsField (iWord op rs rt imm) = rs ∧ rtField (iWord op rs rt imm) = rt ∧
    immField (iWord op rs rt imm) = imm := by
  have h := extract_i op (regBits rs) (regBits rt) imm
  exact ⟨h.1, congrArg BitVec.toFin h.2.1, congrArg BitVec.toFin h.2.2.1, h.2.2.2⟩

/-- The `rt` field of a word in the I format, as bits (R133). -/
theorem iWord_rt (op : BitVec 6) (rs rt : Fin 32) (imm : BitVec 16) :
    (iWord op rs rt imm).extractLsb' 16 5 = regBits rt := (extract_i op (regBits rs) (regBits rt) imm).2.2.1

/-- The parts of a word in the J format (R123). -/
theorem jWord_fields (op : BitVec 6) (low : BitVec 26) :
    opField (jWord op low) = op ∧ targetField (jWord op low) = low := extract_j op low

/-- The parts of a word of SYSCALL or BREAK (R121). -/
theorem codeWord_fields (code : BitVec 20) (f : BitVec 6) :
    opField (codeWord code f) = 0#6 ∧ codeField (codeWord code f) = code ∧ functField (codeWord code f) = f :=
  extract_code 0#6 code f

/-- The parts of a word of MFC0 or MTC0 (R124). -/
theorem copWord_fields (sub : BitVec 5) (rt slot : Fin 32) :
    opField (copWord sub rt slot) = 0x10#6 ∧ (copWord sub rt slot).extractLsb' 21 5 = sub ∧
    rtField (copWord sub rt slot) = rt ∧ rdField (copWord sub rt slot) = slot ∧
    (copWord sub rt slot).extractLsb' 0 11 = 0#11 := by
  have h := extract_cop 0x10#6 sub (regBits rt) (regBits slot) 0#11
  exact ⟨h.1, h.2.1, congrArg BitVec.toFin h.2.2.1, congrArg BitVec.toFin h.2.2.2.1, h.2.2.2.2⟩

end Sys2Proof
end

