-- ==== Sys2Proof/Laws/Operands.lean ====
section
/-! SUPPORT. Laws of the operand forms: the extensions of loaded values, the targets, and the merges of the unaligned
loads and stores, byte by byte. -/

namespace Sys2Proof.Machine

/-! ## Targets -/

/-- The target of J and JAL as a concatenation (30_encoding.md R127). -/
theorem jumpTarget_eq (pc : Word) (target : BitVec 26) :
    jumpTarget pc target = (pc + 4#32).extractLsb' 28 4 ++ target ++ 0#2 := by
  apply BitVec.eq_of_getLsbD_eq
  intro i hi
  simp only [jumpTarget, BitVec.getLsbD_or, BitVec.getLsbD_and, BitVec.getLsbD_shiftLeft, BitVec.getLsbD_append,
    BitVec.getLsbD_extractLsb', BitVec.getLsbD_setWidth]
  interval_cases i <;> simp

/-- The sign-extended immediate, as a number. -/
theorem sext16_eq (imm : BitVec 16) : sext16 imm = BitVec.ofInt 32 imm.toInt := rfl

/-- The byte offset of a conditional branch (30_encoding.md R126). -/
theorem sext16_shiftLeft (imm : BitVec 16) : sext16 imm <<< 2 = BitVec.ofInt 32 (4 * imm.toInt) := by
  rw [BitVec.shiftLeft_eq_mul_twoPow, sext16_eq, Int.mul_comm, BitVec.ofInt_mul]
  rfl

/-- The shift amount in a register counts modulo 32 (30_encoding.md R128). -/
theorem shiftAmount_eq (x : Word) : shiftAmount x = x.toNat % 32 := by
  simp [shiftAmount, BitVec.extractLsb'_toNat]

/-! ## Unaligned loads -/

/-- The LWL table, byte by byte (42_loadstore.md R207). -/
theorem laneByte_lwlMerge (c w : Word) {k j : Nat} (hk : k < 4) (hj : j < 4) : laneByte (lwlMerge k c w) j =
    if 3 ≤ k + j then laneByte w (k + j - 3) else laneByte c j := by
  apply BitVec.eq_of_getLsbD_eq
  intro i hi
  rw [show (if 3 ≤ k + j then laneByte w (k + j - 3) else laneByte c j).getLsbD i =
    if 3 ≤ k + j then w.getLsbD (8 * (k + j - 3) + i) else c.getLsbD (8 * j + i) by split <;> simp [laneByte_getLsbD _ _ _ hi]]
  rw [laneByte_getLsbD _ _ _ hi]
  interval_cases k <;> interval_cases j <;>
    simp only [lwlMerge, BitVec.getLsbD_or, BitVec.getLsbD_and, BitVec.getLsbD_shiftLeft] <;>
    interval_cases i <;> simp

/-- The LWR table, byte by byte (42_loadstore.md R208). -/
theorem laneByte_lwrMerge (c w : Word) {k j : Nat} (hk : k < 4) (hj : j < 4) : laneByte (lwrMerge k c w) j =
    if k + j ≤ 3 then laneByte w (k + j) else laneByte c j := by
  apply BitVec.eq_of_getLsbD_eq
  intro i hi
  rw [show (if k + j ≤ 3 then laneByte w (k + j) else laneByte c j).getLsbD i =
    if k + j ≤ 3 then w.getLsbD (8 * (k + j) + i) else c.getLsbD (8 * j + i) by split <;> simp [laneByte_getLsbD _ _ _ hi]]
  rw [laneByte_getLsbD _ _ _ hi]
  interval_cases k <;> interval_cases j <;>
    simp only [lwrMerge, BitVec.getLsbD_or, BitVec.getLsbD_and, BitVec.getLsbD_ushiftRight] <;>
    interval_cases i <;> simp

/-! ## Unaligned stores -/

/-- The SWL table by shifts: the word on the lanes and its mask (42_loadstore.md R214). -/
theorem swlStore_eq (x : Word) {k : Nat} (hk : k < 4) : (swlStore k x).1 = x >>> (8 * (3 - k)) ∧
    byteMask (swlStore k x).2 = 0xFFFFFFFF#32 >>> (8 * (3 - k)) ∧
    ∀ j, j < 4 → ((swlStore k x).2.getLsbD j = true ↔ j ≤ k) := by
  interval_cases k <;> simp only [swlStore] <;> exact ⟨by simp, by decide, by decide⟩

/-- The SWR table by shifts (42_loadstore.md R215). -/
theorem swrStore_eq (x : Word) {k : Nat} (hk : k < 4) : (swrStore k x).1 = x <<< (8 * k) ∧
    byteMask (swrStore k x).2 = 0xFFFFFFFF#32 <<< (8 * k) ∧
    ∀ j, j < 4 → ((swrStore k x).2.getLsbD j = true ↔ k ≤ j) := by
  interval_cases k <;> simp only [swrStore] <;> exact ⟨by simp, by decide, by decide⟩

end Sys2Proof.Machine
end

