-- ==== Sys2Proof/Laws/PerInstr.lean ====
section
/-! SUPPORT. Per instruction: the word of every instruction is a word of its own row of the match/mask table of
30_encoding.md R134. -/

namespace Sys2Proof.Laws

theorem and_ones6 (x : BitVec 6) : x &&& 0x3F#6 = x := BitVec.and_allOnes

theorem and_ones5 (x : BitVec 5) : x &&& 0x1F#5 = x := BitVec.and_allOnes

/-- A concatenation in the R format under a mask. -/
theorem and_r (a a' f f' : BitVec 6) (b c d e b' c' d' e' : BitVec 5) :
    (a ++ b ++ c ++ d ++ e ++ f : BitVec (6 + 5 + 5 + 5 + 5 + 6)) &&& (a' ++ b' ++ c' ++ d' ++ e' ++ f') =
      (a &&& a') ++ (b &&& b') ++ (c &&& c') ++ (d &&& d') ++ (e &&& e') ++ (f &&& f') := by
  rw [BitVec.and_append, BitVec.and_append, BitVec.and_append, BitVec.and_append, BitVec.and_append]

/-- A concatenation in the I format under a mask. -/
theorem and_i (a a' : BitVec 6) (b c b' c' : BitVec 5) (d d' : BitVec 16) :
    (a ++ b ++ c ++ d : BitVec (6 + 5 + 5 + 16)) &&& (a' ++ b' ++ c' ++ d') =
      (a &&& a') ++ (b &&& b') ++ (c &&& c') ++ (d &&& d') := by
  rw [BitVec.and_append, BitVec.and_append, BitVec.and_append]

/-- A concatenation in the J format under a mask. -/
theorem and_j (a a' : BitVec 6) (b b' : BitVec 26) :
    (a ++ b : BitVec (6 + 26)) &&& (a' ++ b') = (a &&& a') ++ (b &&& b') := by rw [BitVec.and_append]

/-- A concatenation in the format of SYSCALL and BREAK under a mask. -/
theorem and_code (a a' c c' : BitVec 6) (b b' : BitVec 20) :
    (a ++ b ++ c : BitVec (6 + 20 + 6)) &&& (a' ++ b' ++ c') = (a &&& a') ++ (b &&& b') ++ (c &&& c') := by
  rw [BitVec.and_append, BitVec.and_append]

/-- A concatenation in the coprocessor format under a mask. -/
theorem and_cop (a a' : BitVec 6) (b c d b' c' d' : BitVec 5) (e e' : BitVec 11) :
    (a ++ b ++ c ++ d ++ e : BitVec (6 + 5 + 5 + 5 + 11)) &&& (a' ++ b' ++ c' ++ d' ++ e') =
      (a &&& a') ++ (b &&& b') ++ (c &&& c') ++ (d &&& d') ++ (e &&& e') := by
  rw [BitVec.and_append, BitVec.and_append, BitVec.and_append, BitVec.and_append]

/-- A masked word in the R format (R121). -/
theorem rWord_and (rs rt rd : Fin 32) (sh : BitVec 5) (f : BitVec 6) (ms mt md mh : BitVec 5) :
    rWord rs rt rd sh f &&& (0x3F#6 ++ ms ++ mt ++ md ++ mh ++ 0x3F#6) =
      (0#6 ++ (regBits rs &&& ms) ++ (regBits rt &&& mt) ++ (regBits rd &&& md) ++ (sh &&& mh) ++ f : Word) := by
  have h := and_r 0#6 0x3F#6 f 0x3F#6 (regBits rs) (regBits rt) (regBits rd) sh ms mt md mh
  rw [and_ones6, and_ones6] at h
  exact h

/-- A masked word in the I format (R122). -/
theorem iWord_and (op : BitVec 6) (rs rt : Fin 32) (imm : BitVec 16) (ms mt : BitVec 5) :
    iWord op rs rt imm &&& (0x3F#6 ++ ms ++ mt ++ 0#16) =
      (op ++ (regBits rs &&& ms) ++ (regBits rt &&& mt) ++ 0#16 : Word) := by
  have h := and_i op 0x3F#6 (regBits rs) (regBits rt) ms mt imm 0#16
  rw [and_ones6, BitVec.and_zero] at h
  exact h

/-- A masked word in the J format (R123). -/
theorem jWord_and (op : BitVec 6) (low : BitVec 26) : jWord op low &&& (0x3F#6 ++ 0#26) = (op ++ 0#26 : Word) := by
  have h := and_j op 0x3F#6 low 0#26
  rw [and_ones6, BitVec.and_zero] at h
  exact h

/-- A masked word of SYSCALL or BREAK (R121). -/
theorem codeWord_and (code : BitVec 20) (f : BitVec 6) :
    codeWord code f &&& (0x3F#6 ++ 0#20 ++ 0x3F#6) = (0#6 ++ 0#20 ++ f : Word) := by
  have h := and_code 0#6 0x3F#6 f 0x3F#6 code 0#20
  rw [and_ones6, and_ones6, BitVec.and_zero] at h
  exact h

/-- A masked word of MFC0 or MTC0 (R124). -/
theorem copWord_and (sub : BitVec 5) (rt slot : Fin 32) :
    copWord sub rt slot &&& (0x3F#6 ++ 0x1F#5 ++ 0#5 ++ 0#5 ++ 0x7FF#11) = (0x10#6 ++ sub ++ 0#5 ++ 0#5 ++ 0#11 : Word) := by
  have h := and_cop 0x10#6 0x3F#6 sub (regBits rt) (regBits slot) 0x1F#5 0#5 0#5 0#11 0x7FF#11
  rw [and_ones6, and_ones5, BitVec.and_zero, BitVec.and_zero] at h
  exact h

namespace EncodingMatchesRow

/-- The instruction's word matches the row of its mnemonic. -/
def Statement (i : Instr) : Prop := ∃ r ∈ encodingTable, r.mnemonic = i.mnemonic ∧ r.matches (encode i) = true

/-- The row and the masked word are enough. -/
theorem of_row {i : Instr} (n : String) (p m : Word) (hn : n = i.mnemonic) (hr : (⟨n, p, m⟩ : EncRow) ∈ encodingTable)
    (hw : encode i &&& m = p) : Statement i := ⟨_, hr, hn, beq_iff_eq.mpr hw⟩

theorem sll (rd rt : RegIdx) (shamt : BitVec 5) : Statement (.sll rd rt shamt) :=
  of_row "SLL" 0x00000000#32 0xFFE0003F#32 rfl (by decide)
    ((rWord_and 0 rt rd shamt 0x00#6 0x1F#5 0x0#5 0x0#5 0x0#5).trans (by simp only [BitVec.and_zero]; rfl))

theorem srl (rd rt : RegIdx) (shamt : BitVec 5) : Statement (.srl rd rt shamt) :=
  of_row "SRL" 0x00000002#32 0xFFE0003F#32 rfl (by decide)
    ((rWord_and 0 rt rd shamt 0x02#6 0x1F#5 0x0#5 0x0#5 0x0#5).trans (by simp only [BitVec.and_zero]; rfl))

theorem sra (rd rt : RegIdx) (shamt : BitVec 5) : Statement (.sra rd rt shamt) :=
  of_row "SRA" 0x00000003#32 0xFFE0003F#32 rfl (by decide)
    ((rWord_and 0 rt rd shamt 0x03#6 0x1F#5 0x0#5 0x0#5 0x0#5).trans (by simp only [BitVec.and_zero]; rfl))

theorem sllv (rd rt rs : RegIdx) : Statement (.sllv rd rt rs) :=
  of_row "SLLV" 0x00000004#32 0xFC0007FF#32 rfl (by decide)
    ((rWord_and rs rt rd 0 0x04#6 0x0#5 0x0#5 0x0#5 0x1F#5).trans (by simp only [BitVec.and_zero]; rfl))

theorem srlv (rd rt rs : RegIdx) : Statement (.srlv rd rt rs) :=
  of_row "SRLV" 0x00000006#32 0xFC0007FF#32 rfl (by decide)
    ((rWord_and rs rt rd 0 0x06#6 0x0#5 0x0#5 0x0#5 0x1F#5).trans (by simp only [BitVec.and_zero]; rfl))

theorem srav (rd rt rs : RegIdx) : Statement (.srav rd rt rs) :=
  of_row "SRAV" 0x00000007#32 0xFC0007FF#32 rfl (by decide)
    ((rWord_and rs rt rd 0 0x07#6 0x0#5 0x0#5 0x0#5 0x1F#5).trans (by simp only [BitVec.and_zero]; rfl))

theorem jr (rs : RegIdx) : Statement (.jr rs) :=
  of_row "JR" 0x00000008#32 0xFC1FFFFF#32 rfl (by decide)
    ((rWord_and rs 0 0 0 0x08#6 0x0#5 0x1F#5 0x1F#5 0x1F#5).trans (by simp only [BitVec.and_zero]; rfl))

theorem jalr (rd rs : RegIdx) : Statement (.jalr rd rs) :=
  of_row "JALR" 0x00000009#32 0xFC1F07FF#32 rfl (by decide)
    ((rWord_and rs 0 rd 0 0x09#6 0x0#5 0x1F#5 0x0#5 0x1F#5).trans (by simp only [BitVec.and_zero]; rfl))

theorem syscall (code : BitVec 20) : Statement (.syscall code) :=
  of_row "SYSCALL" 0x0000000C#32 0xFC00003F#32 rfl (by decide)
    (codeWord_and code 0x0C#6)

theorem brk (code : BitVec 20) : Statement (.brk code) :=
  of_row "BREAK" 0x0000000D#32 0xFC00003F#32 rfl (by decide)
    (codeWord_and code 0x0D#6)

theorem mfhi (rd : RegIdx) : Statement (.mfhi rd) :=
  of_row "MFHI" 0x00000010#32 0xFFFF07FF#32 rfl (by decide)
    ((rWord_and 0 0 rd 0 0x10#6 0x1F#5 0x1F#5 0x0#5 0x1F#5).trans (by simp only [BitVec.and_zero]; rfl))

theorem mthi (rs : RegIdx) : Statement (.mthi rs) :=
  of_row "MTHI" 0x00000011#32 0xFC1FFFFF#32 rfl (by decide)
    ((rWord_and rs 0 0 0 0x11#6 0x0#5 0x1F#5 0x1F#5 0x1F#5).trans (by simp only [BitVec.and_zero]; rfl))

theorem mflo (rd : RegIdx) : Statement (.mflo rd) :=
  of_row "MFLO" 0x00000012#32 0xFFFF07FF#32 rfl (by decide)
    ((rWord_and 0 0 rd 0 0x12#6 0x1F#5 0x1F#5 0x0#5 0x1F#5).trans (by simp only [BitVec.and_zero]; rfl))

theorem mtlo (rs : RegIdx) : Statement (.mtlo rs) :=
  of_row "MTLO" 0x00000013#32 0xFC1FFFFF#32 rfl (by decide)
    ((rWord_and rs 0 0 0 0x13#6 0x0#5 0x1F#5 0x1F#5 0x1F#5).trans (by simp only [BitVec.and_zero]; rfl))

theorem mult (rs rt : RegIdx) : Statement (.mult rs rt) :=
  of_row "MULT" 0x00000018#32 0xFC00FFFF#32 rfl (by decide)
    ((rWord_and rs rt 0 0 0x18#6 0x0#5 0x0#5 0x1F#5 0x1F#5).trans (by simp only [BitVec.and_zero]; rfl))

theorem multu (rs rt : RegIdx) : Statement (.multu rs rt) :=
  of_row "MULTU" 0x00000019#32 0xFC00FFFF#32 rfl (by decide)
    ((rWord_and rs rt 0 0 0x19#6 0x0#5 0x0#5 0x1F#5 0x1F#5).trans (by simp only [BitVec.and_zero]; rfl))

theorem div (rs rt : RegIdx) : Statement (.div rs rt) :=
  of_row "DIV" 0x0000001A#32 0xFC00FFFF#32 rfl (by decide)
    ((rWord_and rs rt 0 0 0x1A#6 0x0#5 0x0#5 0x1F#5 0x1F#5).trans (by simp only [BitVec.and_zero]; rfl))

theorem divu (rs rt : RegIdx) : Statement (.divu rs rt) :=
  of_row "DIVU" 0x0000001B#32 0xFC00FFFF#32 rfl (by decide)
    ((rWord_and rs rt 0 0 0x1B#6 0x0#5 0x0#5 0x1F#5 0x1F#5).trans (by simp only [BitVec.and_zero]; rfl))

theorem add (rd rs rt : RegIdx) : Statement (.add rd rs rt) :=
  of_row "ADD" 0x00000020#32 0xFC0007FF#32 rfl (by decide)
    ((rWord_and rs rt rd 0 0x20#6 0x0#5 0x0#5 0x0#5 0x1F#5).trans (by simp only [BitVec.and_zero]; rfl))

theorem addu (rd rs rt : RegIdx) : Statement (.addu rd rs rt) :=
  of_row "ADDU" 0x00000021#32 0xFC0007FF#32 rfl (by decide)
    ((rWord_and rs rt rd 0 0x21#6 0x0#5 0x0#5 0x0#5 0x1F#5).trans (by simp only [BitVec.and_zero]; rfl))

theorem sub (rd rs rt : RegIdx) : Statement (.sub rd rs rt) :=
  of_row "SUB" 0x00000022#32 0xFC0007FF#32 rfl (by decide)
    ((rWord_and rs rt rd 0 0x22#6 0x0#5 0x0#5 0x0#5 0x1F#5).trans (by simp only [BitVec.and_zero]; rfl))

theorem subu (rd rs rt : RegIdx) : Statement (.subu rd rs rt) :=
  of_row "SUBU" 0x00000023#32 0xFC0007FF#32 rfl (by decide)
    ((rWord_and rs rt rd 0 0x23#6 0x0#5 0x0#5 0x0#5 0x1F#5).trans (by simp only [BitVec.and_zero]; rfl))

theorem and (rd rs rt : RegIdx) : Statement (.and rd rs rt) :=
  of_row "AND" 0x00000024#32 0xFC0007FF#32 rfl (by decide)
    ((rWord_and rs rt rd 0 0x24#6 0x0#5 0x0#5 0x0#5 0x1F#5).trans (by simp only [BitVec.and_zero]; rfl))

theorem or (rd rs rt : RegIdx) : Statement (.or rd rs rt) :=
  of_row "OR" 0x00000025#32 0xFC0007FF#32 rfl (by decide)
    ((rWord_and rs rt rd 0 0x25#6 0x0#5 0x0#5 0x0#5 0x1F#5).trans (by simp only [BitVec.and_zero]; rfl))

theorem xor (rd rs rt : RegIdx) : Statement (.xor rd rs rt) :=
  of_row "XOR" 0x00000026#32 0xFC0007FF#32 rfl (by decide)
    ((rWord_and rs rt rd 0 0x26#6 0x0#5 0x0#5 0x0#5 0x1F#5).trans (by simp only [BitVec.and_zero]; rfl))

theorem nor (rd rs rt : RegIdx) : Statement (.nor rd rs rt) :=
  of_row "NOR" 0x00000027#32 0xFC0007FF#32 rfl (by decide)
    ((rWord_and rs rt rd 0 0x27#6 0x0#5 0x0#5 0x0#5 0x1F#5).trans (by simp only [BitVec.and_zero]; rfl))

theorem slt (rd rs rt : RegIdx) : Statement (.slt rd rs rt) :=
  of_row "SLT" 0x0000002A#32 0xFC0007FF#32 rfl (by decide)
    ((rWord_and rs rt rd 0 0x2A#6 0x0#5 0x0#5 0x0#5 0x1F#5).trans (by simp only [BitVec.and_zero]; rfl))

theorem sltu (rd rs rt : RegIdx) : Statement (.sltu rd rs rt) :=
  of_row "SLTU" 0x0000002B#32 0xFC0007FF#32 rfl (by decide)
    ((rWord_and rs rt rd 0 0x2B#6 0x0#5 0x0#5 0x0#5 0x1F#5).trans (by simp only [BitVec.and_zero]; rfl))

theorem bltz (rs : RegIdx) (imm : BitVec 16) : Statement (.bltz rs imm) :=
  of_row "BLTZ" 0x04000000#32 0xFC1F0000#32 rfl (by decide)
    ((iWord_and 0x01#6 rs 0x00 imm 0x0#5 0x1F#5).trans (by simp only [BitVec.and_zero]; rfl))

theorem bgez (rs : RegIdx) (imm : BitVec 16) : Statement (.bgez rs imm) :=
  of_row "BGEZ" 0x04010000#32 0xFC1F0000#32 rfl (by decide)
    ((iWord_and 0x01#6 rs 0x01 imm 0x0#5 0x1F#5).trans (by simp only [BitVec.and_zero]; rfl))

theorem bltzal (rs : RegIdx) (imm : BitVec 16) : Statement (.bltzal rs imm) :=
  of_row "BLTZAL" 0x04100000#32 0xFC1F0000#32 rfl (by decide)
    ((iWord_and 0x01#6 rs 0x10 imm 0x0#5 0x1F#5).trans (by simp only [BitVec.and_zero]; rfl))

theorem bgezal (rs : RegIdx) (imm : BitVec 16) : Statement (.bgezal rs imm) :=
  of_row "BGEZAL" 0x04110000#32 0xFC1F0000#32 rfl (by decide)
    ((iWord_and 0x01#6 rs 0x11 imm 0x0#5 0x1F#5).trans (by simp only [BitVec.and_zero]; rfl))

theorem j (target : BitVec 26) : Statement (.j target) :=
  of_row "J" 0x08000000#32 0xFC000000#32 rfl (by decide)
    (jWord_and 0x02#6 target)

theorem jal (target : BitVec 26) : Statement (.jal target) :=
  of_row "JAL" 0x0C000000#32 0xFC000000#32 rfl (by decide)
    (jWord_and 0x03#6 target)

theorem beq (rs rt : RegIdx) (imm : BitVec 16) : Statement (.beq rs rt imm) :=
  of_row "BEQ" 0x10000000#32 0xFC000000#32 rfl (by decide)
    ((iWord_and 0x04#6 rs rt imm 0x0#5 0x0#5).trans (by simp only [BitVec.and_zero]; rfl))

theorem bne (rs rt : RegIdx) (imm : BitVec 16) : Statement (.bne rs rt imm) :=
  of_row "BNE" 0x14000000#32 0xFC000000#32 rfl (by decide)
    ((iWord_and 0x05#6 rs rt imm 0x0#5 0x0#5).trans (by simp only [BitVec.and_zero]; rfl))

theorem blez (rs : RegIdx) (imm : BitVec 16) : Statement (.blez rs imm) :=
  of_row "BLEZ" 0x18000000#32 0xFC1F0000#32 rfl (by decide)
    ((iWord_and 0x06#6 rs 0 imm 0x0#5 0x1F#5).trans (by simp only [BitVec.and_zero]; rfl))

theorem bgtz (rs : RegIdx) (imm : BitVec 16) : Statement (.bgtz rs imm) :=
  of_row "BGTZ" 0x1C000000#32 0xFC1F0000#32 rfl (by decide)
    ((iWord_and 0x07#6 rs 0 imm 0x0#5 0x1F#5).trans (by simp only [BitVec.and_zero]; rfl))

theorem addi (rt rs : RegIdx) (imm : BitVec 16) : Statement (.addi rt rs imm) :=
  of_row "ADDI" 0x20000000#32 0xFC000000#32 rfl (by decide)
    ((iWord_and 0x08#6 rs rt imm 0x0#5 0x0#5).trans (by simp only [BitVec.and_zero]; rfl))

theorem addiu (rt rs : RegIdx) (imm : BitVec 16) : Statement (.addiu rt rs imm) :=
  of_row "ADDIU" 0x24000000#32 0xFC000000#32 rfl (by decide)
    ((iWord_and 0x09#6 rs rt imm 0x0#5 0x0#5).trans (by simp only [BitVec.and_zero]; rfl))

theorem slti (rt rs : RegIdx) (imm : BitVec 16) : Statement (.slti rt rs imm) :=
  of_row "SLTI" 0x28000000#32 0xFC000000#32 rfl (by decide)
    ((iWord_and 0x0A#6 rs rt imm 0x0#5 0x0#5).trans (by simp only [BitVec.and_zero]; rfl))

theorem sltiu (rt rs : RegIdx) (imm : BitVec 16) : Statement (.sltiu rt rs imm) :=
  of_row "SLTIU" 0x2C000000#32 0xFC000000#32 rfl (by decide)
    ((iWord_and 0x0B#6 rs rt imm 0x0#5 0x0#5).trans (by simp only [BitVec.and_zero]; rfl))

theorem andi (rt rs : RegIdx) (imm : BitVec 16) : Statement (.andi rt rs imm) :=
  of_row "ANDI" 0x30000000#32 0xFC000000#32 rfl (by decide)
    ((iWord_and 0x0C#6 rs rt imm 0x0#5 0x0#5).trans (by simp only [BitVec.and_zero]; rfl))

theorem ori (rt rs : RegIdx) (imm : BitVec 16) : Statement (.ori rt rs imm) :=
  of_row "ORI" 0x34000000#32 0xFC000000#32 rfl (by decide)
    ((iWord_and 0x0D#6 rs rt imm 0x0#5 0x0#5).trans (by simp only [BitVec.and_zero]; rfl))

theorem xori (rt rs : RegIdx) (imm : BitVec 16) : Statement (.xori rt rs imm) :=
  of_row "XORI" 0x38000000#32 0xFC000000#32 rfl (by decide)
    ((iWord_and 0x0E#6 rs rt imm 0x0#5 0x0#5).trans (by simp only [BitVec.and_zero]; rfl))

theorem lui (rt : RegIdx) (imm : BitVec 16) : Statement (.lui rt imm) :=
  of_row "LUI" 0x3C000000#32 0xFFE00000#32 rfl (by decide)
    ((iWord_and 0x0F#6 0 rt imm 0x1F#5 0x0#5).trans (by simp only [BitVec.and_zero]; rfl))

theorem mfc0 (rt : RegIdx) (slot : SlotIdx) : Statement (.mfc0 rt slot) :=
  of_row "MFC0" 0x40000000#32 0xFFE007FF#32 rfl (by decide)
    (copWord_and 0x00#5 rt slot)

theorem mtc0 (rt : RegIdx) (slot : SlotIdx) : Statement (.mtc0 rt slot) :=
  of_row "MTC0" 0x40800000#32 0xFFE007FF#32 rfl (by decide)
    (copWord_and 0x04#5 rt slot)

theorem rfe : Statement (.rfe) :=
  of_row "RFE" 0x42000010#32 0xFFFFFFFF#32 rfl (by decide)
    (rfl)

theorem cop1 (low : BitVec 26) : Statement (.cop1 low) :=
  of_row "COP1" 0x44000000#32 0xFC000000#32 rfl (by decide)
    (jWord_and 0x11#6 low)

theorem cop2 (low : BitVec 26) : Statement (.cop2 low) :=
  of_row "COP2" 0x48000000#32 0xFC000000#32 rfl (by decide)
    (jWord_and 0x12#6 low)

theorem cop3 (low : BitVec 26) : Statement (.cop3 low) :=
  of_row "COP3" 0x4C000000#32 0xFC000000#32 rfl (by decide)
    (jWord_and 0x13#6 low)

theorem lb (rt rs : RegIdx) (imm : BitVec 16) : Statement (.lb rt rs imm) :=
  of_row "LB" 0x80000000#32 0xFC000000#32 rfl (by decide)
    ((iWord_and 0x20#6 rs rt imm 0x0#5 0x0#5).trans (by simp only [BitVec.and_zero]; rfl))

theorem lh (rt rs : RegIdx) (imm : BitVec 16) : Statement (.lh rt rs imm) :=
  of_row "LH" 0x84000000#32 0xFC000000#32 rfl (by decide)
    ((iWord_and 0x21#6 rs rt imm 0x0#5 0x0#5).trans (by simp only [BitVec.and_zero]; rfl))

theorem lwl (rt rs : RegIdx) (imm : BitVec 16) : Statement (.lwl rt rs imm) :=
  of_row "LWL" 0x88000000#32 0xFC000000#32 rfl (by decide)
    ((iWord_and 0x22#6 rs rt imm 0x0#5 0x0#5).trans (by simp only [BitVec.and_zero]; rfl))

theorem lw (rt rs : RegIdx) (imm : BitVec 16) : Statement (.lw rt rs imm) :=
  of_row "LW" 0x8C000000#32 0xFC000000#32 rfl (by decide)
    ((iWord_and 0x23#6 rs rt imm 0x0#5 0x0#5).trans (by simp only [BitVec.and_zero]; rfl))

theorem lbu (rt rs : RegIdx) (imm : BitVec 16) : Statement (.lbu rt rs imm) :=
  of_row "LBU" 0x90000000#32 0xFC000000#32 rfl (by decide)
    ((iWord_and 0x24#6 rs rt imm 0x0#5 0x0#5).trans (by simp only [BitVec.and_zero]; rfl))

theorem lhu (rt rs : RegIdx) (imm : BitVec 16) : Statement (.lhu rt rs imm) :=
  of_row "LHU" 0x94000000#32 0xFC000000#32 rfl (by decide)
    ((iWord_and 0x25#6 rs rt imm 0x0#5 0x0#5).trans (by simp only [BitVec.and_zero]; rfl))

theorem lwr (rt rs : RegIdx) (imm : BitVec 16) : Statement (.lwr rt rs imm) :=
  of_row "LWR" 0x98000000#32 0xFC000000#32 rfl (by decide)
    ((iWord_and 0x26#6 rs rt imm 0x0#5 0x0#5).trans (by simp only [BitVec.and_zero]; rfl))

theorem sb (rt rs : RegIdx) (imm : BitVec 16) : Statement (.sb rt rs imm) :=
  of_row "SB" 0xA0000000#32 0xFC000000#32 rfl (by decide)
    ((iWord_and 0x28#6 rs rt imm 0x0#5 0x0#5).trans (by simp only [BitVec.and_zero]; rfl))

theorem sh (rt rs : RegIdx) (imm : BitVec 16) : Statement (.sh rt rs imm) :=
  of_row "SH" 0xA4000000#32 0xFC000000#32 rfl (by decide)
    ((iWord_and 0x29#6 rs rt imm 0x0#5 0x0#5).trans (by simp only [BitVec.and_zero]; rfl))

theorem swl (rt rs : RegIdx) (imm : BitVec 16) : Statement (.swl rt rs imm) :=
  of_row "SWL" 0xA8000000#32 0xFC000000#32 rfl (by decide)
    ((iWord_and 0x2A#6 rs rt imm 0x0#5 0x0#5).trans (by simp only [BitVec.and_zero]; rfl))

theorem sw (rt rs : RegIdx) (imm : BitVec 16) : Statement (.sw rt rs imm) :=
  of_row "SW" 0xAC000000#32 0xFC000000#32 rfl (by decide)
    ((iWord_and 0x2B#6 rs rt imm 0x0#5 0x0#5).trans (by simp only [BitVec.and_zero]; rfl))

theorem swr (rt rs : RegIdx) (imm : BitVec 16) : Statement (.swr rt rs imm) :=
  of_row "SWR" 0xB8000000#32 0xFC000000#32 rfl (by decide)
    ((iWord_and 0x2E#6 rs rt imm 0x0#5 0x0#5).trans (by simp only [BitVec.and_zero]; rfl))

theorem lwc1 (low : BitVec 26) : Statement (.lwc1 low) :=
  of_row "LWC1" 0xC4000000#32 0xFC000000#32 rfl (by decide)
    (jWord_and 0x31#6 low)

theorem lwc2 (low : BitVec 26) : Statement (.lwc2 low) :=
  of_row "LWC2" 0xC8000000#32 0xFC000000#32 rfl (by decide)
    (jWord_and 0x32#6 low)

theorem lwc3 (low : BitVec 26) : Statement (.lwc3 low) :=
  of_row "LWC3" 0xCC000000#32 0xFC000000#32 rfl (by decide)
    (jWord_and 0x33#6 low)

theorem swc1 (low : BitVec 26) : Statement (.swc1 low) :=
  of_row "SWC1" 0xE4000000#32 0xFC000000#32 rfl (by decide)
    (jWord_and 0x39#6 low)

theorem swc2 (low : BitVec 26) : Statement (.swc2 low) :=
  of_row "SWC2" 0xE8000000#32 0xFC000000#32 rfl (by decide)
    (jWord_and 0x3A#6 low)

theorem swc3 (low : BitVec 26) : Statement (.swc3 low) :=
  of_row "SWC3" 0xEC000000#32 0xFC000000#32 rfl (by decide)
    (jWord_and 0x3B#6 low)

end EncodingMatchesRow

end Sys2Proof.Laws
end

