-- ==== Sys2Proof/Tests/Slice0.lean ====
section
/-! SUPPORT. The model's own tests: ill-formed words for each check of WellFormed and Decode, every constructor's decoding
from a word written out from the table of 30_encoding.md R134, one step of every instruction with the values of
95_test_vectors.md (the vector is named before each theorem), and for every statement with hypotheses a witness that
meets them. -/

namespace Sys2Proof.Tests

open Sys2Proof Sys2Proof.Machine

/-! ## Ill-formed words, one kind of check after the other (30_encoding.md R135; vectors X1, K16, K19) -/

theorem test_reserved_opcode : wordWellFormed 0xFC000000#32 = false ∧ decode 0xFC000000#32 = .error .reservedOpcode ∧
    wordWellFormed 0xC0000000#32 = false ∧ decode 0xC0000000#32 = .error .reservedOpcode := by decide

theorem test_reserved_funct : wordWellFormed 0x00000001#32 = false ∧ decode 0x00000001#32 = .error .reservedFunct := by
  decide

theorem test_reserved_regimm : wordWellFormed 0x04020000#32 = false ∧ decode 0x04020000#32 = .error .reservedRegimm := by
  decide

theorem test_must_be_zero_rs : wordWellFormed 0x00200000#32 = false ∧ decode 0x00200000#32 = .error .mustBeZero ∧
    wordWellFormed 0x3C200000#32 = false ∧ decode 0x3C200000#32 = .error .mustBeZero := by decide

theorem test_must_be_zero_rt : wordWellFormed 0x19010003#32 = false ∧ decode 0x19010003#32 = .error .mustBeZero := by
  decide

theorem test_must_be_zero_rd : wordWellFormed 0x01000808#32 = false ∧ decode 0x01000808#32 = .error .mustBeZero := by
  decide

theorem test_must_be_zero_shamt : wordWellFormed 0x01095060#32 = false ∧ decode 0x01095060#32 = .error .mustBeZero := by
  decide

theorem test_reserved_cop0 : wordWellFormed 0x42000001#32 = false ∧ decode 0x42000001#32 = .error .reservedCop0 ∧
    wordWellFormed 0x40096001#32 = false ∧ decode 0x40096001#32 = .error .reservedCop0 := by decide

theorem test_truncated : decodeBytes [0x12#8, 0x34#8, 0x56#8] = .error .truncated := by decide

/-- 20_memory.md R74: the first byte is the low byte of the word. -/
theorem test_decode_bytes_little_endian :
    decodeBytes [0x00#8, 0x49#8, 0x08#8, 0x00#8, 0xFF#8] = .ok (.sll 9 8 4, [0xFF#8]) ∧
    decodeTableWord 32 0x00084900 = some (.sll 9 8 4) := by decide

/-! ## Decoding every constructor -/

theorem test_decode_special_shift_and_jump :
    decode 0b00000000000010011101010101000000#32 = .ok (.sll 26 9 0x15#5) ∧
    decode 0b00000000000010011101010101000010#32 = .ok (.srl 26 9 0x15#5) ∧
    decode 0b00000000000010011101010101000011#32 = .ok (.sra 26 9 0x15#5) ∧
    decode 0b00000000100010011101000000000100#32 = .ok (.sllv 26 9 4) ∧
    decode 0b00000000100010011101000000000110#32 = .ok (.srlv 26 9 4) ∧
    decode 0b00000000100010011101000000000111#32 = .ok (.srav 26 9 4) ∧
    decode 0b00000000100000000000000000001000#32 = .ok (.jr 4) ∧
    decode 0b00000000100000001101000000001001#32 = .ok (.jalr 26 4) ∧
    decode 0b00000011000011010110100111001100#32 = .ok (.syscall 0xC35A7#20) ∧
    decode 0b00000011000011010110100111001101#32 = .ok (.brk 0xC35A7#20) := by decide

theorem test_decode_special_muldiv :
    decode 0b00000000000000001101000000010000#32 = .ok (.mfhi 26) ∧
    decode 0b00000000100000000000000000010001#32 = .ok (.mthi 4) ∧
    decode 0b00000000000000001101000000010010#32 = .ok (.mflo 26) ∧
    decode 0b00000000100000000000000000010011#32 = .ok (.mtlo 4) ∧
    decode 0b00000000100010010000000000011000#32 = .ok (.mult 4 9) ∧
    decode 0b00000000100010010000000000011001#32 = .ok (.multu 4 9) ∧
    decode 0b00000000100010010000000000011010#32 = .ok (.div 4 9) ∧
    decode 0b00000000100010010000000000011011#32 = .ok (.divu 4 9) := by decide

theorem test_decode_special_alu :
    decode 0b00000000100010011101000000100000#32 = .ok (.add 26 4 9) ∧
    decode 0b00000000100010011101000000100001#32 = .ok (.addu 26 4 9) ∧
    decode 0b00000000100010011101000000100010#32 = .ok (.sub 26 4 9) ∧
    decode 0b00000000100010011101000000100011#32 = .ok (.subu 26 4 9) ∧
    decode 0b00000000100010011101000000100100#32 = .ok (.and 26 4 9) ∧
    decode 0b00000000100010011101000000100101#32 = .ok (.or 26 4 9) ∧
    decode 0b00000000100010011101000000100110#32 = .ok (.xor 26 4 9) ∧
    decode 0b00000000100010011101000000100111#32 = .ok (.nor 26 4 9) ∧
    decode 0b00000000100010011101000000101010#32 = .ok (.slt 26 4 9) ∧
    decode 0b00000000100010011101000000101011#32 = .ok (.sltu 26 4 9) := by decide

theorem test_decode_regimm_and_branches :
    decode 0b00000100100000001001101000000101#32 = .ok (.bltz 4 0x9A05#16) ∧
    decode 0b00000100100000011001101000000101#32 = .ok (.bgez 4 0x9A05#16) ∧
    decode 0b00000100100100001001101000000101#32 = .ok (.bltzal 4 0x9A05#16) ∧
    decode 0b00000100100100011001101000000101#32 = .ok (.bgezal 4 0x9A05#16) ∧
    decode 0b00001010101010111100110111100001#32 = .ok (.j 0x2ABCDE1#26) ∧
    decode 0b00001110101010111100110111100001#32 = .ok (.jal 0x2ABCDE1#26) ∧
    decode 0b00010000100010011001101000000101#32 = .ok (.beq 4 9 0x9A05#16) ∧
    decode 0b00010100100010011001101000000101#32 = .ok (.bne 4 9 0x9A05#16) ∧
    decode 0b00011000100000001001101000000101#32 = .ok (.blez 4 0x9A05#16) ∧
    decode 0b00011100100000001001101000000101#32 = .ok (.bgtz 4 0x9A05#16) := by decide

theorem test_decode_immediates :
    decode 0b00100000100010011001101000000101#32 = .ok (.addi 9 4 0x9A05#16) ∧
    decode 0b00100100100010011001101000000101#32 = .ok (.addiu 9 4 0x9A05#16) ∧
    decode 0b00101000100010011001101000000101#32 = .ok (.slti 9 4 0x9A05#16) ∧
    decode 0b00101100100010011001101000000101#32 = .ok (.sltiu 9 4 0x9A05#16) ∧
    decode 0b00110000100010011001101000000101#32 = .ok (.andi 9 4 0x9A05#16) ∧
    decode 0b00110100100010011001101000000101#32 = .ok (.ori 9 4 0x9A05#16) ∧
    decode 0b00111000100010011001101000000101#32 = .ok (.xori 9 4 0x9A05#16) ∧
    decode 0b00111100000010011001101000000101#32 = .ok (.lui 9 0x9A05#16) := by decide

theorem test_decode_cop0_and_coprocessors :
    decode 0b01000000000010011101000000000000#32 = .ok (.mfc0 9 26) ∧
    decode 0b01000000100010011101000000000000#32 = .ok (.mtc0 9 26) ∧
    decode 0b01000010000000000000000000010000#32 = .ok .rfe ∧
    decode 0b01000110101010111100110111100001#32 = .ok (.cop1 0x2ABCDE1#26) ∧
    decode 0b01001010101010111100110111100001#32 = .ok (.cop2 0x2ABCDE1#26) ∧
    decode 0b01001110101010111100110111100001#32 = .ok (.cop3 0x2ABCDE1#26) := by decide

theorem test_decode_loads :
    decode 0b10000000100010011001101000000101#32 = .ok (.lb 9 4 0x9A05#16) ∧
    decode 0b10000100100010011001101000000101#32 = .ok (.lh 9 4 0x9A05#16) ∧
    decode 0b10001000100010011001101000000101#32 = .ok (.lwl 9 4 0x9A05#16) ∧
    decode 0b10001100100010011001101000000101#32 = .ok (.lw 9 4 0x9A05#16) ∧
    decode 0b10010000100010011001101000000101#32 = .ok (.lbu 9 4 0x9A05#16) ∧
    decode 0b10010100100010011001101000000101#32 = .ok (.lhu 9 4 0x9A05#16) ∧
    decode 0b10011000100010011001101000000101#32 = .ok (.lwr 9 4 0x9A05#16) := by decide

theorem test_decode_stores_and_coprocessor_memory :
    decode 0b10100000100010011001101000000101#32 = .ok (.sb 9 4 0x9A05#16) ∧
    decode 0b10100100100010011001101000000101#32 = .ok (.sh 9 4 0x9A05#16) ∧
    decode 0b10101000100010011001101000000101#32 = .ok (.swl 9 4 0x9A05#16) ∧
    decode 0b10101100100010011001101000000101#32 = .ok (.sw 9 4 0x9A05#16) ∧
    decode 0b10111000100010011001101000000101#32 = .ok (.swr 9 4 0x9A05#16) ∧
    decode 0b11000110101010111100110111100001#32 = .ok (.lwc1 0x2ABCDE1#26) ∧
    decode 0b11001010101010111100110111100001#32 = .ok (.lwc2 0x2ABCDE1#26) ∧
    decode 0b11001110101010111100110111100001#32 = .ok (.lwc3 0x2ABCDE1#26) ∧
    decode 0b11100110101010111100110111100001#32 = .ok (.swc1 0x2ABCDE1#26) ∧
    decode 0b11101010101010111100110111100001#32 = .ok (.swc2 0x2ABCDE1#26) ∧
    decode 0b11101110101010111100110111100001#32 = .ok (.swc3 0x2ABCDE1#26) := by decide

/-! ## One step

The state before is that of 95_test_vectors.md: `pc` = 0x8001_0000, SR as given, the named registers, the word at `pc`. -/

/-- The listed configuration, and the bus and the GPU it resets to. -/
abbrev listed : Config.Params := Config.Params.listed
abbrev bus0 : Bus := Bus.reset listed
abbrev gpu0 : Gpu := Gpu.reset listed

/-- The start state of a vector. -/
def start (sr : Word) (regs : List (RegIdx × Word)) : State :=
  { State.reset with
    pc := 0x80010000#32
    scr := writeSlot State.reset.scr 12 sr
    regs := regs.foldl (fun v p => writeReg v p.1 p.2) State.reset.regs }

/-- The same in user mode at 0x0001_0000. -/
def startUser (sr : Word) (regs : List (RegIdx × Word)) : State := { start sr regs with pc := 0x00010000#32 }

/-- `s` with the word `w` at physical address `p`. -/
def withWord (s : State) (p : Nat) (w : Word) : State :=
  { s with bus := { s.bus with mem := s.bus.mem.writeWord p w } }

/-- The state a step answers. -/
def nextOf (s : State) : State :=
  match step s with
  | .next t => t
  | .fault _ => s
  | .refused _ => s

/-- The state one cycle after `s` with the word `w` at `pc`. -/
def after (w : Word) (s : State) : State := nextOf (s.withFetchWord 32 w.toNat)

/-- Register `r` after the word `w`, from `$t0` = `a` and `$t1` = `b`. -/
def alu (w a b : Word) (r : RegIdx) : Word := (after w (start 0#32 [(8, a), (9, b)])).reg r

/-- `hi` and `lo` after the word `w`, from `$t0` = `a` and `$t1` = `b`. -/
def hiLo (w a b : Word) : Word × Word :=
  let t := after w (start 0#32 [(8, a), (9, b)])
  (t.hi, t.lo)

/-- What a trap leaves: CAUSE, EPC, BADV, SR, `pc`. -/
def trapOf (t : State) : Word × Word × Word × Word × Word := (t.cause, t.epc, t.badv, t.sr, t.pc)

/-- The state before the loads of section 2.4, with `$a0` = `a`. -/
def loadStart (a : Word) : State :=
  withWord (withWord (start 0#32 [(4, a), (9, 0x11223344#32)]) 0x100 0x84838281#32) 0x104 0x7F6F5F4F#32

/-- `ld.val` after a load word, if `$t1` is still its old value and `ld` names it. -/
def loaded (w a : Word) : Option Word :=
  let t := after w (loadStart a)
  if t.reg 9 = 0x11223344#32 ∧ t.ld.reg = 9 ∧ t.ld.kind = .mem then some t.ld.val else none

/-- The word at physical 0x100 after a store word of section 2.5. -/
def stored (w : Word) : Word :=
  (after w (withWord (start 0#32 [(4, 0x80000100#32), (9, 0x11223344#32)]) 0x100 0xAABBCCDD#32)).bus.mem.readWord 0x100

/-- `pcdelta` after a branch word, from `$t0` = `a` and `$t1` = `b`, if `pc` and `in_slot` are right. -/
def branch (w a b : Word) : Option Word :=
  let t := after w (start 0#32 [(8, a), (9, b)])
  if t.pc = 0x80010004#32 ∧ t.inSlot = true then some t.pcdelta else none

/-- `pcdelta` and `$ra` after a linking word, from `$t0` = `a` and `$ra` = `b`. -/
def link (w a b : Word) : Word × Word :=
  let t := after w (start 0#32 [(8, a), (31, b)])
  (t.pcdelta, t.reg 31)

/-- An `Ov` trap of a vector: the destination `r` still holds `v`. -/
def overflows (w a b : Word) (r : RegIdx) (v : Word) : Bool :=
  let t := after w (start 0#32 [(8, a), (9, b)])
  trapOf t == (0x30#32, 0x80010000#32, 0#32, 0#32, 0x80000080#32) && t.reg r == v

/-- A1, A3, A5. -/
theorem test_add :
    overflows 0x01095020#32 0x7FFFFFFF#32 0x00000001#32 10 0x0#32 = true ∧
    alu 0x01095020#32 0x7FFFFFFF#32 0xFFFFFFFF#32 10 = 0x7FFFFFFE#32 ∧
    overflows 0x01084020#32 0x40000000#32 0x0#32 8 0x40000000#32 = true := by decide

/-- A6, A7. -/
theorem test_addu :
    alu 0x01095021#32 0x7FFFFFFF#32 0x1#32 10 = 0x80000000#32 ∧
    alu 0x01095021#32 0xFFFFFFFF#32 0x1#32 10 = 0x0#32 := by decide

/-- A8, A9, A10. -/
theorem test_sub :
    overflows 0x01095022#32 0x80000000#32 0x1#32 10 0x0#32 = true ∧
    overflows 0x01095022#32 0x0#32 0x80000000#32 10 0x0#32 = true ∧
    alu 0x01095022#32 0x5#32 0x7#32 10 = 0xFFFFFFFE#32 := by decide

/-- A11, A12. -/
theorem test_subu :
    alu 0x01095023#32 0x0#32 0x1#32 10 = 0xFFFFFFFF#32 ∧
    alu 0x01095023#32 0x80000000#32 0x1#32 10 = 0x7FFFFFFF#32 := by decide

/-- A13. -/
theorem test_and :
    alu 0x01095024#32 0xFF00FF00#32 0x0FF00FF0#32 10 = 0x0F000F00#32 := by decide

/-- A14. -/
theorem test_or :
    alu 0x01095025#32 0xFF00FF00#32 0x0FF00FF0#32 10 = 0xFFF0FFF0#32 := by decide

/-- A15. -/
theorem test_xor :
    alu 0x01095026#32 0xFF00FF00#32 0x0FF00FF0#32 10 = 0xF0F0F0F0#32 := by decide

/-- A16, A17. -/
theorem test_nor :
    alu 0x01095027#32 0xFF00FF00#32 0x0FF00FF0#32 10 = 0x000F000F#32 ∧
    alu 0x00005027#32 0x0#32 0x0#32 10 = 0xFFFFFFFF#32 := by decide

/-- A18, A19. -/
theorem test_slt :
    alu 0x0109502A#32 0x80000000#32 0x7FFFFFFF#32 10 = 0x1#32 ∧ alu 0x0109502A#32 0x5#32 0x5#32 10 = 0x0#32 := by decide

/-- A20, A21. -/
theorem test_sltu :
    alu 0x0109502B#32 0x80000000#32 0x7FFFFFFF#32 10 = 0x0#32 ∧
    alu 0x0009502B#32 0x0#32 0x7FFFFFFF#32 10 = 0x1#32 := by decide

/-- A22, A23. -/
theorem test_sll :
    alu 0x00084FC0#32 0x3#32 0x0#32 9 = 0x80000000#32 ∧ alu 0x00084800#32 0x12345678#32 0x0#32 9 = 0x12345678#32 := by
  decide

/-- A24, A25. -/
theorem test_srl :
    alu 0x00084FC2#32 0x80000000#32 0x0#32 9 = 0x1#32 ∧ alu 0x00084902#32 0xF0000000#32 0x0#32 9 = 0x0F000000#32 := by
  decide

/-- A26, A27, A28. -/
theorem test_sra :
    alu 0x00084FC3#32 0x80000000#32 0x0#32 9 = 0xFFFFFFFF#32 ∧
    alu 0x00084903#32 0xF0000000#32 0x0#32 9 = 0xFF000000#32 ∧
    alu 0x00084903#32 0x70000000#32 0x0#32 9 = 0x07000000#32 := by decide

/-- A29, A30. -/
theorem test_sllv :
    alu 0x01285004#32 0x1#32 0x20#32 10 = 0x1#32 ∧ alu 0x01285004#32 0x1#32 0xFFFFFFFF#32 10 = 0x80000000#32 := by
  decide

/-- A31. -/
theorem test_srlv :
    alu 0x01285006#32 0x80000000#32 0x21#32 10 = 0x40000000#32 := by decide

/-- A32. -/
theorem test_srav :
    alu 0x01285007#32 0x80000000#32 0x24#32 10 = 0xF8000000#32 := by decide

/-- B1, B2, B3. -/
theorem test_addi :
    overflows 0x21090001#32 0x7FFFFFFF#32 0x5#32 9 0x5#32 = true ∧
    overflows 0x2109FFFF#32 0x80000000#32 0x0#32 9 0x0#32 = true ∧
    alu 0x21098000#32 0x0#32 0x0#32 9 = 0xFFFF8000#32 := by decide

/-- B4, B5, B6. -/
theorem test_addiu :
    alu 0x2509FFFF#32 0x0#32 0x0#32 9 = 0xFFFFFFFF#32 ∧ alu 0x25090001#32 0x7FFFFFFF#32 0x0#32 9 = 0x80000000#32 ∧
    alu 0x25000001#32 0x5#32 0x0#32 0 = 0x0#32 := by decide

/-- B7, B8. -/
theorem test_slti :
    alu 0x2909FFFF#32 0xFFFFFFFE#32 0x0#32 9 = 0x1#32 ∧ alu 0x29090000#32 0x80000000#32 0x0#32 9 = 0x1#32 := by decide

/-- B9, B10, B11. -/
theorem test_sltiu :
    alu 0x2D09FFFF#32 0xFFFFFFFE#32 0x0#32 9 = 0x1#32 ∧ alu 0x2D09FFFF#32 0xFFFFFFFF#32 0x0#32 9 = 0x0#32 ∧
    alu 0x2D090001#32 0x0#32 0x0#32 9 = 0x1#32 := by decide

/-- B12. -/
theorem test_andi :
    alu 0x3109FFFF#32 0x12345678#32 0x0#32 9 = 0x00005678#32 := by decide

/-- B13. -/
theorem test_ori :
    alu 0x35098000#32 0x12340000#32 0x0#32 9 = 0x12348000#32 := by decide

/-- B14. -/
theorem test_xori :
    alu 0x3909FFFF#32 0xFFFFFFFF#32 0x0#32 9 = 0xFFFF0000#32 := by decide

/-- B15, B16. -/
theorem test_lui :
    alu 0x3C09FFFF#32 0x0#32 0x0#32 9 = 0xFFFF0000#32 ∧ alu 0x3C090000#32 0x0#32 0x1#32 9 = 0x0#32 := by decide

/-- M1, M2, M4. -/
theorem test_mult :
    hiLo 0x01090018#32 0xFFFFFFFF#32 0xFFFFFFFF#32 = (0x0#32, 0x1#32) ∧
    hiLo 0x01090018#32 0x80000000#32 0x80000000#32 = (0x40000000#32, 0x0#32) ∧
    hiLo 0x01090018#32 0x80000000#32 0xFFFFFFFF#32 = (0x0#32, 0x80000000#32) := by decide

/-- M7, M9. -/
theorem test_multu :
    hiLo 0x01090019#32 0xFFFFFFFF#32 0xFFFFFFFF#32 = (0xFFFFFFFE#32, 0x1#32) ∧
    hiLo 0x01090019#32 0x80000000#32 0x2#32 = (0x1#32, 0x0#32) := by decide

/-- M11, M12, M13, M19. -/
theorem test_div :
    hiLo 0x0109001A#32 0xFFFFFFF9#32 0x2#32 = (0xFFFFFFFF#32, 0xFFFFFFFD#32) ∧
    hiLo 0x0109001A#32 0x7#32 0xFFFFFFFE#32 = (0x1#32, 0xFFFFFFFD#32) ∧
    hiLo 0x0109001A#32 0xFFFFFFF9#32 0xFFFFFFFE#32 = (0xFFFFFFFF#32, 0x3#32) ∧
    hiLo 0x0109001A#32 0x1#32 0x80000000#32 = (0x1#32, 0x0#32) := by decide

/-- M14 to M17. -/
theorem test_div_fixed_results :
    hiLo 0x0109001A#32 0x7#32 0x0#32 = (0x7#32, 0xFFFFFFFF#32) ∧
    hiLo 0x0109001A#32 0xFFFFFFF9#32 0x0#32 = (0xFFFFFFF9#32, 0x1#32) ∧
    hiLo 0x0109001A#32 0x0#32 0x0#32 = (0x0#32, 0xFFFFFFFF#32) ∧
    hiLo 0x0109001A#32 0x80000000#32 0xFFFFFFFF#32 = (0x0#32, 0x80000000#32) := by decide

/-- M22, M23, M26. -/
theorem test_divu :
    hiLo 0x0109001B#32 0xFFFFFFF9#32 0x2#32 = (0x1#32, 0x7FFFFFFC#32) ∧
    hiLo 0x0109001B#32 0x7#32 0x0#32 = (0x7#32, 0xFFFFFFFF#32) ∧
    hiLo 0x0109001B#32 0x80000000#32 0xFFFFFFFF#32 = (0x80000000#32, 0x0#32) := by decide

/-- The paragraph after M27. -/
theorem test_mfhi_mflo :
    (after 0x00005010#32 { start 0#32 [(8, 0x55#32)] with hi := 0x66#32, lo := 0x77#32 }).reg 10 = 0x66#32 ∧
    (after 0x00005012#32 { start 0#32 [(8, 0x55#32)] with hi := 0x66#32, lo := 0x77#32 }).reg 10 = 0x77#32 := by
  decide

/-- The paragraph after M27. -/
theorem test_mthi_mtlo :
    (let s : State := { start 0#32 [(8, 0x55#32)] with hi := 0x66#32, lo := 0x77#32 }
    ((after 0x01000011#32 s).hi, (after 0x01000011#32 s).lo) = (0x55#32, 0x77#32) ∧
      ((after 0x01000013#32 s).hi, (after 0x01000013#32 s).lo) = (0x66#32, 0x55#32)) := by decide

/-- L1, L11. -/
theorem test_lb :
    loaded 0x80890000#32 0x80000100#32 = some 0xFFFFFF81#32 ∧
    loaded 0x80890001#32 0x80000100#32 = some 0xFFFFFF82#32 ∧
    loaded 0x80890003#32 0x80000100#32 = some 0xFFFFFF84#32 ∧
    trapOf (after 0x80890000#32 (loadStart 0xC0000000#32)) = (0x1C#32, 0x80010000#32, 0x0#32, 0#32, 0x80000080#32) := by
  decide

/-- L2. -/
theorem test_lbu :
    loaded 0x90890000#32 0x80000100#32 = some 0x81#32 ∧ loaded 0x90890003#32 0x80000100#32 = some 0x84#32 := by decide

/-- L3, L4. -/
theorem test_lh :
    loaded 0x84890000#32 0x80000100#32 = some 0xFFFF8281#32 ∧
    loaded 0x84890002#32 0x80000100#32 = some 0xFFFF8483#32 ∧
    trapOf (after 0x84890001#32 (loadStart 0x80000100#32)) = (0x10#32, 0x80010000#32, 0x80000101#32, 0#32, 0x80000080#32) := by
  decide

/-- L5, L6. -/
theorem test_lhu :
    loaded 0x94890000#32 0x80000100#32 = some 0x8281#32 ∧ loaded 0x94890002#32 0x80000100#32 = some 0x8483#32 ∧
    trapOf (after 0x94890003#32 (loadStart 0x80000100#32)) = (0x10#32, 0x80010000#32, 0x80000103#32, 0#32, 0x80000080#32) := by
  decide

/-- L7, L8, L9. -/
theorem test_lw :
    loaded 0x8C890004#32 0x80000100#32 = some 0x7F6F5F4F#32 ∧
    loaded 0x8C89FFFC#32 0x80000108#32 = some 0x7F6F5F4F#32 ∧
    trapOf (after 0x8C890002#32 (loadStart 0x80000100#32)) = (0x10#32, 0x80010000#32, 0x80000102#32, 0#32, 0x80000080#32) := by
  decide

/-- L10, L16. -/
theorem test_lw_bus_error_and_register_0 :
    trapOf (after 0x8C890000#32 (loadStart 0x00200000#32)) = (0x1C#32, 0x80010000#32, 0x0#32, 0#32, 0x80000080#32) ∧
    (after 0x8C800000#32 (loadStart 0x80000100#32)).ld = ⟨0, 0x84838281#32, .mem⟩ := by decide

/-- L12. -/
theorem test_lwl :
    loaded 0x88890000#32 0x80000100#32 = some 0x81223344#32 ∧
    loaded 0x88890001#32 0x80000100#32 = some 0x82813344#32 ∧
    loaded 0x88890002#32 0x80000100#32 = some 0x83828144#32 ∧
    loaded 0x88890003#32 0x80000100#32 = some 0x84838281#32 := by decide

/-- L14. -/
theorem test_lwl_merge_base :
    (let t := after 0x88890001#32 { loadStart 0x80000100#32 with ld := ⟨9, 0xAABBCCDD#32, .mem⟩ }
    t.ld.val = 0x8281CCDD#32 ∧ t.reg 9 = 0xAABBCCDD#32) := by decide

/-- L13. -/
theorem test_lwr :
    loaded 0x98890000#32 0x80000100#32 = some 0x84838281#32 ∧
    loaded 0x98890001#32 0x80000100#32 = some 0x11848382#32 ∧
    loaded 0x98890002#32 0x80000100#32 = some 0x11228483#32 ∧
    loaded 0x98890003#32 0x80000100#32 = some 0x11223384#32 := by decide

/-- L15. -/
theorem test_lwr_merge_base :
    (let t := after 0x98890002#32 { loadStart 0x80000100#32 with ld := ⟨9, 0xAABBCCDD#32, .mem⟩ }
    t.ld.val = 0xAABB8483#32 ∧ t.reg 9 = 0xAABBCCDD#32) := by decide

/-- S1. -/
theorem test_sb :
    stored 0xA0890000#32 = 0xAABBCC44#32 ∧ stored 0xA0890001#32 = 0xAABB44DD#32 ∧
    stored 0xA0890002#32 = 0xAA44CCDD#32 ∧ stored 0xA0890003#32 = 0x44BBCCDD#32 := by decide

/-- S2, S3. -/
theorem test_sh :
    stored 0xA4890000#32 = 0xAABB3344#32 ∧ stored 0xA4890002#32 = 0x3344CCDD#32 ∧
    stored 0xA4890001#32 = 0xAABBCCDD#32 := by decide

/-- S4, S7. -/
theorem test_sw :
    stored 0xAC890000#32 = 0x11223344#32 ∧ stored 0xAC890002#32 = 0xAABBCCDD#32 ∧
    (after 0xAC890000#32 (start 0#32 [(4, 0xBFC00000#32), (9, 0x11223344#32)])).bus.mem.readWord 0x1FC00000 = 0#32 := by
  decide

/-- S5. -/
theorem test_swl :
    stored 0xA8890000#32 = 0xAABBCC11#32 ∧ stored 0xA8890001#32 = 0xAABB1122#32 ∧
    stored 0xA8890002#32 = 0xAA112233#32 ∧ stored 0xA8890003#32 = 0x11223344#32 := by decide

/-- S6. -/
theorem test_swr :
    stored 0xB8890000#32 = 0x11223344#32 ∧ stored 0xB8890001#32 = 0x223344DD#32 ∧
    stored 0xB8890002#32 = 0x3344CCDD#32 ∧ stored 0xB8890003#32 = 0x44BBCCDD#32 := by decide

/-- S4, S8. -/
theorem test_store_traps :
    trapOf (after 0xAC890002#32 (loadStart 0x80000100#32)) = (0x14#32, 0x80010000#32, 0x80000102#32, 0#32, 0x80000080#32) ∧
    trapOf (after 0xAC890000#32 (loadStart 0x1F801000#32)) = (0x1C#32, 0x80010000#32, 0x0#32, 0#32, 0x80000080#32) := by
  decide

/-- J1, J2, J3. -/
theorem test_beq :
    branch 0x11090003#32 0x5#32 0x5#32 = some 0xC#32 ∧ branch 0x11090003#32 0x5#32 0x6#32 = some 0x4#32 ∧
    branch 0x1000FFFF#32 0x0#32 0x0#32 = some 0xFFFFFFFC#32 := by decide

/-- J4, J5. -/
theorem test_bne :
    branch 0x1509FFFD#32 0x5#32 0x6#32 = some 0xFFFFFFF4#32 ∧ branch 0x1509FFFD#32 0x5#32 0x5#32 = some 0x4#32 := by
  decide

/-- J6. -/
theorem test_blez :
    branch 0x19000003#32 0x0#32 0x0#32 = some 0xC#32 ∧ branch 0x19000003#32 0x1#32 0x0#32 = some 0x4#32 ∧
    branch 0x19000003#32 0x80000000#32 0x0#32 = some 0xC#32 := by decide

/-- J7. -/
theorem test_bgtz :
    branch 0x1D000003#32 0x0#32 0x0#32 = some 0x4#32 ∧ branch 0x1D000003#32 0x1#32 0x0#32 = some 0xC#32 ∧
    branch 0x1D000003#32 0x80000000#32 0x0#32 = some 0x4#32 := by decide

/-- J8. -/
theorem test_bltz :
    branch 0x05000003#32 0xFFFFFFFF#32 0x0#32 = some 0xC#32 ∧ branch 0x05000003#32 0x0#32 0x0#32 = some 0x4#32 := by
  decide

/-- J9. -/
theorem test_bgez :
    branch 0x05010003#32 0x0#32 0x0#32 = some 0xC#32 ∧ branch 0x05010003#32 0x80000000#32 0x0#32 = some 0x4#32 := by
  decide

/-- J10, J11, J14. -/
theorem test_bltzal :
    link 0x05100003#32 0xFFFFFFFF#32 0x0#32 = (0xC#32, 0x80010008#32) ∧
    link 0x05100003#32 0x1#32 0x0#32 = (0x4#32, 0x80010008#32) ∧
    link 0x07F00003#32 0x0#32 0x80000000#32 = (0xC#32, 0x80010008#32) := by decide

/-- J12, J13. -/
theorem test_bgezal :
    link 0x05110003#32 0x0#32 0x0#32 = (0xC#32, 0x80010008#32) ∧
    link 0x05110003#32 0xFFFFFFFF#32 0x0#32 = (0x4#32, 0x80010008#32) ∧
    link 0x07F10003#32 0x0#32 0x80000000#32 = (0x4#32, 0x80010008#32) := by decide

/-- J17, J18. -/
theorem test_j :
    branch 0x08000100#32 0x0#32 0x0#32 = some 0xFFFF03FC#32 ∧
    branch 0x0BFFFFFF#32 0x0#32 0x0#32 = some 0x0FFEFFF8#32 := by decide

/-- J19. -/
theorem test_jal :
    link 0x0C000100#32 0x0#32 0x0#32 = (0xFFFF03FC#32, 0x80010008#32) := by decide

/-- J20, J21. -/
theorem test_jr :
    branch 0x01000008#32 0x80020000#32 0x0#32 = some 0x0000FFFC#32 ∧
    branch 0x01000008#32 0x80020002#32 0x0#32 = some 0x0000FFFE#32 := by decide

/-- J22, J24. -/
theorem test_jalr :
    link 0x0100F809#32 0x80020000#32 0x0#32 = (0x0000FFFC#32, 0x80010008#32) ∧
    link 0x03E0F809#32 0x0#32 0x80020000#32 = (0x0000FFFC#32, 0x80010008#32) := by decide

/-- K1, K3, K4. -/
theorem test_mfc0 :
    (after 0x40096000#32 (start 0x401#32 [])).ld = ⟨9, 0x401#32, .cop⟩ ∧
    (after 0x40097800#32 (start 0#32 [])).ld = ⟨9, 0x2#32, .cop⟩ ∧
    (after 0x40091800#32 { start 0#32 [] with scr := writeSlot State.reset.scr 3 0x1234#32 }).ld = ⟨9, 0x1234#32, .cop⟩ := by
  decide

/-- K2. -/
theorem test_mfc0_live_line :
    (after 0x40096800#32 { start 0#32 [] with
      scr := writeSlot (start 0#32 []).scr 13 0x30#32
      bus := { bus0 with ic := ⟨1#32, 1#32⟩ } }).ld.val = 0x430#32 := by decide

/-- K5, K7, K8. -/
theorem test_mtc0 :
    (after 0x40896000#32 (start 0#32 [(9, 0xFFFFFFFF#32)])).slot 12 = 0xFFFFFFFF#32 ∧
    (after 0x40897000#32 (start 0#32 [(9, 0xFFFFFFFF#32)])).slot 14 = 0x0#32 ∧
    (after 0x40894000#32 (start 0#32 [(9, 0xFFFFFFFF#32)])).slot 8 = 0x0#32 ∧
    (after 0x40897800#32 (start 0#32 [(9, 0xFFFFFFFF#32)])).slot 15 = 0x0#32 ∧
    (after 0x40891800#32 (start 0#32 [(9, 0xFFFFFFFF#32)])).slot 3 = 0xFFFFFFFF#32 := by decide

/-- K6. -/
theorem test_mtc0_cause :
    (after 0x40896800#32 { start 0#32 [(9, 0xFFFFFFFF#32)] with
      scr := writeSlot (start 0#32 []).scr 13 0x30#32 }).cause = 0x330#32 := by decide

/-- K10. -/
theorem test_rfe :
    (after 0x42000010#32 (start 0x4#32 [])).sr = 0x1#32 ∧ (after 0x42000010#32 (start 0x3C#32 [])).sr = 0x3F#32 ∧
    (after 0x42000010#32 (start 0x28#32 [])).sr = 0x2A#32 ∧
    (after 0x42000010#32 (start 0x400014#32 [])).sr = 0x400015#32 := by decide

/-- K11, K12. -/
theorem test_syscall :
    trapOf (after 0x0000000C#32 (start 0x401#32 [])) = (0x20#32, 0x80010000#32, 0#32, 0x404#32, 0x80000080#32) ∧
    trapOf (after 0x03FFFFCC#32 (start 0x401#32 [])) = (0x20#32, 0x80010000#32, 0#32, 0x404#32, 0x80000080#32) := by
  decide

/-- K13. -/
theorem test_break :
    trapOf (after 0x0000000D#32 (startUser 0x400003#32 [])) = (0x24#32, 0x00010000#32, 0#32, 0x40000C#32, 0xBFC00180#32) := by
  decide

/-- K14, K15. -/
theorem test_cop0_unusable :
    trapOf (after 0x40096000#32 (startUser 2#32 [])) = (0x2C#32, 0x00010000#32, 0#32, 0x8#32, 0x80000080#32) ∧
    trapOf (after 0x40896000#32 (startUser 2#32 [])) = (0x2C#32, 0x00010000#32, 0#32, 0x8#32, 0x80000080#32) ∧
    trapOf (after 0x42000010#32 (startUser 2#32 [])) = (0x2C#32, 0x00010000#32, 0#32, 0x8#32, 0x80000080#32) ∧
    trapOf (after 0x42000001#32 (startUser 2#32 [])) = (0x2C#32, 0x00010000#32, 0#32, 0x8#32, 0x80000080#32) ∧
    (after 0x40096000#32 (startUser 0x10000002#32 [])).ld = ⟨9, 0x10000002#32, .cop⟩ := by decide

/-- K17, K18; the other rows by 44_coprocessor_system.md R257 to R259. -/
theorem test_absent_coprocessors :
    (after 0x44000000#32 (start 0#32 [])).cause = 0x1000002C#32 ∧
    (after 0x4A000000#32 (start 0#32 [])).cause = 0x2000002C#32 ∧
    (after 0x4C000000#32 (start 0#32 [])).cause = 0x3000002C#32 ∧
    (after 0xC4000000#32 (start 0#32 [])).cause = 0x1000002C#32 ∧
    (after 0xC8000000#32 (start 0#32 [])).cause = 0x2000002C#32 ∧
    (after 0xCC000000#32 (start 0#32 [])).cause = 0x3000002C#32 ∧
    (after 0xE4000000#32 (start 0#32 [])).cause = 0x1000002C#32 ∧
    (after 0xE8000000#32 (start 0#32 [])).cause = 0x2000002C#32 ∧
    (after 0xEC000000#32 (start 0#32 [])).cause = 0x3000002C#32 := by decide

/-- X1, K16. -/
theorem test_reserved_words_trap :
    trapOf (after 0xFC000000#32 (start 0#32 [])) = (0x28#32, 0x80010000#32, 0#32, 0#32, 0x80000080#32) ∧
    trapOf (after 0x00000001#32 (start 0#32 [])) = (0x28#32, 0x80010000#32, 0#32, 0#32, 0x80000080#32) ∧
    trapOf (after 0x04020000#32 (start 0#32 [])) = (0x28#32, 0x80010000#32, 0#32, 0#32, 0x80000080#32) ∧
    trapOf (after 0x42000002#32 (start 0#32 [])) = (0x28#32, 0x80010000#32, 0#32, 0#32, 0x80000080#32) := by decide

/-- X2, X3, X4, X6. -/
theorem test_fetch_traps :
    trapOf (nextOf { start 0#32 [] with pc := 0x80010002#32 }) = (0x10#32, 0x80010002#32, 0x80010002#32, 0#32, 0x80000080#32) ∧
    trapOf (nextOf { start 0#32 [] with pc := 0x00200000#32 }) = (0x18#32, 0x00200000#32, 0#32, 0#32, 0x80000080#32) ∧
    trapOf (nextOf { start 0#32 [] with pc := 0x1F801070#32 }) = (0x18#32, 0x1F801070#32, 0#32, 0#32, 0x80000080#32) ∧
    trapOf (nextOf (start 2#32 [])) = (0x10#32, 0x80010000#32, 0x80010000#32, 8#32, 0x80000080#32) := by decide

/-- X14. -/
theorem test_trap_in_delay_slot :
    (let t := after 0x8C890001#32 { start 0x00400001#32 [(4, 0x80000100#32)] with
      pc := 0x80010008#32
      inSlot := true
      ld := ⟨10, 0x55#32, .mem⟩ }
    trapOf t = (0x80000010#32, 0x80010004#32, 0x80000101#32, 0x00400004#32, 0xBFC00180#32) ∧ t.reg 10 = 0x55#32 ∧ t.ld = LoadSlot.empty ∧ t.inSlot = false) := by
  decide

/-- X13, X15. -/
theorem test_interrupt :
    (let s : State := { start 0x401#32 [(8, 7#32)] with bus := { bus0 with ic := ⟨1#32, 1#32⟩ } }
    let t := after 0x25080001#32 s
    trapOf t = (0#32, 0x80010000#32, 0#32, 0x404#32, 0x80000080#32) ∧ t.reg 8 = 7#32 ∧ t.causeRead = 0x400#32) ∧
    (after 0x25080001#32 { start 0x400#32 [(8, 7#32)] with bus := { bus0 with ic := ⟨1#32, 1#32⟩ } }).reg 8 = 8#32 := by
  decide

/-! ## The devices, one write or one DMA step -/

/-- The bus after a word written to a device register. -/
def put (b : Bus) (reg : DeviceReg) (w : Word) : Bus := deviceWrite listed b reg w 0xFFFFFFFF#32

/-- A bus with channel 0 started as in vector D3. -/
def dmaStart : Bus :=
  put (put (put (put (put (put { bus0 with mem := (⟨[]⟩ : Memory).writeWord 0x100C 0xA3#32 } .dpcr 0x88888888#32) .dmaEn
    1#32) .dicr 0x00010100#32) (.madr 0) 0x1002#32) (.bcr 0) 4#32) (.chcr 0) 0x01000000#32

/-- D1, D3. -/
theorem test_dma_start :
    (deviceRead listed (put bus0 (.chcr 0) 0xFFFFFFFF#32) (.chcr 0)).1 = 0x00770703#32 ∧
    (dmaStart.dma.channel 0).cur = 0x1000#32 ∧ (dmaStart.dma.channel 0).len = 4#32 ∧
    (deviceRead listed dmaStart (.chcr 0)).1 = 0x01000000#32 := by decide

/-- D3, the fourth step. -/
theorem test_dma_complete :
    (let c : Channel := { dmaStart.dma.channel 0 with cur := 0x100C#32, len := 1#32 }
    let b := dmaStep listed { dmaStart with dma := dmaStart.dma.setChannel 0 c }
    b.mem.readWord 0x100C = 0#32 ∧ b.dma.flag = 1#8 ∧ b.ic.iStat = 8#32 ∧ (deviceRead listed b .dicr).1 = 0x80010101#32 ∧
      (deviceRead listed b (.chcr 0)).1 = 0#32 ∧ (deviceRead listed b (.madr 0)).1 = 0x1002#32 ∧ (b.dma.channel 0).cur = 0x1010#32) := by
  decide

/-- I3, I4, I6c. -/
theorem test_interrupt_registers :
    (put { bus0 with ic := ⟨9#32, 0#32⟩ } .iStat 1#32).ic.iStat = 8#32 ∧
    (put bus0 .iMask 0xDEADBEEF#32).ic.iMask = 0xDEADBEEF#32 ∧
    (deviceWrite listed { bus0 with ic := ⟨0#32, 0x11112222#32⟩ } .iMask 0xABCD0000#32 0xFFFF0000#32).ic.iMask = 0xABCD2222#32 := by
  decide

/-- G2. -/
theorem test_gpu_fill :
    (let b := put (put (put bus0 .gpuCmd 0x02FF8040#32) .gpuCmd 0x00200010#32) .gpuCmd 0x00020003#32
    b.mem.pixel listed 16 32 = 0x00FF8040#32 ∧ b.mem.pixel listed 18 33 = 0x00FF8040#32 ∧ b.mem.pixel listed 19 32 = 0#32 ∧
      b.mem.pixel listed 16 34 = 0#32 ∧ (deviceRead listed b .gpuCmd).1 = 0x04000000#32) := by decide

/-- G3, G4. -/
theorem test_gpu_modes :
    (deviceRead listed (put bus0 .gpuCmd 0xE10007FF#32) .gpuCmd).1 = 0x040007FF#32 ∧
    (deviceRead listed (put bus0 .gpuCmd 0xE6000003#32) .gpuCmd).1 = 0x04001800#32 ∧
    put bus0 .gpuData 0x12345678#32 = bus0 := by decide

/-- G13. -/
theorem test_packet_lengths :
    packetLen 0x1F#8 = 0 ∧ packetLen 0x20#8 = 4 ∧ packetLen 0x24#8 = 7 ∧ packetLen 0x28#8 = 5 ∧ packetLen 0x2C#8 = 9 ∧
    packetLen 0x30#8 = 6 ∧ packetLen 0x34#8 = 9 ∧ packetLen 0x38#8 = 8 ∧ packetLen 0x3C#8 = 12 ∧
    packetLen 0x40#8 = 3 ∧ packetLen 0x48#8 = 0 ∧ packetLen 0x50#8 = 4 ∧ packetLen 0x58#8 = 0 ∧ packetLen 0x60#8 = 3 ∧
    packetLen 0x64#8 = 4 ∧ packetLen 0x68#8 = 2 ∧ packetLen 0x6C#8 = 3 ∧ packetLen 0x74#8 = 3 ∧ packetLen 0x7C#8 = 3 ∧
    packetLen 0x80#8 = 4 ∧ packetLen 0xA0#8 = 3 ∧ packetLen 0xC0#8 = 3 ∧ packetLen 0xE0#8 = 0 ∧ packetLen 0xE1#8 = 1 ∧
    packetLen 0xE6#8 = 1 ∧ packetLen 0xE7#8 = 0 := by decide

/-- G16. -/
theorem test_raster_line :
    (let s : State := { State.reset with bus := { bus0 with gpu := { gpu0 with line := 261#32 } } }
    s.tickEnd.bus.gpu.line = 262#32 ∧ s.tickEnd.bus.ic.iStat = 0#32 ∧ s.tickEnd.tickEnd.bus.gpu.line = 0#32 ∧
      s.tickEnd.tickEnd.bus.ic.iStat = 1#32) := by decide

/-! ## Witnesses: the hypotheses of each statement can be met, at the boundaries of their ranges -/

theorem configOk_listed : ConfigOk listed := configOk_defaults _

/-- The state before a fetch of `w` at the last word of work RAM, seen from user code. -/
def lastWord (w : Word) : State := ({ start 2#32 [] with pc := 0x001FFFFC#32 }).withFetchWord 32 w.toNat

theorem fetchesFrom_lastWord : FetchesFrom (lastWord 0x01095020#32) .wram 0x1FFFFC ∧
    FetchesFrom (lastWord 0x42000001#32) .wram 0x1FFFFC :=
  ⟨⟨by decide, by decide, by decide, by decide⟩, by decide, by decide, by decide, by decide⟩

theorem witness_EncodeInvertsDecode : decode 0x00000000#32 = .ok (.sll 0 0 0) ∧
    decode 0xEFFFFFFF#32 = .ok (.swc3 0x3FFFFFF#26) := by decide

theorem witness_DecodeAcceptsExactlyTheTable : decode 0x42000010#32 = .ok .rfe ∧
    decode 0xFFFFFFFF#32 = .error .reservedOpcode ∧
    (⟨"RFE", 0x42000010#32, 0xFFFFFFFF#32⟩ : EncRow) ∈ encodingTable ∧
    (⟨"RFE", 0x42000010#32, 0xFFFFFFFF#32⟩ : EncRow).matches 0x42000010#32 = true := by decide

theorem witness_StepRunsDecodedInstruction :
    let s := lastWord 0x01095020#32
    FetchesFrom s .wram 0x1FFFFC ∧
    decodeBytes [s.bus.mem.read 0x1FFFFC, s.bus.mem.read (0x1FFFFC + 1), s.bus.mem.read (0x1FFFFC + 2),
      s.bus.mem.read (0x1FFFFC + 3)] = .ok (.add 10 8 9, []) := ⟨fetchesFrom_lastWord.1, by decide⟩

/-- Both exceptions of a reserved word: CpU(0) in user mode, RI in kernel mode. -/
theorem witness_ReservedWordsTrap :
    let s := lastWord 0x42000001#32
    let k := (start 0#32 []).withFetchWord 32 0x42000001
    (FetchesFrom s .wram 0x1FFFFC ∧ wordWellFormed (s.bus.mem.readWord 0x1FFFFC) = false ∧
      opField (s.bus.mem.readWord 0x1FFFFC) = 0x10#6 ∧ s.sr.getLsbD 1 = true ∧ s.sr.getLsbD 28 = false) ∧
    (FetchesFrom k .wram 0x10000 ∧ wordWellFormed (k.bus.mem.readWord 0x10000) = false ∧ k.sr.getLsbD 1 = false) :=
  ⟨⟨fetchesFrom_lastWord.2, by decide, by decide, by decide, by decide⟩,
    ⟨by decide, by decide, by decide, by decide⟩, by decide, by decide⟩

theorem witness_FetchTraps :
    let u : State := { start 2#32 [] with pc := 0x80000000#32 }
    let m : State := { start 0#32 [] with pc := 0xBFC00001#32 }
    let v : State := { start 2#32 [] with pc := 0x7FFFFFFC#32 }
    let d : State := { start 0#32 [] with pc := 0xBF801070#32 }
    (u.interruptRequested = false ∧ u.sr.getLsbD 1 = true ∧ u.pc.msb = true) ∧
    (m.interruptRequested = false ∧ m.pc.toNat % 4 ≠ 0) ∧
    (v.interruptRequested = false ∧ ¬(v.sr.getLsbD 1 = true ∧ v.pc.msb = true) ∧ v.pc.toNat % 4 = 0 ∧
      ∀ r p, targetOf v.cfg v.pc ≠ .region r p) ∧
    (d.interruptRequested = false ∧ ¬(d.sr.getLsbD 1 = true ∧ d.pc.msb = true) ∧ d.pc.toNat % 4 = 0 ∧
      ∀ r p, targetOf d.cfg d.pc ≠ .region r p) := by
  refine ⟨by decide, by decide, ⟨by decide, by decide, by decide, ?_⟩, by decide, by decide, by decide, ?_⟩
  · intro r p h
    rw [show targetOf (start 2#32 []).cfg 0x7FFFFFFC#32 = .unmapped by decide] at h
    cases h
  · intro r p h
    rw [show targetOf (start 0#32 []).cfg 0xBF801070#32 = .device .iStat by decide +kernel] at h
    cases h

/-- The lowest and the highest request number that can be set, and the controller's line. -/
theorem witness_InterruptsAreTakenFirst :
    InterruptDue { start 0x101#32 [] with scr := writeSlot (start 0x101#32 []).scr 13 0x100#32 } ∧
    InterruptDue { start 0x8001#32 [] with scr := writeSlot (start 0x8001#32 []).scr 13 0x8000#32 } ∧
    InterruptDue { start 0x401#32 [] with bus := { bus0 with ic := ⟨0x80000000#32, 0x80000000#32⟩ } } :=
  ⟨⟨by decide, 0, by decide, by decide, by rw [if_neg (by decide)]; decide⟩,
    ⟨by decide, 7, by decide, by decide, by rw [if_neg (by decide)]; decide⟩,
    by decide, 2, by decide, by decide, 31, by decide, by decide, by decide⟩

theorem witness_EveryInstructionRetiresOrTraps :
    exec (.bgezal 31 0xFFFF#16) (start 0#32 []) = .next ((start 0#32 []).retire (some (31, 0x80010008#32)) LoadSlot.empty
      true (0x80010000#32 - 0x80010004#32)) := rfl

theorem witness_ControlRegistersAreGuarded : (∃ t, exec .rfe (start 4#32 []) = .next t ∧ t.sr = 1#32) ∧
    (∃ t, exec (.mtc0 9 12) (start 0#32 [(9, 1#32)]) = .next t ∧ t.sr = 1#32) :=
  ⟨⟨_, rfl, by decide⟩, _, rfl, by decide⟩

theorem bootReady_of_length (rest : List Byte) (h : rest.length = 0x7FFFC) :
    BootReady (0x0A#8 :: 0x00#8 :: 0x08#8 :: 0x24#8 :: rest) 1#32 :=
  ⟨by simp only [List.length_cons, h, Config.romSize], by decide⟩

theorem length_zeros (n : Nat) : (List.replicate n 0#8).length = n := List.length_replicate

/-- The boot image of program P1, whose first word is 0x2408000A, padded with zeros to the size of rom. -/
theorem witness_ResetState : ConfigOk listed ∧ physOf listed.resetVector = some listed.romBase ∧
    ∃ rest : List Byte, rest.length = 0x7FFFC ∧
    BootReady (0x0A#8 :: 0x00#8 :: 0x08#8 :: 0x24#8 :: rest) 1#32 :=
  ⟨configOk_listed, by decide, _, length_zeros 0x7FFFC, bootReady_of_length _ (length_zeros _)⟩

/-- The exact results that just fit: 2^31 - 1 and -2^31. -/
theorem witness_TrappingArithmeticWritesExactResult :
    let s := start 0#32 [(8, 0x7FFFFFFE#32), (9, 1#32), (10, 0x80000001#32), (11, 0xFFFFFFFF#32)]
    (s.reg 8).toInt + (s.reg 9).toInt = 2 ^ 31 - 1 ∧ (s.reg 10).toInt + (s.reg 11).toInt = -2 ^ 31 ∧
    (s.reg 8).toInt - (s.reg 11).toInt = 2 ^ 31 - 1 ∧ (s.reg 10).toInt - (s.reg 9).toInt = -2 ^ 31 ∧
    (s.reg 8).toInt + (0x0001#16).toInt = 2 ^ 31 - 1 ∧ (s.reg 10).toInt + (0xFFFF#16).toInt = -2 ^ 31 := by decide

/-- The exact results that just do not fit: 2^31 and -2^31 - 1. -/
theorem witness_ArithmeticOverflowTraps :
    let s := start 0#32 [(8, 0x7FFFFFFF#32), (9, 1#32), (10, 0x80000000#32), (11, 0xFFFFFFFF#32)]
    (s.reg 8).toInt + (s.reg 9).toInt = 2 ^ 31 ∧ (s.reg 10).toInt + (s.reg 11).toInt = -2 ^ 31 - 1 ∧
    (s.reg 8).toInt - (s.reg 11).toInt = 2 ^ 31 ∧ (s.reg 10).toInt - (s.reg 9).toInt = -2 ^ 31 - 1 ∧
    (s.reg 8).toInt + (0x0001#16).toInt = 2 ^ 31 ∧ (s.reg 10).toInt + (0xFFFF#16).toInt = -2 ^ 31 - 1 := by decide

/-- A pair for every row of the table of 41_muldiv.md R199. -/
theorem witness_DivisionTable :
    let s := start 0#32 [(8, 0x80000000#32), (9, 0xFFFFFFFF#32), (10, 1#32)]
    (s.reg 10 ≠ 0#32 ∧ ¬(s.reg 8 = 0x80000000#32 ∧ s.reg 10 = 0xFFFFFFFF#32)) ∧
    (s.reg 0 = 0#32 ∧ 0 ≤ (s.reg 0).toInt) ∧ (s.reg 0 = 0#32 ∧ (s.reg 9).toInt < 0) ∧
    (s.reg 8 = 0x80000000#32 ∧ s.reg 9 = 0xFFFFFFFF#32) := by decide

theorem witness_HiLoHaveSixWriters :
    let s := (start 0#32 [(8, 0x80000000#32), (9, 2#32)]).withFetchWord 32 0x01090019
    step s = .next (nextOf s) ∧ ((nextOf s).hi ≠ s.hi ∨ (nextOf s).lo ≠ s.lo) := ⟨rfl, by decide⟩

/-- The last byte, halfword and word of work RAM, and the first of the scratchpad. -/
theorem witness_LoadsFromMemory :
    let s := start 0#32 [(4, 0x80200000#32), (5, 0xBF800000#32)]
    (segmentViolation s.userMode (s.effAddr 4 0xFFFF#16) = false ∧
      targetOf s.cfg (alignWord (s.effAddr 4 0xFFFF#16)) = .region .wram 0x1FFFFC) ∧
    (segmentViolation s.userMode (s.effAddr 4 0xFFFE#16) = false ∧
      targetOf s.cfg (alignWord (s.effAddr 4 0xFFFE#16)) = .region .wram 0x1FFFFC ∧ (s.effAddr 4 0xFFFE#16).toNat % 2 = 0) ∧
    (segmentViolation s.userMode (s.effAddr 5 0#16) = false ∧
      targetOf s.cfg (alignWord (s.effAddr 5 0#16)) = .region .spad 0x1F800000 ∧ (s.effAddr 5 0#16).toNat % 4 = 0) := by decide

/-- The lanes 0 and 3, in rom and in video RAM. -/
theorem witness_UnalignedLoads :
    let s := start 0#32 [(4, 0xBFC80000#32), (5, 0x1E000000#32)]
    (segmentViolation s.userMode (s.effAddr 4 0xFFFF#16) = false ∧
      targetOf s.cfg (alignWord (s.effAddr 4 0xFFFF#16)) = .region .rom 0x1FC7FFFC ∧ laneOf (s.effAddr 4 0xFFFF#16) = 3) ∧
    (segmentViolation s.userMode (s.effAddr 5 0#16) = false ∧
      targetOf s.cfg (alignWord (s.effAddr 5 0#16)) = .region .vram 0x1E000000 ∧ laneOf (s.effAddr 5 0#16) = 0) := by decide

/-- An unaligned word that crosses into the last word of work RAM, with the largest offset, and a load pending. -/
theorem witness_UnalignedLoadPairAssemblesTheWord :
    let s := { start 0#32 [(4, 0x801F7FFD#32)] with ld := ⟨9, 5#32, .mem⟩ }
    ConfigOk s.cfg ∧ (9 : RegIdx) ≠ 0 ∧ (s.ld.kind = .none ∨ s.ld.reg ≠ 4) ∧ sext16 (0x7FFC#16 + 3#16) = sext16 0x7FFC#16 + 3#32 ∧
    segmentViolation s.userMode (s.effAddr 4 0x7FFC#16) = false ∧
    segmentViolation s.userMode (s.effAddr 4 0x7FFC#16 + 3#32) = false ∧
    targetOf s.cfg (s.effAddr 4 0x7FFC#16) = .region .wram 0x1FFFF9 ∧
    targetOf s.cfg (s.effAddr 4 0x7FFC#16 + 3#32) = .region .wram (0x1FFFF9 + 3) := ⟨configOk_listed, by decide⟩

/-- The lowest address user code may not use, the lowest misaligned ones, and the first unmapped address. -/
theorem witness_LoadTraps :
    let u := start 2#32 [(4, 0x80000000#32)]
    let s := start 0#32 [(4, 0x20000000#32)]
    (u.sr.getLsbD 1 = true ∧ (u.effAddr 4 0#16).msb = true) ∧ (s.effAddr 0 1#16).toNat % 2 ≠ 0 ∧
    (s.effAddr 0 2#16).toNat % 4 ≠ 0 ∧
    (¬(s.sr.getLsbD 1 = true ∧ (s.effAddr 4 0#16).msb = true) ∧ targetOf s.cfg (alignWord (s.effAddr 4 0#16)) = .unmapped ∧
      (s.effAddr 4 0#16).toNat % 2 = 0 ∧ (s.effAddr 4 0#16).toNat % 4 = 0) := by decide

/-- The two ends of the windows: `I_STAT` and the DATA port, up to the last byte of it. -/
theorem witness_LoadsFromDevices :
    let s := start 0#32 [(4, 0xBF801070#32), (5, 0x1F801818#32)]
    (segmentViolation s.userMode (s.effAddr 4 0#16) = false ∧
      targetOf s.cfg (alignWord (s.effAddr 4 0#16)) = .device .iStat ∧ (s.effAddr 4 0#16).toNat % 4 = 0) ∧
    (segmentViolation s.userMode (s.effAddr 5 0xFFFE#16) = false ∧
      targetOf s.cfg (alignWord (s.effAddr 5 0xFFFE#16)) = .device .gpuData ∧ (s.effAddr 5 0xFFFE#16).toNat % 2 = 0) ∧
    (segmentViolation s.userMode (s.effAddr 5 0xFFFF#16) = false ∧
      targetOf s.cfg (alignWord (s.effAddr 5 0xFFFF#16)) = .device .gpuData ∧ laneOf (s.effAddr 5 0xFFFF#16) = 3) ∧
    DeviceReg.gpuCmd ≠ .gpuData := by decide +kernel

/-- The last byte, halfword and word of work RAM. -/
theorem witness_StoresToMemory :
    let s := start 0#32 [(4, 0xA0200000#32), (9, 0x11223344#32)]
    (segmentViolation s.userMode (s.effAddr 4 0xFFFF#16) = false ∧
      targetOf s.cfg (alignWord (s.effAddr 4 0xFFFF#16)) = .region .wram 0x1FFFFC ∧ Region.wram ≠ .rom) ∧
    (targetOf s.cfg (alignWord (s.effAddr 4 0xFFFE#16)) = .region .wram 0x1FFFFC ∧ (s.effAddr 4 0xFFFE#16).toNat % 2 = 0) ∧
    (targetOf s.cfg (alignWord (s.effAddr 4 0xFFFC#16)) = .region .wram 0x1FFFFC ∧ (s.effAddr 4 0xFFFC#16).toNat % 4 = 0) := by
  decide

theorem witness_UnalignedStores :
    let s := start 0#32 [(4, 0x1F000000#32), (5, 0x1F800400#32)]
    (segmentViolation s.userMode (s.effAddr 4 0#16) = false ∧
      targetOf s.cfg (alignWord (s.effAddr 4 0#16)) = .region .aux 0x1F000000 ∧ Region.aux ≠ .rom) ∧
    (segmentViolation s.userMode (s.effAddr 5 0xFFFF#16) = false ∧
      targetOf s.cfg (alignWord (s.effAddr 5 0xFFFF#16)) = .region .spad 0x1F8003FC ∧ Region.spad ≠ .rom) := by decide

/-- The first and the last word of rom, and the last register of a window. -/
theorem witness_StoresToRomAndDevices :
    let s := start 0#32 [(4, 0xBFC00000#32), (5, 0xBF80110C#32)]
    (segmentViolation s.userMode (s.effAddr 4 0#16) = false ∧
      targetOf s.cfg (alignWord (s.effAddr 4 0#16)) = .region .rom 0x1FC00000 ∧ (s.effAddr 4 0#16).toNat % 4 = 0) ∧
    (segmentViolation s.userMode (s.effAddr 5 0xFFFC#16) = false ∧
      targetOf s.cfg (alignWord (s.effAddr 5 0xFFFC#16)) = .device .dmaEn ∧ (s.effAddr 5 0xFFFC#16).toNat % 4 = 0) := by
  decide +kernel

theorem witness_StoreTraps :
    let u := start 2#32 [(4, 0xFFFFFFFF#32)]
    let s := start 0#32 [(4, 0xC0000000#32)]
    (u.sr.getLsbD 1 = true ∧ (u.effAddr 4 0#16).msb = true) ∧ (s.effAddr 4 1#16).toNat % 2 ≠ 0 ∧
    (s.effAddr 4 2#16).toNat % 4 ≠ 0 ∧
    (¬(s.sr.getLsbD 1 = true ∧ (s.effAddr 4 0#16).msb = true) ∧ targetOf s.cfg (alignWord (s.effAddr 4 0#16)) = .unmapped ∧
      (s.effAddr 4 0#16).toNat % 2 = 0 ∧ (s.effAddr 4 0#16).toNat % 4 = 0) := by decide

/-- Vector S9: stored through the cached segment, fetched through the uncached one. -/
theorem witness_StoreIsSeenByTheNextFetch :
    let s := start 0#32 [(4, 0x00000100#32), (9, 0x11223344#32)]
    segmentViolation s.userMode (s.effAddr 4 0#16) = false ∧ (s.effAddr 4 0#16).toNat % 4 = 0 ∧
    targetOf s.cfg (s.effAddr 4 0#16) = .region .wram 0x100 ∧ Region.wram ≠ .rom ∧ (0xA0000100#32).toNat % 4 = 0 ∧
    segmentViolation s.userMode 0xA0000100#32 = false ∧ targetOf s.cfg 0xA0000100#32 = .region .wram 0x100 := by decide

/-- The ends of the segments and of the scratchpad; the first and the last byte of every window, and the bytes around
them; and a configuration with another address map. -/
theorem witness_AddressDecode : ConfigOk listed ∧ 0x1FFFFFFF < 0x20000000 ∧
    (0x20000000 ≤ (0x7FFFFFFF#32).toNat ∧ (0x7FFFFFFF#32).toNat < 0x80000000) ∧ 0xC0000000 ≤ (0xC0000000#32).toNat ∧
    (regionOf listed 0x1F8003FF = some .spad ∧ regionOf listed 0x1F800400 = none) ∧
    (targetOfPhys listed 0x1F80106F = .unmapped ∧ targetOfPhys listed 0x1F801070 = .device .iStat ∧
      targetOfPhys listed 0x1F801077 = .device .iMask ∧ targetOfPhys listed 0x1F801078 = .unmapped ∧
      targetOfPhys listed 0x1F80107F = .unmapped ∧ targetOfPhys listed 0x1F801080 = .device (.madr 0) ∧
      targetOfPhys listed 0x1F8010F7 = .device (.bcr 7) ∧ targetOfPhys listed 0x1F80110F = .device .unimplemented ∧
      targetOfPhys listed 0x1F801110 = .unmapped ∧ targetOfPhys listed 0x1F80180F = .unmapped ∧
      targetOfPhys listed 0x1F801810 = .device .gpuCmd ∧ targetOfPhys listed 0x1F801817 = .device .gpuData ∧
      targetOfPhys listed 0x1F801818 = .unmapped) ∧
    regionOf { listed with auxBase := 0x1F100000 } 0x1F000000 = none :=
  ⟨configOk_listed, by decide, by decide, by decide, by decide, by decide +kernel, by decide⟩

theorem witness_MoveFromControl : (start 0#32 []).sr.getLsbD 1 = false ∧
    ((start 0x10000002#32 []).sr.getLsbD 1 = true ∧ (start 0x10000002#32 []).sr.getLsbD 28 = true) ∧
    ((11 : SlotIdx) ≠ 13 ∧ (11 : SlotIdx) ≠ 15) := by decide

theorem witness_MoveToControl : ((start 0x10000002#32 []).sr.getLsbD 1 = false ∨
      (start 0x10000002#32 []).sr.getLsbD 28 = true) ∧ (0 : SlotIdx) ≠ 12 ∧
    ((12 : SlotIdx) ≠ 8 ∧ (12 : SlotIdx) ≠ 13 ∧ (12 : SlotIdx) ≠ 14 ∧ (12 : SlotIdx) ≠ 15) := by decide

theorem witness_RfePopsTheModeStack : (start 0x3C#32 []).sr.getLsbD 1 = false ∨ (start 0x3C#32 []).sr.getLsbD 28 = true :=
  by decide

theorem witness_Cop0IsUnusableInUserMode : (startUser 2#32 []).sr.getLsbD 1 = true ∧
    (startUser 2#32 []).sr.getLsbD 28 = false := by decide

/-- A state in mid-work that meets every invariant: a byte of memory set, a load pending, a delay slot ahead, a packet in
assembly, a channel with its stored bits all set, both sources pending. -/
def busy : State :=
  { (start 0x401#32 [(8, 7#32)]).withFetchWord 32 0x25080001 with
    inSlot := true
    pcdelta := 0xC#32
    ld := ⟨9, 1#32, .cop⟩
    bus := { ((start 0x401#32 [(8, 7#32)]).withFetchWord 32 0x25080001).bus with
      ic := ⟨9#32, 0#32⟩
      dma := Dma.reset.setChannel 7 ⟨0#32, 0#32, 0x00770703#32, 2#32, 0#32, .xfer⟩
      gpu := { gpu0 with pktLen := 2, pktNeed := 3, pkt := gpu0.pkt.set 0 0x02000000#32 } } }

theorem configOk_busy : ConfigOk busy.cfg := configOk_listed

theorem witness_ResetMeetsTheInvariants : ConfigOk State.reset.cfg := configOk_listed

theorem witness_StepKeepsTheMemoryForm : ConfigOk busy.cfg ∧ step busy = .next (nextOf busy) ∧
    MemoryInv busy.cfg busy.bus.mem ∧ busy.bus.mem.cells.length = 3 :=
  ⟨configOk_busy, rfl, ⟨by decide, by decide⟩, by decide⟩

theorem witness_StepNeverChangesRom : ConfigOk busy.cfg ∧ step busy = .next (nextOf busy) ∧
    regionOf busy.cfg 0x1FC00000 = some .rom ∧ regionOf busy.cfg 0x1FC7FFFF = some .rom ∧
    regionOf busy.cfg 0x1FC80000 = none := ⟨configOk_busy, rfl, by decide, by decide, by decide⟩

theorem witness_StepKeepsTheCpuInvariant : step busy = .next (nextOf busy) ∧ CpuInv busy :=
  ⟨rfl, by decide, by decide, by decide, by decide, by decide⟩

theorem gpuBuffers_reset : GpuBuffers listed gpu0 := ⟨by decide, by decide, by decide, by decide⟩

theorem witness_StepKeepsTheDeviceInvariant : ConfigOk busy.cfg ∧ step busy = .next (nextOf busy) ∧
    DeviceInv busy.cfg busy.bus :=
  ⟨configOk_busy, rfl, by decide, by decide, ⟨by decide, by decide, by decide, by decide⟩, by decide, by decide⟩

theorem witness_InterruptController : (0 < 32 ∧ 31 < 32) ∧ LineHigh ⟨0x80000000#32, 0x80000000#32⟩ :=
  ⟨by decide, 31, by decide, by decide, by decide⟩

theorem witness_DicrReadAndWrite : (7 < 8 ∧ 17 ≤ 17 ∧ 17 ≤ 30 ∧ 30 ≤ 30) ∧
    ({ Dma.reset with flag := 0x80#8, en := 0x80#8, master := true } : Dma).master = true ∧
    (0x80#8).getLsbD 7 = true := by decide

/-- An enabled idle channel 7 and the whole-word writes of vector D3, D8 and D7; the same channel with the latch off; and
the masks of a byte store to the byte of BUSY and of a halfword store beside it. -/
theorem witness_ChannelStartAndStop :
    let b : Bus := { bus0 with dma := { Dma.reset with dpcr := 0x80000000#32, enabled := true } }
    let started := deviceWrite listed b (.chcr 7) 0x01000200#32 0xFFFFFFFF#32
    ((mergeMasked 0#32 0x01000200#32 0xFFFFFFFF#32).getLsbD 24 = true ∧ (b.dma.channel 7).st = .idle ∧
      b.dma.enabled = true ∧ b.dma.dpcr.getLsbD (4 * (7 : ChanIdx).val + 3) = true) ∧
    ((0x01000000#32).getLsbD 24 = true ∧ ¬((bus0.dma.channel 7).st = .idle ∧ bus0.dma.enabled = true ∧
      bus0.dma.dpcr.getLsbD (4 * (7 : ChanIdx).val + 3) = true)) ∧
    (0x00770703#32).getLsbD 24 = false ∧
    ((started.dma.channel 7).st = .xfer ∧ (0xFFFF0000#32).getLsbD 24 = true ∧ (0x0000FFFF#32).getLsbD 24 = false ∧
      (started.dma.channel 7).chcr.getLsbD 24 = false ∧
      ((deviceWrite listed started (.chcr 7) 0#32 0x0000FFFF#32).dma.channel 7).st = .xfer ∧
      ((deviceWrite listed started (.chcr 7) 0#32 0xFFFF0000#32).dma.channel 7).st = .idle) := by decide

/-- Channels with 0, 1 and 2 words left, and an idle one; and the latch off. -/
theorem witness_DmaStepAdvancesEveryChannel :
    let c (n : Word) : Channel := ⟨0#32, 0#32, 0#32, n, 0x1000#32, .xfer⟩
    let d : Dma := { ((Dma.reset.setChannel 0 (c 0#32)).setChannel 1 (c 1#32)).setChannel 2 (c 2#32) with enabled := true }
    bus0.dma.enabled = false ∧ d.enabled = true ∧
    ((d.channel 0).st = .xfer ∧ (d.channel 0).len = 0#32) ∧ ((d.channel 1).st = .xfer ∧ (d.channel 1).len.toNat ≤ 1) ∧
    ((d.channel 2).st = .xfer ∧ (d.channel 2).len ≠ 0#32 ∧ ¬(d.channel 2).len.toNat ≤ 1) ∧ (d.channel 7).st = .idle := by
  decide

/-- A turn with nothing left; with DIR = 1 and DIR = 0, on the GPU's channel and on the stub beside it. -/
theorem witness_DmaStepAdvancesEveryChannel_word :
    let c (n chcr : Word) : Channel := ⟨0#32, 0#32, chcr, n, 0x1000#32, .xfer⟩
    let d : Dma := ((Dma.reset.setChannel 1 (c 0#32 1#32)).setChannel 2 (c 1#32 1#32)).setChannel 3 (c 1#32 0#32)
    ConfigOk listed ∧ (d.channel 1).len = 0#32 ∧
    ((d.channel 2).len ≠ 0#32 ∧ (d.channel 2).chcr.getLsbD 0 = true ∧ (2 : ChanIdx) = 2) ∧
    ((d.channel 3).len ≠ 0#32 ∧ (d.channel 3).chcr.getLsbD 0 = false ∧ (3 : ChanIdx) ≠ 2) ∧
    (regionOf listed 0x1000 = some .wram ∧ regionOf listed 0x00200000 = none) := ⟨configOk_listed, by decide⟩

/-- Channel 4 alone, transferring `len` words from `cur` on. -/
def burst (len cur : Word) : Bus := { bus0 with
  dma := { Dma.reset.setChannel 4 ⟨cur, len, 0#32, len, cur, .xfer⟩ with enabled := true } }

theorem burst_channel (len cur : Word) : (burst len cur).dma.channel 4 = ⟨cur, len, 0#32, len, cur, .xfer⟩ := rfl

theorem burst_idle (len cur : Word) (m : ChanIdx) (h : m ≠ 4) : ((burst len cur).dma.channel m).st = .idle := by
  fin_cases m <;> first | rfl | exact absurd rfl h

/-- A burst of 16 words into work RAM; and one of a single word that ends where the physical space ends. -/
theorem witness_DmaBlockTransfer : ConfigOk listed ∧ (4 : ChanIdx) ≠ 2 ∧
    ∀ x ∈ [(16#32, 0x1000#32), (1#32, 0x1FFFFFFC#32)], (burst x.1 x.2).dma.enabled = true ∧
      ((burst x.1 x.2).dma.channel 4).st = .xfer ∧ (∀ m, m ≠ 4 → ((burst x.1 x.2).dma.channel m).st = .idle) ∧
      ((burst x.1 x.2).dma.channel 4).chcr.getLsbD 0 = false ∧ ((burst x.1 x.2).dma.channel 4).chcr.getLsbD 1 = false ∧
      ((burst x.1 x.2).dma.channel 4).cur.toNat % 4 = 0 ∧ ((burst x.1 x.2).dma.channel 4).cur.toNat +
        4 * ((burst x.1 x.2).dma.channel 4).len.toNat ≤ 0x20000000 ∧
      1 ≤ ((burst x.1 x.2).dma.channel 4).len.toNat := by
  refine ⟨configOk_listed, by decide, fun x hx => ?_⟩
  have h : x.1.toNat ≤ 16 ∧ 1 ≤ x.1.toNat ∧ x.2.toNat % 4 = 0 ∧ x.2.toNat + 4 * x.1.toNat ≤ 0x20000000 := by
    simp only [List.mem_cons, List.not_mem_nil, or_false] at hx
    rcases hx with rfl | rfl <;> decide
  simp only [burst_channel]
  exact ⟨rfl, trivial, burst_idle _ _, by decide, by decide, h.2.2.1, h.2.2.2, h.2.1⟩

/-- A packet of one word (0xE1), a packet of twelve (0x3C) with all its words but one and with all, a dropped word. -/
theorem witness_GpuStatusAndFifo : ConfigOk listed ∧ GpuBuffers listed gpu0 ∧ GpuBuffers listed busy.bus.gpu ∧ 31 < 32 ∧
    gpu0.xferMode ≠ .toVram ∧ gpu0.pktLen = 0 ∧ packetLen ((0x01000000#32).extractLsb' 24 8) = 0 ∧
    ([] : List Word).length + 1 = packetLen ((0xE1000000#32).extractLsb' 24 8) ∧
    (List.replicate 10 7#32).length + 1 < packetLen ((0x3C000000#32).extractLsb' 24 8) ∧
    (List.replicate 11 7#32).length + 1 = packetLen ((0x3C000000#32).extractLsb' 24 8) :=
  ⟨configOk_listed, gpuBuffers_reset, ⟨by decide, by decide, by decide, by decide⟩, by decide⟩

theorem witness_GpuModePackets : gpu0.pkt ≠ [] ∧ gpu0.xferMode ≠ .toVram ∧ gpu0.pktLen = 0 ∧
    (0xE10007FF#32).extractLsb' 24 8 = 0xE1#8 ∧ (0xE20FFFFF#32).extractLsb' 24 8 = 0xE2#8 ∧
    (0xE3000000#32).extractLsb' 24 8 = 0xE3#8 ∧ (0xE407FFFF#32).extractLsb' 24 8 = 0xE4#8 ∧
    (0xE53FFFFE#32).extractLsb' 24 8 = 0xE5#8 ∧ (0xE6000003#32).extractLsb' 24 8 = 0xE6#8 := by decide

theorem witness_GpuFillRectangle : ConfigOk listed ∧ GpuBuffers listed gpu0 ∧ gpu0.xferMode ≠ .toVram ∧ gpu0.pktLen = 0 ∧
    (0x02FF8040#32).extractLsb' 24 8 = 0x02#8 ∧ 1023 < listed.vramWidth ∧ 511 < listed.vramHeight ∧
    regionOf listed 0x1E200000 ≠ some .vram := ⟨configOk_listed, gpuBuffers_reset, by decide⟩

/-- Vector G9, in a clip rectangle that is the whole of video RAM, with the mask check on. -/
theorem witness_GpuFlatRectangle :
    let g : Gpu := { gpu0 with
      pkt := gpu0.pkt.set 0 0x70445566#32, clipX2 := 1023#10, clipY2 := 511#10, offX := 0x7FE#11, offY := 0x7FF#11 }
    ConfigOk listed ∧ (g.pktWord 0).extractLsb' 24 8 = 0x70#8 ∧
    ((g.pktWord 1).extractLsb' 0 11).toInt + g.offX.toInt = -2 ∧ (1023 < listed.vramWidth ∧ 511 < listed.vramHeight) ∧
    ¬(g.maskCheck = true ∧ ((⟨[]⟩ : Memory).pixel listed 5 6).getLsbD 31 = true) := ⟨configOk_listed, by decide⟩

/-- The last word of a transfer, to and from video RAM; and the packets with the lowest and the highest opcode of each
kind. -/
theorem witness_GpuTransferWord :
    let g : Gpu := { gpu0 with xferMode := .toVram, xferX := 1023, xferY := 511, xferW := 2, xferH := 2, xferI := 3 }
    let op (w : Word) : Nat := ((Gpu.pktWord { gpu0 with pkt := gpu0.pkt.set 0 w } 0).extractLsb' 24 8).toNat
    ConfigOk listed ∧ (g.xferMode = .toVram ∧ g.xferI + 1 = g.xferW * g.xferH) ∧
    ({ g with xferMode := .fromVram } : Gpu).xferMode = .fromVram ∧ gpu0.xferMode ≠ .fromVram ∧
    (op 0xA0000000#32 = 0xA0 ∧ op 0xBFFFFFFF#32 = 0xBF ∧ op 0xC0000000#32 = 0xC0 ∧ op 0xDFFFFFFF#32 = 0xDF) ∧
    (op 0x80000000#32 = 0x80 ∧ op 0x9FFFFFFF#32 = 0x9F) ∧ (2 ≤ listed.vramWidth ∧ 2 ≤ listed.vramHeight) :=
  ⟨configOk_listed, by decide⟩

/-- The last cycle but one and the last cycle of a tick; the last line but one and the last line; and a step. -/
theorem witness_TickEnd :
    let s (c : Nat) (l : Word) : State := { State.reset with
      cfg := { listed with tickBudget := 4 }, tickCycle := c, bus := { bus0 with gpu := { gpu0 with line := l } } }
    ((s 2 0#32).tickCycle + 1 < (s 2 0#32).cfg.tickBudget) ∧ ((s 3 0#32).cfg.tickBudget ≤ (s 3 0#32).tickCycle + 1) ∧
    (((s 3 261#32).bus.gpu.line + 1#32).toNat < (s 3 261#32).cfg.lineCount) ∧
    ((s 3 262#32).cfg.lineCount ≤ ((s 3 262#32).bus.gpu.line + 1#32).toNat) ∧
    TickInv (s 3 262#32) ∧ step (s 3 262#32) = .next (nextOf (s 3 262#32)) :=
  ⟨by decide, by decide, by decide, by decide, ⟨.inr (by decide), .inr (by decide)⟩, rfl⟩

end Sys2Proof.Tests
end

section
/-! The state's own statements: what the system control bank, reset and every step keep. First the one lemma that says
how any instruction ends (an exception with no other effect, or a retirement), then what a step keeps of the memory,
then the statements, each a short use of these. -/

namespace Sys2Proof.Machine

/-! ## Taking an exception -/

/-- The state a raised exception leaves is the taken exception of 60_exceptions.md R320, field by field. -/
theorem State.raise_trapTaken (s : State) (e : Exc) : TrapTaken s (s.raise e) e where
  regs := s.reg_raise e
  epc := s.slot_raise e 14
  faultPc := rfl
  faultCause := by
    have := e.code.isLt
    rw [State.raise_faultCause, BitVec.toNat_setWidth]
    omega
  cause k hk := by
    rw [show (s.raise e).cause = trapCause s.cause e s.inSlot from s.slot_raise e 13, trapCause_getLsbD _ _ _ _ hk]
  badv := s.slot_raise e 8
  sr k hk := by
    rw [show (s.raise e).sr = srPush s.sr from s.slot_raise e 12, srPush_getLsbD _ _ hk]
  otherSlots i h8 h12 h13 h14 := by
    rw [State.slot_raise, if_neg h12, if_neg h8, if_neg h13, if_neg h14]
  pc := by
    rw [State.raise_pc, trapVector, srPush_getLsbD _ _ (by decide)]
    rfl
  pcdelta := rfl
  inSlot := rfl
  ldEmpty := rfl
  hiLo := ⟨rfl, rfl⟩
  memory _ := rfl
  devices := ⟨rfl, rfl, rfl⟩
  host := ⟨rfl, rfl, rfl⟩

/-! ## How an instruction ends -/

/-- What a retiring instruction does to the system control bank: nothing, or the write of MTC0 or of RFE where COP0 is
usable (44_coprocessor_system.md R251 to R253). -/
inductive ControlMove (i : Instr) (s : State) (scr : Vector Word 32) : Prop where
  | none (h : scr = s.scr)
  | mtc0 (rt : RegIdx) (slot : SlotIdx) (hi : i = .mtc0 rt slot) (usable : s.cop0Usable = true)
      (h : scr = moveToSlot s.scr slot (s.reg rt))
  | rfe (hi : i = .rfe) (usable : s.cop0Usable = true) (h : scr = writeSlot s.scr 12 (srPop s.sr))

/-- `t` ends the cycle of an instruction `i` that retires from `s` (70_reset_and_hazards.md R452 S6 to S9): what it does
to every field of the CPU. What it does behind the bus is `exec_busMove`. -/
structure Retires (i : Instr) (s t : State) : Prop where
  regs : ∃ wr : Option (RegIdx × Word), wr.map Prod.fst = destOf i ∧ t.regs = writeResult (commitLoad s.regs s.ld) wr
  pc : t.pc = s.pc + s.pcdelta
  inSlot : t.inSlot = isBranch i
  pcdelta : isBranch i = false → t.pcdelta = 4#32
  ld : t.ld.kind = .none → t.ld = LoadSlot.empty
  hiLo : writesHiLo i = false → SameHiLo s t
  control : ControlMove i s t.scr
  faultCause : t.faultCause = s.faultCause
  faultPc : t.faultPc = s.faultPc

/-- An instruction that retires leaves every general register but its destination as the pending load leaves it. -/
theorem Retires.reg_eq {i : Instr} {s t : State} (h : Retires i s t) {r : RegIdx} (hr : destOf i ≠ some r) :
    t.reg r = s.committed r := by
  obtain ⟨wr, hd, hregs⟩ := h.regs
  have hafter : t.reg r = s.regAfter wr r :=
    (State.reg_congr (s := s.retire wr LoadSlot.empty false 4#32) hregs r).trans (State.reg_retire ..)
  rw [hafter]
  rcases wr with _ | ⟨d, v⟩
  · rfl
  · have hne : r ≠ d := by
      rintro rfl
      exact hr hd.symm
    simp [State.regAfter, hne]

section
variable {i : Instr} {s t : State}

/-- The one way to retire: whatever an instruction did to HI, LO, the control bank and the bus, `State.retire` ends it. -/
theorem Retires.of_retire (hi lo : Word) (scr : Vector Word 32) (b : Bus) {wr : Option (RegIdx × Word)} {ld : LoadSlot}
    {slot : Bool} {delta : Word} (dest : wr.map Prod.fst = destOf i) (branch : slot = isBranch i)
    (seq : isBranch i = false → delta = 4#32) (load : ld.kind = .none → ld = LoadSlot.empty)
    (hiLo : writesHiLo i = false → hi = s.hi ∧ lo = s.lo) (control : ControlMove i s scr) :
    Retires i s (State.retire { s with hi := hi, lo := lo, scr := scr, bus := b } wr ld slot delta) where
  regs := ⟨wr, dest, rfl⟩
  pc := rfl
  inSlot := branch
  pcdelta := seq
  ld := load
  hiLo h := ⟨(hiLo h).1, (hiLo h).2⟩
  control := control
  faultCause := rfl
  faultPc := rfl

theorem Retires.of_finishReg {r : RegIdx} {v : Word} (dest : destOf i = some r) (branch : isBranch i = false)
    (h : finishReg r v s = .next t) : Retires i s t := by
  cases h
  exact .of_retire s.hi s.lo s.scr s.bus dest.symm branch.symm (fun _ => rfl) (fun _ => rfl) (fun _ => ⟨rfl, rfl⟩)
    (.none rfl)

theorem Retires.of_finishHiLo {hi lo : Word} (dest : destOf i = none) (branch : isBranch i = false)
    (writes : writesHiLo i = true) (h : finishHiLo hi lo s = .next t) : Retires i s t := by
  cases h
  exact .of_retire hi lo s.scr s.bus dest.symm branch.symm (fun _ => rfl) (fun _ => rfl)
    (fun c => absurd (c.symm.trans writes) (by decide)) (.none rfl)

theorem Retires.of_finishBranch {taken : Bool} {target : Word} {link : Option (RegIdx × Word)}
    (dest : link.map Prod.fst = destOf i) (branch : isBranch i = true) (h : finishBranch taken target link s = .next t) :
    Retires i s t := by
  cases h
  exact .of_retire s.hi s.lo s.scr s.bus dest branch.symm (fun c => absurd (c.symm.trans branch) (by decide))
    (fun _ => rfl) (fun _ => ⟨rfl, rfl⟩) (.none rfl)

theorem Retires.of_finishDelayed {r : RegIdx} {v : Word} {kind : LoadKind} {b : Bus} (full : kind ≠ .none)
    (dest : destOf i = none) (branch : isBranch i = false)
    (h : finishDelayed r v kind { s with bus := b } = .next t) : Retires i s t := by
  cases h
  exact .of_retire s.hi s.lo s.scr b dest.symm branch.symm (fun _ => rfl) (fun c => absurd c full)
    (fun _ => ⟨rfl, rfl⟩) (.none rfl)

theorem Retires.of_finish_bus {b : Bus} (dest : destOf i = none) (branch : isBranch i = false)
    (h : finish { s with bus := b } = .next t) : Retires i s t := by
  cases h
  exact .of_retire s.hi s.lo s.scr b dest.symm branch.symm (fun _ => rfl) (fun _ => rfl) (fun _ => ⟨rfl, rfl⟩) (.none rfl)

theorem Retires.of_finish_scr {scr : Vector Word 32} (dest : destOf i = none) (branch : isBranch i = false)
    (control : ControlMove i s scr) (h : finish { s with scr := scr } = .next t) : Retires i s t := by
  cases h
  exact .of_retire s.hi s.lo scr s.bus dest.symm branch.symm (fun _ => rfl) (fun _ => rfl) (fun _ => ⟨rfl, rfl⟩) control

end

/-- An instruction's two endings: an exception, or its retirement. -/
def Ends (i : Instr) (s t : State) : Prop := (∃ e, t = s.raise e) ∨ Retires i s t

section
variable {i : Instr} {s t : State}

theorem Ends.of_raise {e : Exc} (h : raiseExc e s = .next t) : Ends i s t := by
  cases h
  exact .inl ⟨e, rfl⟩

/-- ADD, SUB and ADDI: overflow is an exception (40_alu.md R152). -/
theorem Ends.of_trapping {c : Bool} {r : RegIdx} {v : Word} (dest : destOf i = some r) (branch : isBranch i = false)
    (h : (if c then raiseExc .ov s else finishReg r v s) = .next t) : Ends i s t := by
  split at h
  · exact .of_raise h
  · exact .inr (.of_finishReg dest branch h)

/-- A word with op = 0x10: CpU(0) where COP0 is not usable (44_coprocessor_system.md R253). -/
theorem Ends.of_cop0 {meaning : Result} (usable : s.cop0Usable = true → meaning = .next t → Ends i s t)
    (h : cop0 meaning s = .next t) : Ends i s t := by
  simp only [cop0] at h
  split at h
  · rename_i hu
    exact usable hu h
  · exact .of_raise h

theorem Ends.of_load {sz : AccessSize} {ext : Word → Word} {rt rs : RegIdx} {imm : BitVec 16} (dest : destOf i = none)
    (branch : isBranch i = false) (h : load sz ext rt rs imm s = .next t) : Ends i s t := by
  simp only [load] at h
  split at h
  · exact .of_raise h
  · exact .inr (.of_finishDelayed (by decide) dest branch h)

theorem Ends.of_loadUnaligned {merge : Nat → Word → Word → Word} {rt rs : RegIdx} {imm : BitVec 16}
    (dest : destOf i = none) (branch : isBranch i = false) (h : loadUnaligned merge rt rs imm s = .next t) :
    Ends i s t := by
  simp only [loadUnaligned] at h
  split at h
  · exact .of_raise h
  · exact .inr (.of_finishDelayed (by decide) dest branch h)

/-- Every store ends as `finishStore` says (42_loadstore.md R210). -/
theorem Ends.of_finishStore {written : Except Exc Bus} (dest : destOf i = none) (branch : isBranch i = false)
    (h : finishStore written s = .next t) : Ends i s t := by
  rcases written with e | b
  · exact .of_raise h
  · exact .inr (.of_finish_bus dest branch h)

end

/-- Every instruction takes an exception, with no other effect, or retires (10_state.md R30, 60_exceptions.md R316). -/
theorem exec_ends {i : Instr} {s t : State} (h : exec i s = .next t) : Ends i s t := by
  cases i
  case sll | srl | sra | sllv | srlv | srav | addu | subu | and | or | xor | nor | slt | sltu | addiu | slti | sltiu
      | andi | ori | xori | lui | mfhi | mflo =>
    exact .inr (.of_finishReg rfl rfl h)
  case add | sub | addi => exact .of_trapping rfl rfl h
  case mult | multu | div | divu | mthi | mtlo => exact .inr (.of_finishHiLo rfl rfl rfl h)
  case j | jal | jr | jalr | beq | bne | blez | bgtz | bltz | bgez | bltzal | bgezal =>
    exact .inr (.of_finishBranch rfl rfl h)
  case lb | lbu | lh | lhu | lw => exact .of_load rfl rfl h
  case lwl | lwr => exact .of_loadUnaligned rfl rfl h
  case sb | sh | sw | swl | swr => exact .of_finishStore rfl rfl h
  case mfc0 =>
    exact .of_cop0 (fun _ h => .inr (.of_finishDelayed (b := s.bus) (by decide) rfl rfl h)) h
  case mtc0 rt slot =>
    exact .of_cop0 (fun hu h => .inr (.of_finish_scr rfl rfl (.mtc0 rt slot rfl hu rfl) h)) h
  case rfe => exact .of_cop0 (fun hu h => .inr (.of_finish_scr rfl rfl (.rfe rfl hu rfl) h)) h
  case syscall | brk | cop1 | cop2 | cop3 | lwc1 | lwc2 | lwc3 | swc1 | swc2 | swc3 => exact .of_raise h

/-- A step takes an exception, or its fetched instruction, with no interrupt in front of it, retires; then the cycle
ends (70_reset_and_hazards.md R452). -/
theorem step_ends {s t : State} (h : step s = .next t) : ∃ u, t = u.endCycle ∧ ((∃ e, u = s.raise e) ∨
    ∃ w i, s.interruptRequested = false ∧ s.fetch = .ok w ∧ decode w = .ok i ∧ Retires i s u) := by
  obtain ⟨u, rfl, hu⟩ := step_cases h
  refine ⟨u, rfl, ?_⟩
  rcases hu with he | ⟨w, i, hint, hw, hd, hx⟩
  · exact .inl he
  · rcases exec_ends hx with he | hr
    · exact .inl he
    · exact .inr ⟨w, i, hint, hw, hd, hr⟩

/-! ## What a step does to the memory -/

/-- No step changes the configuration (00_scope.md R7). -/
theorem step_cfg {s t : State} (h : step s = .next t) : t.cfg = s.cfg := by
  obtain ⟨u, hu, rfl⟩ := step_eq_next.mp h
  exact u.endCycle_sameCpu.cfg.trans (cpuStep_cfg hu)

/-- A step changes memory by byte writes in the writable regions only: through the instruction's one bus move, then
through DMA and the GPU (20_memory.md R84, R107). -/
theorem step_keeps {P : Memory → Prop} {s t : State} (ok : ConfigOk s.cfg)
    (byte : ∀ (m : Memory) (a : Nat) (v : Byte) (r : Region), regionOf s.cfg a = some r → r ≠ .rom → P m → P (m.write a v))
    (h : step s = .next t) (hm : P s.bus.mem) : P t.bus.mem := by
  obtain ⟨u, hu, rfl⟩ := step_eq_next.mp h
  have hcfg : u.cfg = s.cfg := cpuStep_cfg hu
  have hcpu : P u.bus.mem := (cpuStep_busMove hu).keeps ok byte hm
  have hdma : P u.dmaStep.bus.mem := by
    rw [State.dmaStep_bus, hcfg]
    exact dmaStep_keeps ok byte hcpu
  rw [State.endCycle, u.dmaStep.countCycle_mem.1]
  exact hdma

/-- A byte write in a region keeps the memory's form. -/
theorem MemoryInv.write {cfg : Config.Params} {m : Memory} (h : MemoryInv cfg m) {a : Nat} (v : Byte) {r : Region}
    (ha : regionOf cfg a = some r) : MemoryInv cfg (m.write a v) where
  canonical := Memory.wf_write a v h.canonical
  inRegions c hc := by
    rcases Memory.cells_write hc with hca | hc
    · rw [hca, ha]
      rfl
    · exact h.inRegions c hc

/-- Settles O44: each byte a step writes lies in a region, and such a write keeps the form. -/
theorem stepKeepsTheMemoryForm : Obligations.StepKeepsTheMemoryForm := by
  intro s t ok h hm
  refine ⟨step_cfg h, ?_⟩
  rw [step_cfg h]
  exact step_keeps (P := MemoryInv s.cfg) ok (fun _ _ v _ ha _ hm => hm.write v ha) h hm

/-- Settles O45: no byte a step writes lies in rom. -/
theorem stepNeverChangesRom : Obligations.StepNeverChangesRom := by
  intro s t p ok h hp
  refine step_keeps (P := fun m => m.read p = s.bus.mem.read p) ok (fun m a v r ha hr hm => ?_) h rfl
  have hne : p ≠ a := by
    rintro rfl
    exact hr (Option.some.inj (ha.symm.trans hp))
  rw [Memory.read_write, if_neg hne, hm]

/-! ## The invariant of the CPU's registers -/

/-- The stored register 0 stays as it is at the end of a cycle (10_state.md R21). -/
theorem writeResult_commitLoad_zero (regs : Vector Word 32) (ld : LoadSlot) (wr : Option (RegIdx × Word)) :
    (writeResult (commitLoad regs ld) wr).get 0 = regs.get 0 := by
  have hld : (commitLoad regs ld).get 0 = regs.get 0 := by simp [commitLoad_get]
  rcases wr with _ | ⟨d, v⟩
  · exact hld
  · simp [writeResult, writeReg_get, hld]

/-! What MTC0 leaves in each slot (44_coprocessor_system.md R251). -/

theorem moveToSlot_other (scr : Vector Word 32) {slot i : SlotIdx} (v : Word) (hi : i ≠ slot) :
    (moveToSlot scr slot v).get i = scr.get i := by
  simp only [moveToSlot]
  split
  · rfl
  · split
    · rename_i h13
      rw [writeSlot_get, if_neg (h13 ▸ hi)]
    · rw [writeSlot_get, if_neg hi]

theorem moveToSlot_readOnly (scr : Vector Word 32) {slot : SlotIdx} (v : Word) (h : slot = 8 ∨ slot = 14 ∨ slot = 15) :
    moveToSlot scr slot v = scr := if_pos h

theorem moveToSlot_cause (scr : Vector Word 32) (v : Word) :
    (moveToSlot scr 13 v).get 13 = (scr.get 13 &&& ~~~0x00000300#32) ||| (v &&& 0x00000300#32) := by
  rw [moveToSlot, if_neg (by decide), if_pos rfl, writeSlot_get, if_pos rfl]

theorem moveToSlot_plain (scr : Vector Word 32) {slot : SlotIdx} (v : Word) (hro : ¬(slot = 8 ∨ slot = 14 ∨ slot = 15))
    (h13 : slot ≠ 13) : (moveToSlot scr slot v).get slot = v := by
  rw [moveToSlot, if_neg hro, if_neg h13, writeSlot_get, if_pos rfl]

/-- CAUSE after an MTC0 to it, bit by bit (44_coprocessor_system.md R251). -/
theorem mtc0Cause_getLsbD (old v : Word) (k : Nat) (hk : k < 32) :
    ((old &&& ~~~0x00000300#32) ||| (v &&& 0x00000300#32)).getLsbD k =
      if k = 8 ∨ k = 9 then v.getLsbD k else old.getLsbD k := by
  simp only [BitVec.getLsbD_or, BitVec.getLsbD_and, BitVec.getLsbD_not]
  interval_cases k <;> simp

/-- The bits of CAUSE that read 0 or are live (10_state.md R40) are those of the mask of `CpuInv`. -/
theorem cause_reserved_iff (c : Word) : c &&& 0x4FFFFC83#32 = 0#32 ↔
    ∀ k, k < 32 → ¬(k = 31 ∨ (28 ≤ k ∧ k ≤ 29) ∨ (8 ≤ k ∧ k ≤ 9) ∨ (2 ≤ k ∧ k ≤ 6)) → c.getLsbD k = false := by
  have mask : ∀ k, k < 32 → ((0x4FFFFC83#32).getLsbD k = true ↔
      ¬(k = 31 ∨ (28 ≤ k ∧ k ≤ 29) ∨ (8 ≤ k ∧ k ≤ 9) ∨ (2 ≤ k ∧ k ≤ 6))) := by decide
  constructor
  · intro h k hk hr
    have hbit := congrArg (·.getLsbD k) h
    simpa [(mask k hk).mpr hr] using hbit
  · intro h
    apply BitVec.eq_of_getLsbD_eq
    intro k hk
    rw [BitVec.getLsbD_and, BitVec.getLsbD_zero]
    rcases hb : (0x4FFFFC83#32).getLsbD k with _ | _
    · exact Bool.and_false _
    · rw [h k hk ((mask k hk).mp hb), Bool.false_and]

/-- Trap entry stores 0 in the bits of CAUSE that read 0 (60_exceptions.md R320 (3)). -/
theorem trapCause_reserved (old : Word) (e : Exc) (slot : Bool) : trapCause old e slot &&& 0x4FFFFC83#32 = 0#32 := by
  rw [cause_reserved_iff]
  intro k hk hr
  rw [trapCause_getLsbD _ _ _ _ hk, if_neg, if_neg, if_neg, if_neg] <;> tauto

/-- The reserved bits of CAUSE and the stored PRID stay 0 through what a retiring instruction does to the bank. -/
theorem ControlMove.keeps {i : Instr} {s t : State} (h : ControlMove i s t.scr)
    (hc : s.cause &&& 0x4FFFFC83#32 = 0#32) (hp : s.slot 15 = 0#32) :
    t.cause &&& 0x4FFFFC83#32 = 0#32 ∧ t.slot 15 = 0#32 := by
  have frame : t.slot 13 = s.slot 13 → t.slot 15 = s.slot 15 → t.cause &&& 0x4FFFFC83#32 = 0#32 ∧ t.slot 15 = 0#32 :=
    fun h13 h15 => ⟨(congrArg (· &&& 0x4FFFFC83#32) h13).trans hc, h15.trans hp⟩
  cases h with
  | none h => exact frame (congrArg (·.get 13) h) (congrArg (·.get 15) h)
  | rfe _ _ h => exact frame ((congrArg (·.get 13) h).trans (by simp)) ((congrArg (·.get 15) h).trans (by simp))
  | mtc0 rt slot _ _ h =>
    have get : ∀ j, t.slot j = (moveToSlot s.scr slot (s.reg rt)).get j := fun j => congrArg (·.get j) h
    have h15 : t.slot 15 = s.slot 15 := by
      by_cases h15 : slot = 15
      · rw [get, moveToSlot_readOnly _ _ (.inr (.inr h15)), State.slot_mk]
      · rw [get, moveToSlot_other _ _ (Ne.symm h15), State.slot_mk]
    by_cases h13 : slot = 13
    · refine ⟨?_, h15.trans hp⟩
      rw [cause_reserved_iff] at hc ⊢
      intro k hk hr
      rw [State.cause, get, h13, moveToSlot_cause, mtc0Cause_getLsbD _ _ _ hk, if_neg (by omega)]
      exact hc k hk hr
    · exact frame ((get 13).trans (moveToSlot_other _ _ (Ne.symm h13))) h15

/-- Taking an exception keeps the CPU's invariant. -/
theorem CpuInv.raise {s : State} (h : CpuInv s) (e : Exc) : CpuInv (s.raise e) where
  zero := (writeResult_commitLoad_zero s.regs s.ld none).trans h.zero
  cause := by
    rw [show (s.raise e).cause = trapCause s.cause e s.inSlot from s.slot_raise e 13]
    exact trapCause_reserved ..
  prid := (s.slot_raise e 15).trans h.prid
  pcdelta _ := rfl
  ld _ := rfl

/-- Retiring an instruction keeps the CPU's invariant. -/
theorem CpuInv.retires {i : Instr} {s t : State} (h : CpuInv s) (hr : Retires i s t) : CpuInv t where
  zero := by
    obtain ⟨wr, -, hregs⟩ := hr.regs
    rw [hregs, writeResult_commitLoad_zero, h.zero]
  cause := (hr.control.keeps h.cause h.prid).1
  prid := (hr.control.keeps h.cause h.prid).2
  pcdelta hs := hr.pcdelta (hr.inSlot.symm.trans hs)
  ld := hr.ld

/-- The CPU's invariant looks at the CPU alone. -/
theorem CpuInv.congr {s t : State} (h : CpuInv s) (c : SameCpu s t) : CpuInv t where
  zero := by rw [c.regs, h.zero]
  cause := (congrArg (fun scr : Vector Word 32 => scr.get 13 &&& 0x4FFFFC83#32) c.scr).trans h.cause
  prid := (congrArg (·.get 15) c.scr).trans h.prid
  pcdelta hs := by rw [c.pcdelta, h.pcdelta (c.inSlot ▸ hs)]
  ld hk := by rw [c.ld, h.ld (c.ld ▸ hk)]

/-- Settles O46: an exception and a retirement keep the invariant, and the end of the cycle leaves the CPU. -/
theorem stepKeepsTheCpuInvariant : Obligations.StepKeepsTheCpuInvariant := by
  intro s t h hs
  obtain ⟨u, rfl, ⟨e, rfl⟩ | ⟨w, i, -, -, -, hr⟩⟩ := step_ends h
  · exact (hs.raise e).congr (State.endCycle_sameCpu _)
  · exact (hs.retires hr).congr u.endCycle_sameCpu

/-! ## One instruction -/

/-- Settles O11. -/
theorem everyInstructionRetiresOrTraps : Obligations.EveryInstructionRetiresOrTraps := by
  intro i s t h
  rcases exec_ends h with ⟨e, rfl⟩ | hr
  · exact .inl ⟨e, s.raise_trapTaken e⟩
  · exact .inr ⟨hr.pc, fun _ => hr.reg_eq, hr.inSlot, hr.pcdelta, exec_host h⟩

/-- Settles O23: an exception and the end of the cycle leave HI and LO, and so does every retirement but six. -/
theorem hiLoHaveSixWriters : Obligations.HiLoHaveSixWriters := by
  intro s t h changed
  obtain ⟨u, rfl, hu⟩ := step_ends h
  rw [u.endCycle_sameCpu.hi, u.endCycle_sameCpu.lo] at changed
  rcases hu with ⟨e, rfl⟩ | ⟨w, i, hint, hw, hd, hr⟩
  · exact absurd changed (by simp)
  · refine ⟨hint, w, i, hw, hd, ?_⟩
    by_contra hn
    have same := hr.hiLo (Bool.eq_false_iff.mpr hn)
    rcases changed with hhi | hlo
    · exact hhi same.hi
    · exact hlo same.lo

/-! ## Moves from and to the control bank -/

/-- COP0 is usable in kernel mode, or with CU0 = 1 (44_coprocessor_system.md R253). -/
theorem State.cop0Usable_iff (s : State) : s.cop0Usable = true ↔ s.sr.getLsbD 1 = false ∨ s.sr.getLsbD 28 = true := by
  simp [State.cop0Usable, State.userMode, State.cu0]

theorem cop0_usable {s : State} (meaning : Result) (h : s.cop0Usable = true) : cop0 meaning s = meaning := by
  rw [cop0, if_pos h]

/-- The controller's line, computed, is the line of 60_exceptions.md R341. -/
theorem Ic.pendingLine_iff (ic : Ic) : ic.pendingLine = true ↔ LineHigh ic := by
  rw [Ic.pendingLine, bne_iff_ne, LineHigh, ← not_iff_not, not_not]
  constructor
  · rintro h ⟨j, hj, hs, hm⟩
    have hbit := congrArg (·.getLsbD j) h
    simp [hs, hm] at hbit
  · intro h
    apply BitVec.eq_of_getLsbD_eq
    intro j hj
    rw [BitVec.getLsbD_and, BitVec.getLsbD_zero, Bool.and_eq_false_iff]
    by_contra hb
    push Not at hb
    exact h ⟨j, hj, by simpa using hb.1, by simpa using hb.2⟩

/-- What reading CAUSE gives, bit by bit: bit 10 is the line, the others are stored (10_state.md R40). -/
theorem State.causeRead_getLsbD (s : State) (k : Nat) (hk : k < 32) : s.causeRead.getLsbD k =
    if k = 10 then s.bus.ic.pendingLine else s.cause.getLsbD k := by
  simp only [State.causeRead, BitVec.getLsbD_or, BitVec.getLsbD_and]
  rcases s.bus.ic.pendingLine with _ | _ <;> interval_cases k <;> simp

/-- Settles O38. -/
theorem moveFromControl : Obligations.MoveFromControl := by
  intro s rt slot hu
  obtain ⟨t, ht, hl, hb⟩ := finishDelayed_loadsInto rt (s.readSlot slot) .cop s s.bus fun _ => rfl
  refine ⟨t, s.readSlot slot, (cop0_usable _ (s.cop0Usable_iff.mpr hu)).trans ht, hl, ?_, ?_, ?_, ?_⟩
  · exact ⟨congrArg Bus.ic hb, congrArg Bus.dma hb, congrArg Bus.gpu hb⟩
  · intro h13 h15
    rw [State.readSlot, if_neg h13, if_neg h15]
  · rintro rfl
    rfl
  · rintro rfl k hk
    rw [show s.readSlot 13 = s.causeRead from rfl, s.causeRead_getLsbD k hk]
    split
    · exact s.bus.ic.pendingLine_iff
    · rfl

/-- Settles O39. -/
theorem moveToControl : Obligations.MoveToControl := by
  intro s rt slot hu
  obtain ⟨t, ht, hw, hscr⟩ := finish_writesControl (moveToSlot s.scr slot (s.reg rt)) s
  have get : ∀ i, t.slot i = (moveToSlot s.scr slot (s.reg rt)).get i := fun i => congrArg (·.get i) hscr
  refine ⟨t, (cop0_usable _ (s.cop0Usable_iff.mpr hu)).trans ht, hw, ?_, ?_, ?_, ?_⟩
  · intro i hi
    rw [get, moveToSlot_other _ _ hi, State.slot_mk]
  · intro hro
    rw [get, moveToSlot_readOnly _ _ hro, State.slot_mk]
  · rintro rfl k hk
    rw [State.cause, get, moveToSlot_cause, mtc0Cause_getLsbD _ _ _ hk]
    rfl
  · intro h8 h13 h14 h15
    rw [get, moveToSlot_plain _ _ (by simp [h8, h14, h15]) h13]

/-! ## Reset -/

/-- A slot of the control bank after reset (10_state.md R56). -/
theorem State.slot_resetWith (cfg : Config.Params) (i : SlotIdx) :
    (State.resetWith cfg).slot i = if i = 12 then 0x00400000#32 else 0#32 := by
  show (writeSlot (Vector.replicate 32 0#32) 12 Config.resetSr).get i = _
  rw [writeSlot_get]
  split
  · rfl
  · simp [Vector.get_eq_getElem]

theorem State.regs_resetWith (cfg : Config.Params) (r : RegIdx) : (State.resetWith cfg).regs.get r = 0#32 := by
  simp [State.resetWith, Vector.get_eq_getElem]

theorem Dma.channel_reset (n : ChanIdx) : Dma.reset.channel n = Channel.reset := by
  simp [Dma.channel, Dma.reset, Vector.get_eq_getElem]

/-- The status word after reset: ready for a packet, no transfer (10_state.md R56, 60_exceptions.md R384). -/
theorem Gpu.status_reset (cfg : Config.Params) : (Gpu.reset cfg).status = 0x04000000#32 := by
  simp [Gpu.status, Gpu.reset]

/-- Memory after reset reads 0 everywhere (10_state.md R57). -/
theorem State.read_resetWith (cfg : Config.Params) (a : Nat) : (State.resetWith cfg).bus.mem.read a = 0#8 :=
  Memory.read_empty a

/-- What the host's bytes leave in every byte of memory (10_state.md R47). -/
theorem read_placeBytes (m : Memory) (p a : Nat) (bytes : List Byte) : (placeBytes m p bytes).read a =
    if p ≤ a ∧ a < p + bytes.length then bytes.getD (a - p) 0#8 else m.read a := by
  induction bytes generalizing m p with
  | nil =>
    rw [if_neg (by simp only [List.length_nil]; omega)]
    rfl
  | cons b bs ih =>
    rw [placeBytes, ih, Memory.read_write, List.length_cons]
    rcases Nat.lt_trichotomy a p with hlt | rfl | hgt
    · rw [if_neg (by omega), if_neg (by omega), if_neg (by omega)]
    · rw [if_neg (by omega), if_pos rfl, if_pos (by omega), Nat.sub_self]
      rfl
    · rw [if_neg (c := a = p) (by omega), show a - p = a - (p + 1) + 1 by omega, List.getD_cons_succ]
      exact if_congr (by omega) rfl rfl

section
variable {cfg : Config.Params} {image : List Byte} {flag : Word}

/-- A byte of memory after reset and the host's preload of a complete image (70_reset_and_hazards.md R462). -/
theorem read_preloaded (boot : BootReady image flag) (a : Nat) :
    ((State.resetWith cfg).hostPreload image flag).bus.mem.read a =
      if cfg.romBase ≤ a ∧ a < cfg.romBase + 0x80000 then image.getD (a - cfg.romBase) 0#8 else 0#8 := by
  have hlen : image.length = 0x80000 := boot.complete
  have h := read_placeBytes (State.resetWith cfg).bus.mem cfg.romBase a image
  rwa [hlen, State.read_resetWith] at h

theorem read_preloaded_rom (boot : BootReady image flag) {k : Nat} (hk : k < 0x80000) :
    ((State.resetWith cfg).hostPreload image flag).bus.mem.read (cfg.romBase + k) = image.getD k 0#8 := by
  rw [read_preloaded boot, if_pos ⟨by omega, by omega⟩, Nat.add_sub_cancel_left]

theorem read_preloaded_outside (ok : ConfigOk cfg) (boot : BootReady image flag) {a : Nat}
    (ha : regionOf cfg a ≠ some .rom) : ((State.resetWith cfg).hostPreload image flag).bus.mem.read a = 0#8 := by
  rw [read_preloaded boot]
  exact if_neg fun h => ha ((regionOf_eq_some ok (r := .rom)).mpr h)

/-- The first fetch after the preload, where the reset vector names the ROM's first word (R462, R463). -/
theorem fetch_preloaded (ok : ConfigOk cfg) (boot : BootReady image flag)
    (vector : physOf cfg.resetVector = some cfg.romBase) : ((State.resetWith cfg).hostPreload image flag).fetch =
      .ok (image.getD 3 0#8 ++ image.getD 2 0#8 ++ image.getD 1 0#8 ++ image.getD 0 0#8) := by
  have kernel : segmentViolation ((State.resetWith cfg).hostPreload image flag).userMode cfg.resetVector = false := by
    rw [segmentViolation_eq_false]
    rintro ⟨hu, -⟩
    rw [show ((State.resetWith cfg).hostPreload image flag).userMode = false from
      congrArg (·.getLsbD 1) (State.slot_resetWith cfg 12)] at hu
    exact absurd hu (by decide)
  have aligned : cfg.resetVector.toNat % 4 = 0 := by
    have hbase : cfg.romBase % 4 = 0 := (ok.region_word .rom).1
    rw [physOf_eq_some] at vector
    omega
  have inRom : regionOf cfg cfg.romBase = some .rom :=
    (regionOf_eq_some ok).mpr ⟨Nat.le_refl _, Nat.lt_add_of_pos_right (show 0 < 0x80000 by omega)⟩
  refine (fetchWord_region kernel aligned (targetOf_region.mpr ⟨vector, inRom⟩)).trans ?_
  have byte : ∀ k, k < 0x80000 → ((State.resetWith cfg).hostPreload image flag).bus.mem.read (cfg.romBase + k) =
      image.getD k 0#8 := fun _ hk => read_preloaded_rom boot hk
  rw [Memory.readWord, byte 3 (by omega), byte 2 (by omega), byte 1 (by omega)]
  exact congrArg (fun b : Byte => Except.ok (image.getD 3 0#8 ++ image.getD 2 0#8 ++ image.getD 1 0#8 ++ b))
    (byte 0 (by omega))

end

/-- Settles O13: the table of 10_state.md R56, then the preload, then the listed configuration. -/
theorem resetState : Obligations.ResetState := by
  refine ⟨fun cfg => ⟨?cpu, ?controllers, ?gpu, fun a _ => State.read_resetWith cfg a⟩, ?preload, ?listed⟩
  case cpu =>
    exact ⟨rfl, rfl, rfl, rfl, State.regs_resetWith cfg, rfl, rfl, rfl, rfl, rfl, State.slot_resetWith cfg, rfl⟩
  case controllers => exact ⟨rfl, Dma.channel_reset, rfl, rfl, rfl, rfl, rfl⟩
  case gpu =>
    exact ⟨List.length_replicate, fun _ => List.eq_of_mem_replicate, rfl, rfl, rfl, List.length_replicate,
      fun _ => List.eq_of_mem_replicate, rfl, rfl, rfl, rfl, rfl, rfl, rfl, rfl, rfl, rfl, rfl, rfl, rfl, rfl, rfl, rfl,
      rfl, rfl, Gpu.status_reset cfg⟩
  case preload =>
    intro cfg image flag ok boot
    exact ⟨fun _ hk => read_preloaded_rom boot hk, fun _ ha => read_preloaded_outside ok boot ha, rfl,
      fetch_preloaded ok boot⟩
  case listed => exact ⟨rfl, by decide⟩

/-! ## The invariants after reset -/

theorem memoryInv_empty (cfg : Config.Params) : MemoryInv cfg ⟨[]⟩ where
  canonical := ⟨List.Pairwise.nil, fun _ h => nomatch h⟩
  inRegions _ h := nomatch h

theorem cpuInv_resetWith (cfg : Config.Params) : CpuInv (State.resetWith cfg) where
  zero := State.regs_resetWith cfg 0
  cause := by rw [State.cause, State.slot_resetWith]; rfl
  prid := State.slot_resetWith cfg 15
  pcdelta _ := rfl
  ld _ := rfl

/-- The GPU's invariant after reset: empty buffers of their lengths, no packet and no transfer. -/
theorem gpuInv_reset {cfg : Config.Params} (ok : ConfigOk cfg) : GpuInv cfg (Gpu.reset cfg) where
  buffers := ⟨List.length_replicate, rfl, Nat.lt_of_lt_of_le (show 0 < 2 by decide) ok.fifoDepth, List.length_replicate⟩
  packet h := absurd rfl h
  transfer h := absurd rfl h

theorem deviceInv_resetWith {cfg : Config.Params} (ok : ConfigOk cfg) : DeviceInv cfg (State.resetWith cfg).bus where
  chcr n := by
    rw [show (State.resetWith cfg).bus.dma.channel n = Channel.reset from Dma.channel_reset n]
    rfl
  sources j _ h := absurd h (by simp [State.resetWith, Bus.reset])
  gpu := gpuInv_reset ok

theorem tickInv_resetWith (cfg : Config.Params) : TickInv (State.resetWith cfg) := ⟨.inl rfl, .inl rfl⟩

/-- Settles O43: each invariant holds of the reset state of every coherent configuration, so of the listed one. -/
theorem resetMeetsTheInvariants : Obligations.ResetMeetsTheInvariants := by
  have every : ∀ cfg : Config.Params, ConfigOk cfg →
      MemoryInv cfg (State.resetWith cfg).bus.mem ∧ CpuInv (State.resetWith cfg) ∧
      DeviceInv cfg (State.resetWith cfg).bus ∧ TickInv (State.resetWith cfg) := fun cfg ok =>
    ⟨memoryInv_empty cfg, cpuInv_resetWith cfg, deviceInv_resetWith ok, tickInv_resetWith cfg⟩
  exact ⟨every, every Config.Params.listed (configOk_defaults _)⟩

end Sys2Proof.Machine
end

section
/-! The statements of 20_memory.md: loads and stores behind the address decoder, the decoder itself, the device registers
and the DMA step. First, for each kind of access, the one lemma that says what it leaves when its checks pass; each
statement about loads and stores then says which word the bus reads or writes. -/

namespace Sys2Proof.Machine

/-! ## What an access leaves when its checks pass -/

/-- A load whose checks pass fills the slot with the extended lanes of the word the bus reads (42_loadstore.md R201). -/
theorem load_of_read {sz : AccessSize} (ext : Word → Word) (rt : RegIdx) {rs : RegIdx} {imm : BitVec 16} {s : State}
    {w : Word} {b : Bus} (hv : segmentViolation s.userMode (s.effAddr rs imm) = false)
    (ha : (s.effAddr rs imm).toNat % sz.bytes = 0)
    (hr : busReadWord s.cfg s.bus (alignWord (s.effAddr rs imm)) = .ok (w, b)) :
    ∃ t, load sz ext rt rs imm s = .next t ∧ t.bus = b ∧
      LoadsInto s t rt (ext (lanes w (laneOf (s.effAddr rs imm)) sz)) .mem := by
  have hm : memRead s.cfg s.userMode s.bus (s.effAddr rs imm) sz =
      .ok (lanes w (laneOf (s.effAddr rs imm)) sz, b) := by
    rw [memRead_pass hv ha, hr]
    rfl
  obtain ⟨t, ht, hl, hb⟩ := finishDelayed_loadsInto rt (ext (lanes w (laneOf (s.effAddr rs imm)) sz)) .mem s b
    fun a => by rw [busReadWord_mem hr]
  exact ⟨t, by rw [load, hm]; exact ht, hb, hl⟩

/-- LWL and LWR whose check passes merge the word the bus reads into the register as the pending load leaves it
(42_loadstore.md R207 to R209). -/
theorem loadUnaligned_of_read (merge : Nat → Word → Word → Word) (rt : RegIdx) {rs : RegIdx} {imm : BitVec 16} {s : State}
    {w : Word} {b : Bus} (hv : segmentViolation s.userMode (s.effAddr rs imm) = false)
    (hr : busReadWord s.cfg s.bus (alignWord (s.effAddr rs imm)) = .ok (w, b)) :
    ∃ t, loadUnaligned merge rt rs imm s = .next t ∧ t.bus = b ∧
      LoadsInto s t rt (merge (laneOf (s.effAddr rs imm)) (s.committed rt) w) .mem := by
  obtain ⟨t, ht, hl, hb⟩ := finishDelayed_loadsInto rt (merge (laneOf (s.effAddr rs imm)) (s.committed rt) w) .mem s b
    fun a => by rw [busReadWord_mem hr]
  refine ⟨t, ?_, hb, hl⟩
  rw [loadUnaligned, memReadUnaligned_pass hv, hr, State.mergeBase_eq]
  exact ht

/-- A store whose checks pass changes the bus by the byte-enabled write of 20_memory.md R96 and nothing else. -/
theorem store_of_write {sz : AccessSize} {rt rs : RegIdx} {imm : BitVec 16} {s : State} {b : Bus}
    (hv : segmentViolation s.userMode (s.effAddr rs imm) = false) (ha : (s.effAddr rs imm).toNat % sz.bytes = 0)
    (hw : memWriteBE s.cfg s.bus (alignWord (s.effAddr rs imm)) ((s.reg rt &&& sz.mask) <<< (8 * laneOf (s.effAddr rs imm)))
      (sz.enables <<< laneOf (s.effAddr rs imm)) = .ok b) :
    ∃ t, store sz rt rs imm s = .next t ∧ StoresToBus s t ∧ t.bus = b := by
  rw [store, memWrite_pass hv ha, hw]
  exact finishStore_ok b s

/-- SWL and SWR whose check passes change the bus by the byte-enabled write their table names and nothing else
(42_loadstore.md R214, R215). -/
theorem storeUnaligned_of_write {table : Nat → Word → Word × BitVec 4} {rt rs : RegIdx} {imm : BitVec 16} {s : State} {b : Bus}
    (hv : segmentViolation s.userMode (s.effAddr rs imm) = false)
    (hw : memWriteBE s.cfg s.bus (alignWord (s.effAddr rs imm)) (table (laneOf (s.effAddr rs imm)) (s.reg rt)).1
      (table (laneOf (s.effAddr rs imm)) (s.reg rt)).2 = .ok b) :
    ∃ t, storeUnaligned table rt rs imm s = .next t ∧ StoresToBus s t ∧ t.bus = b := by
  rw [storeUnaligned, memWriteUnaligned_pass hv, hw]
  exact finishStore_ok b s

/-- An access that is aligned to its width stays inside one word (20_memory.md R85). -/
theorem laneOf_add_bytes_le {a : Word} {sz : AccessSize} (ha : a.toNat % sz.bytes = 0) : laneOf a + sz.bytes ≤ 4 := by
  rw [laneOf_eq]
  cases sz <;> simp only [AccessSize.bytes] at * <;> omega

/-- A bus that differs in its memory at most has the same devices. -/
theorem SameDevices.of_bus {s t : State} {m : Memory} (h : t.bus = { s.bus with mem := m }) : SameDevices s t :=
  ⟨by rw [h], by rw [h], by rw [h]⟩

/-! ## Unaligned loads -/

/-- Settles O25: the merge tables, byte by byte, on the word of the region. -/
theorem unalignedLoads : Obligations.UnalignedLoads := by
  intro s rt rs imm r p hv ht k
  have hk : k < 4 := laneOf_lt _
  have hr := busReadWord_region (b := s.bus) ht
  constructor
  case left =>
    obtain ⟨t, hx, hb, hl⟩ := loadUnaligned_of_read lwlMerge rt hv hr
    refine ⟨t, _, hx, .of_bus hb, hl, fun j hj => ?_⟩
    refine (laneByte_lwlMerge _ _ hk hj).trans ?_
    split
    · exact laneByte_readWord _ _ _ (by omega)
    · rfl
  case right =>
    obtain ⟨t, hx, hb, hl⟩ := loadUnaligned_of_read lwrMerge rt hv hr
    refine ⟨t, _, hx, .of_bus hb, hl, fun j hj => ?_⟩
    refine (laneByte_lwrMerge _ _ hk hj).trans ?_
    split
    · exact laneByte_readWord _ _ _ (by omega)
    · rfl

/-! ## Loads from devices -/

/-- The low bits of the lanes of a byte read are the byte of the word (20_memory.md R73). -/
theorem lanes_byte_extract (w : Word) (k : Nat) : (lanes w k .byte).extractLsb' 0 8 = w.extractLsb' (8 * k) 8 := by
  apply BitVec.eq_of_getLsbD_eq
  intro i hi
  rw [lanes_byte]
  simp [laneByte, hi, show i < 32 by omega]

/-- The low bits of the lanes of a halfword read are the halfword of the word. -/
theorem lanes_half_extract (w : Word) (k : Nat) : (lanes w k .half).extractLsb' 0 16 = w.extractLsb' (8 * k) 16 := by
  apply BitVec.eq_of_getLsbD_eq
  intro i hi
  have hmask : AccessSize.half.mask.getLsbD i = true := by
    simp only [AccessSize.mask]
    interval_cases i <;> rfl
  simp [lanes, hi, hmask]

/-- Settles O28: every form reads the register's word once, and only a read of the DATA port has an effect. -/
theorem loadsFromDevices : Obligations.LoadsFromDevices := by
  refine ⟨?_, fun _ _ _ h => deviceRead_bus h⟩
  intro s rt rs imm reg hv ht k w b
  have hk : k < 4 := laneOf_lt _
  have hr : busReadWord s.cfg s.bus (alignWord (s.effAddr rs imm)) = .ok (w, b) := busReadWord_device ht
  have hbyte : (s.effAddr rs imm).toNat % AccessSize.byte.bytes = 0 := Nat.mod_one _
  refine ⟨?lb, ?lbu, fun ha => ⟨?lh, ?lhu⟩, fun ha => ?lw, ?lwl, ?lwr⟩
  case lb =>
    rw [← lanes_byte_extract]
    exact load_of_read sextByte rt hv hbyte hr
  case lbu =>
    rw [← lanes_byte_extract]
    exact load_of_read zextByte rt hv hbyte hr
  case lh =>
    rw [← lanes_half_extract]
    exact load_of_read (sz := .half) sextHalf rt hv ha hr
  case lhu =>
    rw [← lanes_half_extract]
    exact load_of_read (sz := .half) zextHalf rt hv ha hr
  case lw =>
    obtain ⟨t, hx, hb, hl⟩ := load_of_read (sz := .word) id rt hv ha hr
    rw [laneOf_eq, ha, lanes_word] at hl
    exact ⟨t, hx, hb, hl⟩
  case lwl =>
    obtain ⟨t, hx, hb, hl⟩ := loadUnaligned_of_read lwlMerge rt hv hr
    exact ⟨t, _, hx, hb, hl, fun j hj => laneByte_lwlMerge _ _ hk hj⟩
  case lwr =>
    obtain ⟨t, hx, hb, hl⟩ := loadUnaligned_of_read lwrMerge rt hv hr
    exact ⟨t, _, hx, hb, hl, fun j hj => laneByte_lwrMerge _ _ hk hj⟩

/-! ## Stores to memory -/

/-- A store of any width to a writable region leaves the low bytes of the register at the effective address, and every
other byte as before (42_loadstore.md R210, 20_memory.md R97). -/
theorem store_region {sz : AccessSize} (rt : RegIdx) {rs : RegIdx} {imm : BitVec 16} {s : State} {r : Region} {p : Nat}
    (hv : segmentViolation s.userMode (s.effAddr rs imm) = false) (ha : (s.effAddr rs imm).toNat % sz.bytes = 0)
    (ht : targetOf s.cfg (alignWord (s.effAddr rs imm)) = .region r p) (hr : r ≠ .rom) :
    let q := p + laneOf (s.effAddr rs imm)
    ∃ t, store sz rt rs imm s = .next t ∧ StoresToBus s t ∧ SameDevices s t ∧
      ∀ a, t.bus.mem.read a = if q ≤ a ∧ a < q + sz.bytes then laneByte (s.reg rt) (a - q) else s.bus.mem.read a := by
  obtain ⟨t, hx, hs, hb⟩ := store_of_write (rt := rt) hv ha (memWriteBE_region ht hr)
  refine ⟨t, hx, hs, .of_bus hb, fun a => ?_⟩
  rw [hb]
  exact read_writeLanes_access _ _ _ _ _ sz (laneOf_add_bytes_le ha)

/-- Settles O29. -/
theorem storesToMemory : Obligations.StoresToMemory := by
  intro s rt rs imm r p hv ht hr q stored
  exact ⟨store_region (sz := .byte) rt hv (Nat.mod_one _) ht hr, fun ha => store_region (sz := .half) rt hv ha ht hr,
    fun ha => store_region (sz := .word) rt hv ha ht hr⟩

/-- An unaligned store to a writable region leaves the enabled lanes of its table's word in the bytes of the aligned
word, and every other byte as before (20_memory.md R97). -/
theorem storeUnaligned_region (table : Nat → Word → Word × BitVec 4) (rt : RegIdx) {rs : RegIdx} {imm : BitVec 16}
    {s : State} {r : Region} {p : Nat} (hv : segmentViolation s.userMode (s.effAddr rs imm) = false)
    (ht : targetOf s.cfg (alignWord (s.effAddr rs imm)) = .region r p) (hr : r ≠ .rom) :
    let st := table (laneOf (s.effAddr rs imm)) (s.reg rt)
    ∃ t, storeUnaligned table rt rs imm s = .next t ∧ StoresToBus s t ∧ SameDevices s t ∧
      ∀ a, t.bus.mem.read a =
        if p ≤ a ∧ a < p + 4 ∧ st.2.getLsbD (a - p) = true then laneByte st.1 (a - p) else s.bus.mem.read a := by
  obtain ⟨t, hx, hs, hb⟩ := storeUnaligned_of_write (table := table) (rt := rt) hv (memWriteBE_region ht hr)
  refine ⟨t, hx, hs, .of_bus hb, fun a => ?_⟩
  rw [hb]
  exact Memory.read_writeLanes ..

/-- Settles O30: the enabled lanes of SWL are those up to the effective address, those of SWR the ones from it on. -/
theorem unalignedStores : Obligations.UnalignedStores := by
  intro s rt rs imm r p hv ht hr k
  have hk : k < 4 := laneOf_lt _
  constructor
  case left =>
    obtain ⟨t, hx, hs, hd, hm⟩ := storeUnaligned_region swlStore rt hv ht hr
    obtain ⟨hword, -, henables⟩ := swlStore_eq (s.reg rt) hk
    refine ⟨t, hx, hs, hd, fun a => (hm a).trans ?_⟩
    by_cases h : p ≤ a ∧ a ≤ p + k
    · rw [if_pos h, if_pos ⟨h.1, by omega, (henables _ (by omega)).mpr (by omega)⟩, hword, laneByte_ushiftRight]
      rfl
    · rw [if_neg h, if_neg]
      rintro ⟨h1, h2, h3⟩
      have := (henables _ (by omega)).mp h3
      omega
  case right =>
    obtain ⟨t, hx, hs, hd, hm⟩ := storeUnaligned_region swrStore rt hv ht hr
    obtain ⟨hword, -, henables⟩ := swrStore_eq (s.reg rt) hk
    refine ⟨t, hx, hs, hd, fun a => (hm a).trans ?_⟩
    by_cases h : p + k ≤ a ∧ a ≤ p + 3
    · rw [if_pos h, if_pos ⟨by omega, by omega, (henables _ (by omega)).mpr (by omega)⟩, hword,
        laneByte_shiftLeft _ _ _ (by omega) (by omega), Nat.sub_sub]
      rfl
    · rw [if_neg h, if_neg]
      rintro ⟨h1, h2, h3⟩
      have := (henables _ (by omega)).mp h3
      omega

/-! ## Stores to rom and to devices -/

/-- The bits a store of width `sz` at lane `k` touches (20_memory.md R93). -/
theorem byteMask_enables {sz : AccessSize} {k : Nat} (hk : k + sz.bytes ≤ 4) :
    byteMask (sz.enables <<< k) = sz.mask <<< (8 * k) := by
  cases sz <;> simp only [AccessSize.bytes] at hk
  case byte =>
    have : k < 4 := by omega
    interval_cases k <;> decide
  case half =>
    have : k < 3 := by omega
    interval_cases k <;> decide
  case word =>
    obtain rfl : k = 0 := by omega
    decide

/-- A store of any width to a device register applies its contract under the mask of the enabled bytes. -/
theorem store_device {sz : AccessSize} (rt : RegIdx) {rs : RegIdx} {imm : BitVec 16} {s : State} {reg : DeviceReg}
    (hv : segmentViolation s.userMode (s.effAddr rs imm) = false) (ha : (s.effAddr rs imm).toNat % sz.bytes = 0)
    (ht : targetOf s.cfg (alignWord (s.effAddr rs imm)) = .device reg) :
    let k := laneOf (s.effAddr rs imm)
    ∃ t, store sz rt rs imm s = .next t ∧ StoresToBus s t ∧
      t.bus = deviceWrite s.cfg s.bus reg ((s.reg rt &&& sz.mask) <<< (8 * k)) (sz.mask <<< (8 * k)) := by
  intro k
  rw [← byteMask_enables (laneOf_add_bytes_le ha)]
  exact store_of_write hv ha (memWriteBE_device ht)

/-- Settles O31. -/
theorem storesToRomAndDevices : Obligations.StoresToRomAndDevices := by
  intro s rt rs imm hv
  constructor
  case left =>
    intro p ht ignored
    have same : ∀ {answer : Result}, (∃ t, answer = .next t ∧ StoresToBus s t ∧ t.bus = s.bus) →
        ∃ t, answer = .next t ∧ StoresToBus s t ∧ SameDevices s t ∧ SameMemory s t := fun ⟨t, hx, hs, hb⟩ =>
      ⟨t, hx, hs, .of_bus hb, fun a => by rw [hb]⟩
    have aligned : ∀ sz : AccessSize, (s.effAddr rs imm).toNat % sz.bytes = 0 →
        ∃ t, store sz rt rs imm s = .next t ∧ StoresToBus s t ∧ t.bus = s.bus := fun _ ha =>
      store_of_write hv ha (memWriteBE_rom ht)
    have unaligned : ∀ table, ∃ t, storeUnaligned table rt rs imm s = .next t ∧ StoresToBus s t ∧ t.bus = s.bus :=
      fun _ => storeUnaligned_of_write hv (memWriteBE_rom ht)
    exact ⟨same (aligned .byte (Nat.mod_one _)), same (unaligned swlStore), same (unaligned swrStore),
      fun ha => same (aligned .half ha), fun ha => same (aligned .word ha)⟩
  case right =>
    intro reg ht k x writes
    have hk : k < 4 := laneOf_lt _
    refine ⟨store_device (sz := .byte) rt hv (Nat.mod_one _) ht, fun ha => store_device (sz := .half) rt hv ha ht,
      fun ha => ?sw, ?swl, ?swr⟩
    case sw =>
      obtain ⟨t, hx, hs, hb⟩ := store_device (sz := .word) rt hv ha ht
      have hword : s.reg rt &&& AccessSize.word.mask = s.reg rt := BitVec.and_allOnes
      rw [laneOf_eq, ha, hword, Nat.mul_zero, BitVec.shiftLeft_zero, BitVec.shiftLeft_zero] at hb
      exact ⟨t, hx, hs, hb⟩
    case swl =>
      obtain ⟨hword, hmask, -⟩ := swlStore_eq x hk
      show ∃ t, _ ∧ _ ∧ _
      rw [← hword, ← hmask]
      exact storeUnaligned_of_write (table := swlStore) hv (memWriteBE_device ht)
    case swr =>
      obtain ⟨hword, hmask, -⟩ := swrStore_eq x hk
      show ∃ t, _ ∧ _ ∧ _
      rw [← hword, ← hmask]
      exact storeUnaligned_of_write (table := swrStore) hv (memWriteBE_device ht)

/-! ## A store and the next fetch -/

/-- A word read of an aligned address of a region is the word there (20_memory.md R95). -/
theorem memRead_word {cfg : Config.Params} {user : Bool} {b : Bus} {a : Word} {r : Region} {p : Nat}
    (hv : segmentViolation user a = false) (ha : a.toNat % 4 = 0) (ht : targetOf cfg a = .region r p) :
    memRead cfg user b a .word = .ok (b.mem.readWord p, b) := by
  rw [memRead_pass (sz := .word) hv ha, alignWord_of_aligned ha, busReadWord_region ht, laneOf_eq, ha]
  exact congrArg (fun w => Except.ok (w, b)) (lanes_word _)

/-- The word of memory at `p` after SW there is the register (42_loadstore.md R213). -/
theorem sw_readWord {rt rs : RegIdx} {imm : BitVec 16} {s : State} {r : Region} {p : Nat}
    (hv : segmentViolation s.userMode (s.effAddr rs imm) = false) (ha : (s.effAddr rs imm).toNat % 4 = 0)
    (ht : targetOf s.cfg (s.effAddr rs imm) = .region r p) (hr : r ≠ .rom) :
    ∃ t, exec (.sw rt rs imm) s = .next t ∧ StoresToBus s t ∧ t.bus.mem.readWord p = s.reg rt := by
  rw [← alignWord_of_aligned ha] at ht
  obtain ⟨t, hx, hs, -, hm⟩ := store_region (sz := .word) rt hv ha ht hr
  rw [laneOf_eq, ha, Nat.add_zero] at hm
  refine ⟨t, hx, hs, ?_⟩
  simp only [Memory.readWord, hm, AccessSize.bytes]
  simpa using laneByte_append (s.reg rt)

/-- Settles O33: the fetch and the load read the word of the same physical address. -/
theorem storeIsSeenByTheNextFetch : Obligations.StoreIsSeenByTheNextFetch := by
  intro s rt rs imm r p a hv hea ht hr ha hva hta
  obtain ⟨t, hx, hs, hw⟩ := sw_readWord (rt := rt) hv hea ht hr
  have hu : t.userMode = s.userMode := congrArg (·.getLsbD 1) (hs.control.slots 12)
  rw [← hs.host.cfg] at hta
  rw [← hu] at hva
  exact ⟨t, hx, by rw [fetchWord_region hva ha hta, hw], by rw [memRead_word hva ha hta, hw]⟩

end Sys2Proof.Machine
end

section
/-! The address decoder of 20_memory.md section 3: the segments, the mask form of a region, the registers of the windows. -/

namespace Sys2Proof.Machine

variable {cfg : Config.Params}

/-! ## Segments -/

/-- A virtual address decodes as its physical address does (20_memory.md R79). -/
theorem targetOf_of_physOf {a : Word} {p : Nat} (h : physOf a = some p) : targetOf cfg a = targetOfPhys cfg p := by
  rw [targetOf, h]

/-- The addresses outside the three segments have no physical address (20_memory.md R79). -/
theorem physOf_eq_none {a : Word} : physOf a = none ↔
    (0x20000000 ≤ a.toNat ∧ a.toNat < 0x80000000) ∨ 0xC0000000 ≤ a.toNat := by
  have ha := a.isLt
  rw [Option.eq_none_iff_forall_ne_some]
  constructor
  · intro h
    by_contra hc
    rcases (by omega : a.toNat < 0x20000000 ∨ (0x80000000 ≤ a.toNat ∧ a.toNat < 0xA0000000) ∨
      (0xA0000000 ≤ a.toNat ∧ a.toNat < 0xC0000000)) with hu | hu | hu
    · exact h a.toNat (physOf_eq_some.mpr (by omega))
    · exact h (a.toNat - 0x80000000) (physOf_eq_some.mpr (by omega))
    · exact h (a.toNat - 0xA0000000) (physOf_eq_some.mpr (by omega))
  · intro h p hp
    have := physOf_eq_some.mp hp
    omega

/-- A physical address is reached through three segments (20_memory.md R79). -/
theorem targetOf_segments (cfg : Config.Params) {p : Nat} (hp : p < 0x20000000) :
    targetOf cfg (BitVec.ofNat 32 p) = targetOfPhys cfg p ∧
    targetOf cfg (BitVec.ofNat 32 (0x80000000 + p)) = targetOfPhys cfg p ∧
    targetOf cfg (BitVec.ofNat 32 (0xA0000000 + p)) = targetOfPhys cfg p := by
  refine ⟨targetOf_of_physOf ?_, targetOf_of_physOf ?_, targetOf_of_physOf ?_⟩ <;>
  · rw [physOf_eq_some, BitVec.toNat_ofNat]
    omega

/-! ## Regions -/

/-- Clearing the low `k` bits of a word rounds it down to a multiple of `2 ^ k`. -/
theorem and_not_mask_toNat (p : Word) (k : Nat) :
    (p &&& ~~~(BitVec.ofNat 32 (2 ^ k - 1))).toNat = p.toNat / 2 ^ k * 2 ^ k := by
  have h : p &&& ~~~(BitVec.ofNat 32 (2 ^ k - 1)) = (p >>> k) <<< k := by
    apply BitVec.eq_of_getLsbD_eq
    intro i hi
    simp only [BitVec.getLsbD_and, BitVec.getLsbD_not, BitVec.getLsbD_ofNat, Nat.testBit_two_pow_sub_one,
      BitVec.getLsbD_shiftLeft, BitVec.getLsbD_ushiftRight]
    by_cases hk : i < k
    · simp [hi, hk]
    · simp [hi, hk, show k + (i - k) = i by omega]
  have hle : p.toNat / 2 ^ k * 2 ^ k < 2 ^ 32 := Nat.lt_of_le_of_lt (Nat.div_mul_le_self _ _) p.isLt
  rw [h, BitVec.toNat_shiftLeft, BitVec.toNat_ushiftRight, Nat.shiftLeft_eq, Nat.shiftRight_eq_div_pow, Nat.mod_eq_of_lt hle]

/-- A region holds exactly the addresses whose bits above its size are those of its base (20_memory.md R80). -/
theorem regionOf_iff_masked (ok : ConfigOk cfg) (p : Word) (r : Region) : regionOf cfg p.toNat = some r ↔
    p &&& ~~~(BitVec.ofNat 32 (r.size cfg - 1)) = BitVec.ofNat 32 (r.base cfg) := by
  obtain ⟨k, -, hsize⟩ := ok.regionSize r
  have hpos : 0 < 2 ^ k := Nat.two_pow_pos k
  obtain ⟨m, hbase⟩ := Nat.dvd_of_mod_eq_zero (ok.regionBase r)
  have htop := ok.regionTop r
  rw [hsize] at hbase htop
  rw [regionOf_eq_some ok, hsize, BitVec.toNat_inj.symm, and_not_mask_toNat, BitVec.toNat_ofNat,
    Nat.mod_eq_of_lt (by omega), hbase, Nat.mul_comm (2 ^ k) m, Nat.mul_right_cancel_iff hpos, Nat.div_eq_iff hpos]
  omega

/-! ## Windows -/

/-- Every offset of a window decodes to its register (20_memory.md R82). -/
theorem targetOfPhys_window (ok : ConfigOk cfg) (w : Window) {off : Nat} (h : off < w.size) :
    targetOfPhys cfg (w.base cfg + off) = .device (w.regAt off) := by
  have hnone : regionOf cfg (w.base cfg + off) = none := by
    rw [regionOf_eq_none]
    intro r
    have := ok.windowsOutside w r
    unfold Apart at this
    omega
  rw [targetOfPhys, hnone]
  simp only [deviceRegOf_window ok w h]

/-- The registers of a DMA channel, byte by byte (60_exceptions.md R352). -/
theorem dmaRegAt_channel (n : ChanIdx) {k : Nat} (hk : k < 4) :
    dmaRegAt (16 * n.val + k) = .madr n ∧ dmaRegAt (16 * n.val + (4 + k)) = .bcr n ∧
    dmaRegAt (16 * n.val + (8 + k)) = .chcr n ∧ dmaRegAt (16 * n.val + (12 + k)) = .unimplemented := by
  revert n k
  decide

/-- The registers of the DMA controller after its channels, byte by byte (60_exceptions.md R352). -/
theorem dmaRegAt_global {k : Nat} (hk : k < 4) :
    dmaRegAt (0x80 + k) = .dpcr ∧ dmaRegAt (0x84 + k) = .dicr ∧ dmaRegAt (0x88 + k) = .dmaEn ∧
    dmaRegAt (0x8C + k) = .unimplemented := by
  revert k
  decide

/-- The registers of the interrupt controller and of the GPU, byte by byte (60_exceptions.md R340, R382). -/
theorem regAt_pair {k : Nat} (hk : k < 4) :
    Window.regAt .ic k = .iStat ∧ Window.regAt .ic (4 + k) = .iMask ∧
    Window.regAt .gpu k = .gpuCmd ∧ Window.regAt .gpu (4 + k) = .gpuData := by
  revert k
  decide

/-- Every byte of the interrupt controller's and the GPU's window decodes to its register. -/
theorem targetOfPhys_pairs (ok : ConfigOk cfg) {k : Nat} (hk : k < 4) :
    targetOfPhys cfg (cfg.icBase + k) = .device .iStat ∧ targetOfPhys cfg (cfg.icBase + 4 + k) = .device .iMask ∧
    targetOfPhys cfg (cfg.gpuBase + k) = .device .gpuCmd ∧ targetOfPhys cfg (cfg.gpuBase + 4 + k) = .device .gpuData := by
  obtain ⟨hstat, hmask, hcmd, hdata⟩ := regAt_pair hk
  have size : k < 8 ∧ 4 + k < 8 := by omega
  rw [← hstat, ← hmask, ← hcmd, ← hdata, Nat.add_assoc, Nat.add_assoc]
  exact ⟨targetOfPhys_window ok .ic size.1, targetOfPhys_window ok .ic size.2, targetOfPhys_window ok .gpu size.1,
    targetOfPhys_window ok .gpu size.2⟩

/-- Every byte of a channel's sixteen decodes to its register. -/
theorem targetOfPhys_channel (ok : ConfigOk cfg) (n : ChanIdx) {k : Nat} (hk : k < 4) :
    targetOfPhys cfg (cfg.dmaBase + 16 * n.val + k) = .device (.madr n) ∧
    targetOfPhys cfg (cfg.dmaBase + 16 * n.val + 4 + k) = .device (.bcr n) ∧
    targetOfPhys cfg (cfg.dmaBase + 16 * n.val + 8 + k) = .device (.chcr n) ∧
    targetOfPhys cfg (cfg.dmaBase + 16 * n.val + 12 + k) = .device .unimplemented := by
  have window : ∀ j, j < 16 → targetOfPhys cfg (cfg.dmaBase + (16 * n.val + j)) = .device (dmaRegAt (16 * n.val + j)) :=
    fun j hj => targetOfPhys_window ok .dma (show 16 * n.val + j < 0x90 by omega)
  obtain ⟨hmadr, hbcr, hchcr, hunused⟩ := dmaRegAt_channel n hk
  simp only [Nat.add_assoc]
  rw [← hmadr, ← hbcr, ← hchcr, ← hunused]
  exact ⟨window _ (by omega), window _ (by omega), window _ (by omega), window _ (by omega)⟩

/-- Every byte of the DMA window after the channels decodes to its register. -/
theorem targetOfPhys_dmaGlobal (ok : ConfigOk cfg) {k : Nat} (hk : k < 4) :
    targetOfPhys cfg (cfg.dmaBase + 0x80 + k) = .device .dpcr ∧
    targetOfPhys cfg (cfg.dmaBase + 0x84 + k) = .device .dicr ∧
    targetOfPhys cfg (cfg.dmaBase + 0x88 + k) = .device .dmaEn ∧
    targetOfPhys cfg (cfg.dmaBase + 0x8C + k) = .device .unimplemented := by
  have window : ∀ j, j < 0x90 → targetOfPhys cfg (cfg.dmaBase + j) = .device (dmaRegAt j) :=
    fun j hj => targetOfPhys_window ok .dma hj
  obtain ⟨hdpcr, hdicr, hen, hunused⟩ := dmaRegAt_global hk
  simp only [Nat.add_assoc]
  rw [← hdpcr, ← hdicr, ← hen, ← hunused]
  exact ⟨window _ (by omega), window _ (by omega), window _ (by omega), window _ (by omega)⟩

/-- An address lies in no window exactly when no window's range holds it. -/
theorem windowOf_eq_none {p : Nat} :
    windowOf cfg p = none ↔ ∀ w : Window, ¬(w.base cfg ≤ p ∧ p < w.base cfg + w.size) := by
  rw [windowOf, List.find?_eq_none]
  constructor
  · intro h w hw
    exact h w (by cases w <;> decide) ((Window.contains_iff w p).mpr hw)
  · intro h w _ hw
    exact h w ((Window.contains_iff w p).mp hw)

/-- An address of no region and no window is unmapped (20_memory.md R83). -/
theorem targetOfPhys_unmapped {p : Nat} (hr : regionOf cfg p = none) (hw : windowOf cfg p = none) :
    targetOfPhys cfg p = .unmapped := by
  simp [targetOfPhys, hr, deviceRegOf, hw]

/-- A register is found exactly at the addresses of the windows. -/
theorem deviceRegOf_isSome {p : Nat} :
    (deviceRegOf cfg p).isSome = true ↔ ∃ w : Window, w.base cfg ≤ p ∧ p < w.base cfg + w.size := by
  rw [deviceRegOf, Option.isSome_map, Option.isSome_iff_ne_none, Ne, windowOf_eq_none]
  push Not
  rfl

/-! ## The listed address map -/

/-- The ranges of the listed regions (the table of 20_memory.md R80). -/
theorem regionOf_defaults (budget p : Nat) (r : Region) : regionOf { tickBudget := budget } p = some r ↔
    r.base { tickBudget := budget } ≤ p ∧ p < r.base { tickBudget := budget } + r.size { tickBudget := budget } :=
  regionOf_eq_some (configOk_defaults budget)

/-- The ranges of the listed windows (the table of 20_memory.md R82). -/
theorem deviceRegOf_defaults (budget p : Nat) : (deviceRegOf { tickBudget := budget } p).isSome = true ↔
    (0x1F801070 ≤ p ∧ p ≤ 0x1F801077) ∨ (0x1F801080 ≤ p ∧ p ≤ 0x1F80110F) ∨ (0x1F801810 ≤ p ∧ p ≤ 0x1F801817) := by
  rw [deviceRegOf_isSome]
  simp only [defaults_window]
  constructor
  · rintro ⟨w, hw⟩
    cases w <;> simp only [Window.size, Config.icWindow, Config.dmaWindow, Config.gpuWindow] at hw <;> omega
  · rintro (h | h | h)
    · exact ⟨.ic, h.1, Nat.lt_succ_of_le h.2⟩
    · exact ⟨.dma, h.1, Nat.lt_succ_of_le h.2⟩
    · exact ⟨.gpu, h.1, Nat.lt_succ_of_le h.2⟩

/-- Settles O34. -/
theorem addressDecode : Obligations.AddressDecode := by
  refine ⟨fun cfg _ hp => targetOf_segments cfg hp, fun cfg a h => ?outside, fun cfg ok => ?coherent,
    fun _ _ _ _ => ⟨rfl, rfl⟩, fun budget p => ?listed⟩
  case outside => rw [targetOf, physOf_eq_none.mpr h]
  case coherent =>
    refine ⟨regionOf_iff_masked ok, fun p r h => targetOfPhys_region.mpr ⟨h, rfl⟩, fun k hk => ?_, fun p hr hi hd hg => ?_⟩
    · obtain ⟨hstat, hmask, hcmd, hdata⟩ := targetOfPhys_pairs ok hk
      obtain ⟨hdpcr, hdicr, hen, hunused⟩ := targetOfPhys_dmaGlobal ok hk
      exact ⟨hstat, hmask, fun n => targetOfPhys_channel ok n hk, hdpcr, hdicr, hen, hunused, hcmd, hdata⟩
    · refine targetOfPhys_unmapped hr (windowOf_eq_none.mpr fun w => ?_)
      cases w
      · exact hi
      · exact hd
      · exact hg
  case listed =>
    intro cfg
    refine ⟨?_, ?_, ?_, ?_, ?_, deviceRegOf_defaults budget p⟩ <;>
    · rw [regionOf_defaults, defaults_base, defaults_size]
      dsimp only
      omega

end Sys2Proof.Machine
end

section
/-! The plain device registers (20_memory.md R93, 60_exceptions.md R353 to R358): what a masked write leaves in each, and
what reads back. -/

namespace Sys2Proof.Machine

/-- The stored control word of a channel after a CHCR write, whether it starts the channel, stops it or does neither
(60_exceptions.md R354). -/
theorem writeChcr_chcr (d : Dma) (n : ChanIdx) (v : Word) : ((d.writeChcr n v).channel n).chcr = v &&& 0x00770703#32 := by
  simp only [Dma.writeChcr]
  split
  · split <;> simp [chcrMask]
  · simp [chcrMask]

/-- CHCR without its BUSY bit is the stored control word's bits (60_exceptions.md R354). -/
theorem Channel.chcrRead_and (c : Channel) : c.chcrRead &&& 0xFEFFFFFF#32 = c.chcr &&& 0xFEFFFFFF#32 := by
  have hbusy : (if c.st = .xfer then busyBit else 0#32) &&& 0xFEFFFFFF#32 = 0#32 := by split <;> rfl
  rw [Channel.chcrRead, BitVec.and_or_distrib_right, hbusy, BitVec.or_zero]

/-- DMAEN reads its one bit (60_exceptions.md R358). -/
theorem Dma.dmaEnRead_getLsbD_zero (d : Dma) : d.dmaEnRead.getLsbD 0 = d.enabled := by
  rw [Dma.dmaEnRead]
  cases d.enabled <;> rfl

/-- The word that has only bit 0 of `w`. -/
theorem ite_getLsbD_zero (w : Word) : (if w.getLsbD 0 then 1#32 else 0#32) = w &&& 1#32 := by
  apply BitVec.eq_of_getLsbD_eq
  intro i hi
  rw [BitVec.getLsbD_and]
  rcases Nat.eq_zero_or_pos i with rfl | hpos
  · cases w.getLsbD 0 <;> rfl
  · have hone : (1#32).getLsbD i = false := by simp [BitVec.getLsbD_one, hpos.ne']
    rw [hone, Bool.and_false]
    split
    · exact hone
    · exact BitVec.getLsbD_zero

/-- The enables and the master bit of DICR, where a read shows them (60_exceptions.md R356). -/
theorem Dma.dicrRead_getLsbD (d : Dma) {k : Nat} (h8 : 8 ≤ k) (h31 : k < 31) : d.dicrRead.getLsbD k =
    if k < 16 then d.en.getLsbD (k - 8) else decide (k = 16) && d.master := by
  simp only [Dma.dicrRead, BitVec.getLsbD_or, BitVec.getLsbD_shiftLeft, BitVec.getLsbD_setWidth]
  cases d.master <;> cases d.dicrAny <;> interval_cases k <;> simp [BitVec.getLsbD_of_ge]

/-- A full write to DICR sets the enables and the master bit to those of the word (60_exceptions.md R357). -/
theorem Dma.dicrRead_writeDicr (d : Dma) (w : Word) :
    (d.writeDicr w 0xFFFFFFFF#32).dicrRead &&& 0x7FFFFF00#32 = w &&& 0x0001FF00#32 := by
  apply BitVec.eq_of_getLsbD_eq
  intro k hk
  rw [BitVec.getLsbD_and, BitVec.getLsbD_and]
  by_cases h : 8 ≤ k ∧ k < 31
  · rw [Dma.dicrRead_getLsbD _ h.1 h.2]
    obtain ⟨h8, h31⟩ := h
    simp only [Dma.writeDicr, mergeMasked_full, BitVec.getLsbD_extractLsb']
    interval_cases k <;> simp
  · have : k < 8 ∨ k = 31 := by omega
    have hz : (0x7FFFFF00#32).getLsbD k = false ∧ (0x0001FF00#32).getLsbD k = false := by
      rcases this with h8 | rfl
      · interval_cases k <;> decide
      · decide
    rw [hz.1, hz.2, Bool.and_false, Bool.and_false]

/-- Settles O49. -/
theorem registerRoundTrip : Obligations.RegisterRoundTrip := by
  constructor
  case left =>
    intro cfg b n w back
    refine ⟨mergeMasked_full _ _, ?madr, ?bcr, mergeMasked_full _ _, ?chcr, ?dmaEn, Dma.dicrRead_writeDicr _ _⟩
    case madr => simp [back, deviceRead, deviceWrite]
    case bcr => simp [back, deviceRead, deviceWrite]
    case chcr =>
      simp only [back, deviceRead, deviceWrite, mergeMasked_full]
      rw [Channel.chcrRead_and, writeChcr_chcr, BitVec.and_assoc]
      rfl
    case dmaEn =>
      simp only [back, deviceRead, deviceWrite, mergeMasked_full]
      exact ite_getLsbD_zero w
  case right =>
    intro cfg b n w mask merged
    refine ⟨⟨_, rfl, fun k _ => mergeMasked_getLsbD _ _ _ _⟩, ⟨_, rfl, fun k _ => mergeMasked_getLsbD _ _ _ _⟩,
      ⟨_, rfl, fun k _ => mergeMasked_getLsbD _ _ _ _⟩, ?_⟩
    rw [deviceWrite, mergeMasked_getLsbD, Dma.dmaEnRead_getLsbD_zero]

end Sys2Proof.Machine
end

section
/-! The DMA step (60_exceptions.md R362 to R370): what the turn of one channel leaves of the controllers, then the turns of
a list of different channels by induction over the list, then the word one turn moves. -/

namespace Sys2Proof.Machine

variable {cfg : Config.Params}

/-! ## The order of a DMA step -/

/-- The channels a DMA step visits are the transferring ones (60_exceptions.md R362). -/
theorem Dma.mem_order {d : Dma} {n : ChanIdx} : n ∈ d.order ↔ (d.channel n).st = .xfer := by
  have hprio : d.prio n < 8 := (d.dpcr.extractLsb' (4 * n.val) 3).isLt
  have hall : ∀ m : ChanIdx, m ∈ allChannels := by decide
  simp [Dma.order, hall, hprio]

/-- A DMA step visits no channel twice (60_exceptions.md R364). -/
theorem Dma.order_nodup (d : Dma) : d.order.Nodup := by
  rw [Dma.order, List.nodup_flatMap]
  refine ⟨fun p _ => List.Nodup.filter _ (by decide), List.nodup_range.imp fun hne => ?_⟩
  intro n hm hn
  simp only [List.mem_filter, Bool.and_eq_true, beq_iff_eq] at hm hn
  obtain ⟨-, -, hp⟩ := hm
  obtain ⟨-, -, hq⟩ := hn
  exact hne (hp.symm.trans hq)

/-! ## One turn of a channel -/

/-- What its turn leaves of a channel: the cursor and the length after one word, if there is one left, and the state
idle if none is left after it (60_exceptions.md R362). -/
def Channel.turn (c : Channel) : Channel :=
  let moved := if c.len = 0#32 then c else c.advance
  if c.len.toNat ≤ 1 then { moved with st := .idle } else moved

/-- A turn leaves the registers of its channel. -/
theorem Channel.turn_registers (c : Channel) : c.turn.madr = c.madr ∧ c.turn.bcr = c.bcr ∧ c.turn.chcr = c.chcr := by
  simp only [Channel.turn]
  split <;> split <;> exact ⟨rfl, rfl, rfl⟩

/-- The state after a turn. -/
theorem Channel.turn_st (c : Channel) : c.turn.st = if c.len.toNat ≤ 1 then .idle else c.st := by
  simp only [Channel.turn]
  split <;> split <;> rfl

/-- A turn with nothing left moves nothing. -/
theorem Channel.turn_of_zero {c : Channel} (h : c.len = 0#32) : c.turn.cur = c.cur ∧ c.turn.len = 0#32 := by
  simp [Channel.turn, h]

/-- A turn with words left moves the cursor and counts one word. -/
theorem Channel.turn_of_ne_zero {c : Channel} (h : c.len ≠ 0#32) : c.turn.len = c.len - 1#32 ∧
    c.turn.cur = if c.chcr.getLsbD 1 then c.cur - 4#32 else c.cur + 4#32 := by
  simp only [Channel.turn, if_neg h]
  split <;> exact ⟨rfl, rfl⟩

/-- The bits of the interrupt status after a source is raised (60_exceptions.md R342). -/
theorem Ic.raiseSource_getLsbD (ic : Ic) (k : Nat) {j : Nat} (hj : j < 32) :
    (ic.raiseSource k).iStat.getLsbD j = (ic.iStat.getLsbD j || decide (j = k)) := by
  simp only [Ic.raiseSource, BitVec.getLsbD_or, BitVec.getLsbD_shiftLeft, BitVec.getLsbD_one]
  congr 1
  rw [show decide (j < 32) = true from decide_eq_true hj, Bool.true_and, Bool.eq_iff_iff]
  simp only [Bool.and_eq_true, Bool.not_eq_true', decide_eq_false_iff_not, decide_eq_true_eq]
  omega

/-- What the turns of the channels in `l` leave of the two controllers, from `b` to `b'` (60_exceptions.md R362, R365). -/
structure Turns (cfg : Config.Params) (l : List ChanIdx) (b b' : Bus) : Prop where
  chan : ∀ n, b'.dma.channel n = if n ∈ l then (b.dma.channel n).turn else b.dma.channel n
  flag : ∀ n : ChanIdx, b'.dma.flag.getLsbD n.val =
    (b.dma.flag.getLsbD n.val || decide (n ∈ l ∧ (b.dma.channel n).len.toNat ≤ 1))
  dpcr : b'.dma.dpcr = b.dma.dpcr
  en : b'.dma.en = b.dma.en
  master : b'.dma.master = b.dma.master
  enabled : b'.dma.enabled = b.dma.enabled
  iMask : b'.ic.iMask = b.ic.iMask
  iStat : ∀ j, j < 32 → (b'.ic.iStat.getLsbD j = true ↔ b.ic.iStat.getLsbD j = true ∨
    (j = cfg.irqDma ∧ b.dma.master = true ∧
      ∃ n ∈ l, (b.dma.channel n).len.toNat ≤ 1 ∧ b.dma.en.getLsbD n.val = true))

/-- The bus after channel `n` has moved its word, if it has one left, and before it completes. -/
def Bus.moved (cfg : Config.Params) (b : Bus) (n : ChanIdx) : Bus :=
  if (b.dma.channel n).len = 0#32 then b
  else { moveWord cfg b n (b.dma.channel n) with dma := b.dma.setChannel n (b.dma.channel n).advance }

/-- A turn moves a word if there is one left, and completes the channel if there is none left after it. -/
theorem stepChannel_eq (cfg : Config.Params) (b : Bus) (n : ChanIdx) : stepChannel cfg b n =
    if (b.dma.channel n).len.toNat ≤ 1 then completeChannel cfg (b.moved cfg n) n else b.moved cfg n := by
  rcases stepChannel_cases cfg b n with ⟨h, hs⟩ | ⟨b', rfl, h, ⟨h1, hs⟩ | ⟨h1, hs⟩⟩
  · rw [hs, Bus.moved, if_pos h, if_pos (by bv_omega)]
  · rw [hs, Bus.moved, if_neg h, if_pos (by bv_omega)]
  · rw [hs, Bus.moved, if_neg h, if_neg (by bv_omega)]

/-- Moving a word touches neither the interrupt controller nor the DMA controller's own settings. -/
theorem Bus.moved_controllers (cfg : Config.Params) (b : Bus) (n : ChanIdx) : (b.moved cfg n).ic = b.ic ∧
    (b.moved cfg n).dma.flag = b.dma.flag ∧ (b.moved cfg n).dma.en = b.dma.en ∧
    (b.moved cfg n).dma.master = b.dma.master := by
  rw [Bus.moved]
  split
  · exact ⟨rfl, rfl, rfl, rfl⟩
  · exact ⟨(moveWord_devices cfg b n _).2, rfl, rfl, rfl⟩

theorem Bus.moved_channel (cfg : Config.Params) (b : Bus) (n : ChanIdx) : (b.moved cfg n).dma.channel n =
    if (b.dma.channel n).len = 0#32 then b.dma.channel n else (b.dma.channel n).advance := by
  rw [Bus.moved]
  split
  · rfl
  · rw [Dma.channel_setChannel, if_pos rfl]

/-- A completion leaves its channel idle. -/
theorem completeChannel_channel (b : Bus) (n : ChanIdx) :
    (completeChannel cfg b n).dma.channel n = { b.dma.channel n with st := .idle } := by
  show (b.dma.setChannel n _).channel n = _
  rw [Dma.channel_setChannel, if_pos rfl]

theorem completeChannel_ic (b : Bus) (n : ChanIdx) : (completeChannel cfg b n).ic =
    if b.dma.en.getLsbD n.val && b.dma.master then b.ic.raiseSource cfg.irqDma else b.ic := rfl

/-- A completion raises the DMA source exactly if the channel and the controller have interrupts enabled
(60_exceptions.md R365). -/
theorem completeChannel_iStat (b : Bus) (n : ChanIdx) {j : Nat} (hj : j < 32) :
    (completeChannel cfg b n).ic.iStat.getLsbD j = true ↔ b.ic.iStat.getLsbD j = true ∨
      (j = cfg.irqDma ∧ b.dma.master = true ∧ b.dma.en.getLsbD n.val = true) := by
  rw [completeChannel_ic]
  by_cases h : b.dma.en.getLsbD n.val = true ∧ b.dma.master = true
  · rw [if_pos (by rw [h.1, h.2]; rfl), Ic.raiseSource_getLsbD _ _ hj]
    simp [h]
  · rw [if_neg (by rwa [Bool.and_eq_true])]
    exact ⟨.inl, fun hor => hor.resolve_right fun c => h ⟨c.2.2, c.2.1⟩⟩

/-- The turn of one channel. -/
theorem Turns.single (cfg : Config.Params) (b : Bus) (n : ChanIdx) : Turns cfg [n] b (stepChannel cfg b n) := by
  obtain ⟨hother, hdpcr, hen, hmaster, henabled, hmask⟩ := stepChannel_dma cfg b n
  obtain ⟨mic, mflag, men, mmaster⟩ := b.moved_controllers cfg n
  refine ⟨fun m => ?chan, fun m => ?flag, hdpcr, hen, hmaster, henabled, hmask, fun j hj => ?iStat⟩
  case chan =>
    by_cases hm : m = n
    · subst hm
      rw [if_pos (List.mem_singleton.mpr rfl), stepChannel_eq, Channel.turn]
      split
      · rw [completeChannel_channel, Bus.moved_channel]
      · rw [Bus.moved_channel]
    · rw [if_neg (mt List.mem_singleton.mp hm), hother m hm]
  case flag =>
    rw [stepChannel_eq]
    split
    · rename_i h
      refine (flag_completed _ n m).trans ?_
      by_cases hm : m = n
      · subst hm
        simp [h]
      · simp [hm, mflag]
    · rename_i h
      rw [mflag]
      by_cases hm : m = n
      · subst hm
        simp [h]
      · simp [hm]
  case iStat =>
    rw [stepChannel_eq]
    split
    · rename_i h
      rw [completeChannel_iStat _ _ hj, mic, men, mmaster]
      simp [h]
    · rename_i h
      rw [mic]
      simp [h]

/-- The turns of two disjoint lists of channels, one after the other. -/
theorem Turns.cons {n : ChanIdx} {l : List ChanIdx} {b b₁ b₂ : Bus} (hn : n ∉ l) (h₁ : Turns cfg [n] b b₁)
    (h₂ : Turns cfg l b₁ b₂) : Turns cfg (n :: l) b b₂ := by
  have same : ∀ m ∈ l, b₁.dma.channel m = b.dma.channel m := by
    intro m hm
    have hne : m ≠ n := fun c => hn (c ▸ hm)
    rw [h₁.chan, if_neg (mt List.mem_singleton.mp hne)]
  refine ⟨fun m => ?chan, fun m => ?flag, h₂.dpcr.trans h₁.dpcr, h₂.en.trans h₁.en, h₂.master.trans h₁.master,
    h₂.enabled.trans h₁.enabled, h₂.iMask.trans h₁.iMask, fun j hj => ?iStat⟩
  case chan =>
    rw [h₂.chan]
    by_cases hm : m ∈ l
    · rw [if_pos hm, if_pos (List.mem_cons_of_mem n hm), same m hm]
    · simp [h₁.chan, hm]
  case flag =>
    rw [h₂.flag, h₁.flag]
    by_cases hm : m ∈ l
    · have hne : m ≠ n := fun c => hn (c ▸ hm)
      simp [hm, hne, same m hm]
    · simp [hm]
  case iStat =>
    have later : (∃ m ∈ l, (b₁.dma.channel m).len.toNat ≤ 1 ∧ b.dma.en.getLsbD m.val = true) ↔
        ∃ m ∈ l, (b.dma.channel m).len.toNat ≤ 1 ∧ b.dma.en.getLsbD m.val = true :=
      exists_congr fun m => and_congr_right fun hm => by rw [same m hm]
    rw [h₂.iStat j hj, h₁.iStat j hj, h₁.master, h₁.en, later]
    simp only [List.exists_mem_cons_iff, List.not_mem_nil, false_and, exists_false, or_false, and_or_left, or_assoc]

/-- The turns of a list of different channels (60_exceptions.md R362). -/
theorem Turns.foldl (cfg : Config.Params) {l : List ChanIdx} (hl : l.Nodup) (b : Bus) :
    Turns cfg l b (l.foldl (stepChannel cfg) b) := by
  induction l generalizing b with
  | nil => exact ⟨fun _ => by simp, fun _ => by simp, rfl, rfl, rfl, rfl, rfl, fun _ _ => by simp⟩
  | cons n l ih =>
    obtain ⟨hn, hl⟩ := List.nodup_cons.mp hl
    exact .cons hn (.single cfg b n) (ih hl _)

/-- The channels of the list are as their turns leave them, with their flag set if nothing is left. -/
theorem Turns.visited {l : List ChanIdx} {b b' : Bus} {n : ChanIdx} (h : Turns cfg l b b') (hn : n ∈ l) :
    b'.dma.channel n = (b.dma.channel n).turn ∧
    b'.dma.flag.getLsbD n.val = (b.dma.flag.getLsbD n.val || decide ((b.dma.channel n).len.toNat ≤ 1)) := by
  rw [h.chan, h.flag, if_pos hn]
  simp [hn]

/-- The other channels are as they were. -/
theorem Turns.skipped {l : List ChanIdx} {b b' : Bus} {n : ChanIdx} (h : Turns cfg l b b') (hn : n ∉ l) :
    b'.dma.channel n = b.dma.channel n ∧ b'.dma.flag.getLsbD n.val = b.dma.flag.getLsbD n.val := by
  rw [h.chan, h.flag, if_neg hn]
  simp [hn]

/-! ## The word a turn moves -/

/-- The physical address of a cursor, as a number (20_memory.md R107). -/
theorem dmaAddr_eq (c : Word) : dmaAddr c = c.toNat % 0x20000000 / 4 * 4 := by
  have h : c &&& 0x1FFFFFFC#32 = alignWord (c &&& 0x1FFFFFFF#32) := (BitVec.and_assoc c 0x1FFFFFFF#32 0xFFFFFFFC#32).symm
  rw [dmaAddr, h, alignWord_toNat, BitVec.toNat_and]
  exact congrArg (· / 4 * 4) (Nat.and_two_pow_sub_one_eq_mod c.toNat 29)

/-- The word at a cursor: 0 outside the regions (20_memory.md R107). -/
theorem dmaRead_eq (m : Memory) (c : Word) :
    dmaRead cfg m c = if regionOf cfg (dmaAddr c) = none then 0#32 else m.readWord (dmaAddr c) := by
  rw [dmaRead]
  rcases regionOf cfg (dmaAddr c) with _ | r <;> rfl

/-- A turn changes memory and the GPU as its moved word does, and not at all if there is no word left. -/
theorem stepChannel_memory (cfg : Config.Params) (b : Bus) (n : ChanIdx) :
    let moved := if (b.dma.channel n).len = 0#32 then b else moveWord cfg b n (b.dma.channel n)
    (stepChannel cfg b n).mem = moved.mem ∧ (stepChannel cfg b n).gpu = moved.gpu := by
  intro moved
  have hmoved : (b.moved cfg n).mem = moved.mem ∧ (b.moved cfg n).gpu = moved.gpu := by
    simp only [Bus.moved, moved]
    split <;> exact ⟨rfl, rfl⟩
  rw [stepChannel_eq]
  split <;> exact hmoved

/-- The word a channel's port gives, and the bus after it (60_exceptions.md R366 to R368). -/
theorem portRead_eq (b : Bus) (n : ChanIdx) : portRead cfg b n =
    (if n = 2 then (b.gpu.dataRead cfg b.mem).1 else 0#32,
      { b with gpu := if n = 2 then (b.gpu.dataRead cfg b.mem).2 else b.gpu }) := by
  by_cases h : n = 2
  · subst h
    rfl
  · rw [if_neg h, if_neg h]
    exact if_neg h

/-- A word written to a stub port is dropped (60_exceptions.md R368). -/
theorem portWrite_stub (b : Bus) {n : ChanIdx} (w : Word) (h : n ≠ 2) : portWrite cfg b n w = b := if_neg h

/-- A word moved to a port goes to the GPU on channel 2 and is dropped on the others (60_exceptions.md R363, R366). -/
theorem moveWord_toPort {b : Bus} {c : Channel} (n : ChanIdx) (hdir : c.chcr.getLsbD 0 = true) :
    moveWord cfg b n c = portWrite cfg b n (dmaRead cfg b.mem c.cur) := by
  rw [moveWord, if_pos hdir]

/-- A word moved from a port is stored at the cursor (60_exceptions.md R363). -/
theorem moveWord_fromPort {b : Bus} {c : Channel} (n : ChanIdx) (hdir : c.chcr.getLsbD 0 = false) :
    (moveWord cfg b n c).gpu = (if n = 2 then (b.gpu.dataRead cfg b.mem).2 else b.gpu) ∧
    (moveWord cfg b n c).mem =
      dmaWrite cfg b.mem c.cur (if n = 2 then (b.gpu.dataRead cfg b.mem).1 else 0#32) := by
  rw [moveWord, if_neg (by rw [hdir]; decide), portRead_eq]
  exact ⟨rfl, rfl⟩

/-! ## The whole DMA step -/

/-- With the latch on, a step is the turns of the transferring channels in their order (60_exceptions.md R362). -/
theorem dmaStep_enabled {b : Bus} (h : b.dma.enabled = true) :
    dmaStep cfg b = b.dma.order.foldl (stepChannel cfg) b ∧ Turns cfg b.dma.order b (dmaStep cfg b) := by
  have hfold : dmaStep cfg b = b.dma.order.foldl (stepChannel cfg) b := by rw [dmaStep, if_pos h]
  exact ⟨hfold, hfold ▸ .foldl cfg b.dma.order_nodup b⟩

/-- Settles O52: the first two parts are the turns of all transferring channels, the third is the word of one turn. -/
theorem dmaStepAdvancesEveryChannel : Obligations.DmaStepAdvancesEveryChannel := by
  refine ⟨fun cfg b h => ?off, fun cfg b h => ?on, fun cfg b n ok => ?word⟩
  case off => rw [dmaStep, h]; rfl
  case on =>
    obtain ⟨hfold, turns⟩ := dmaStep_enabled (cfg := cfg) h
    refine ⟨hfold, ?_⟩
    intro b' completes
    refine ⟨fun n => ?channel, turns.dpcr, turns.en, turns.master, turns.enabled.trans h, turns.iMask, fun j hj => ?iStat⟩
    case iStat =>
      rw [turns.iStat j hj]
      simp only [Dma.mem_order, completes, and_assoc]
    case channel =>
      rcases hst : (b.dma.channel n).st with _ | _
      case idle =>
        obtain ⟨hchan, hflag⟩ := turns.skipped (n := n) (by rw [Dma.mem_order, hst]; decide)
        have hc : ¬completes n := fun h => nomatch hst.symm.trans h.1
        rw [hchan, hflag, hst]
        exact ⟨rfl, rfl, rfl, fun _ => rfl, nofun, nofun, fun h => absurd h hc, fun _ => ⟨rfl, rfl⟩⟩
      case xfer =>
        obtain ⟨hchan, hflag⟩ := turns.visited (Dma.mem_order.mpr hst)
        obtain ⟨hmadr, hbcr, hchcr⟩ := (b.dma.channel n).turn_registers
        have hc : completes n ↔ (b.dma.channel n).len.toNat ≤ 1 := by simp only [completes, hst, true_and]
        rw [hc, hchan, hflag, Channel.turn_st, hst]
        exact ⟨hmadr, hbcr, hchcr, nofun, fun _ hz => Channel.turn_of_zero hz, fun _ hz => Channel.turn_of_ne_zero hz,
          fun hle => by simp [hle], fun hle => by simp [hle]⟩
  case word =>
    intro c b' p
    have hp : dmaAddr c.cur = p := dmaAddr_eq c.cur
    obtain ⟨hmem, hgpu⟩ := stepChannel_memory cfg b n
    refine ⟨fun hlen => ?none, fun hlen hdir => ⟨fun hn => ?toGpu, fun hn => ?toStub⟩, fun hlen hdir => ?fromPort⟩
    case none =>
      rw [if_pos hlen] at hmem hgpu
      exact ⟨hmem, hgpu⟩
    case toGpu =>
      subst hn
      rw [if_neg hlen, moveWord_toPort _ hdir, dmaRead_eq, hp] at hmem hgpu
      exact Prod.ext hgpu hmem
    case toStub =>
      rw [if_neg hlen, moveWord_toPort _ hdir, portWrite_stub _ _ hn] at hmem hgpu
      exact ⟨hgpu, hmem⟩
    case fromPort =>
      obtain ⟨mgpu, mmem⟩ := moveWord_fromPort (cfg := cfg) (b := b) n hdir
      rw [if_neg hlen] at hmem hgpu
      refine ⟨hgpu.trans mgpu, fun a => ?_⟩
      rw [hmem, mmem, read_dmaWrite ok, hp]
      rfl

end Sys2Proof.Machine
end

section
/-! The encoding of 30_encoding.md: the decoder gives back every instruction from its word, answers each word with the
instruction whose word it is or with the reason why it is reserved, and accepts exactly the rows of the match/mask
table. Then what a reserved word does in a cycle. -/

namespace Sys2Proof

/-! ## The maps below the primary opcode (R131) -/

theorem decode_special {w : Word} (h : opField w = 0x00#6) : decode w = decodeSpecial w := by
  rw [decode, h]
  rfl

theorem decode_regimm {w : Word} (h : opField w = 0x01#6) : decode w = decodeRegimm w := by
  rw [decode, h]
  rfl

theorem decode_cop0 {w : Word} (h : opField w = 0x10#6) : decode w = decodeCop0 w := by
  rw [decode, h]
  rfl

/-! ## From an instruction to its word and back -/

/-- Settles O1, format by format: the fields of the word select the instruction's arm and are its operands. -/
theorem decodeInvertsEncode : Obligations.DecodeInvertsEncode := by
  intro i
  cases i
  case syscall | brk =>
    rw [encode, decode_special (codeWord_fields ..).1, decodeSpecial, (codeWord_fields ..).2.2]
    simp only [codeWord_fields]
  case bltz | bgez | bltzal | bgezal =>
    rw [encode, decode_regimm (iWord_fields ..).1, decodeRegimm, iWord_rt]
    simp only [iWord_fields]
    rfl
  case j | jal | cop1 | cop2 | cop3 | lwc1 | lwc2 | lwc3 | swc1 | swc2 | swc3 =>
    rw [encode, decode, (jWord_fields ..).1]
    simp only [jWord_fields]
  case beq | bne | blez | bgtz | addi | addiu | slti | sltiu | andi | ori | xori | lui | lb | lh | lwl | lw | lbu | lhu
      | lwr | sb | sh | swl | sw | swr =>
    rw [encode, decode, (iWord_fields ..).1]
    simp [iWord_fields, strict]
  case mfc0 | mtc0 =>
    rw [encode, decode_cop0 (copWord_fields ..).1, decodeCop0, (copWord_fields ..).2.1]
    simp [copWord_fields]
  case rfe => rfl
  case sll | srl | sra | sllv | srlv | srav | jr | jalr | mfhi | mthi | mflo | mtlo | mult | multu | div | divu | add
      | addu | sub | subu | and | or | xor | nor | slt | sltu =>
    rw [encode, decode_special (rWord_fields ..).1, decodeSpecial, (rWord_fields ..).2.2.2.2.2]
    simp [rWord_fields, strict]

/-! ## A word from its fields (R121 to R124) -/

section
open BitVec (extractLsb'_append_extractLsb'_eq_extractLsb')

theorem rWord_eq {w : Word} {rs rt rd : RegIdx} {sh : BitVec 5} {f : BitVec 6} (hop : opField w = 0x00#6)
    (hrs : rsField w = rs) (hrt : rtField w = rt) (hrd : rdField w = rd) (hsh : shamtField w = sh)
    (hf : functField w = f) : rWord rs rt rd sh f = w := by
  subst hrs hrt hrd hsh hf
  rw [rWord, ← hop]
  simp only [opField, rsField, rtField, rdField, shamtField, functField, regBits_toFin,
    extractLsb'_append_extractLsb'_eq_extractLsb']
  exact extractLsb'_all w

theorem iWord_eq {w : Word} {op : BitVec 6} {rs rt : RegIdx} {imm : BitVec 16} (hop : opField w = op)
    (hrs : rsField w = rs) (hrt : rtField w = rt) (himm : immField w = imm) : iWord op rs rt imm = w := by
  subst hop hrs hrt himm
  simp only [iWord, opField, rsField, rtField, immField, regBits_toFin, extractLsb'_append_extractLsb'_eq_extractLsb']
  exact extractLsb'_all w

theorem jWord_eq {w : Word} {op : BitVec 6} (hop : opField w = op) : jWord op (targetField w) = w := by
  subst hop
  simp only [jWord, opField, targetField, extractLsb'_append_extractLsb'_eq_extractLsb']
  exact extractLsb'_all w

theorem codeWord_eq {w : Word} {f : BitVec 6} (hop : opField w = 0x00#6) (hf : functField w = f) :
    codeWord (codeField w) f = w := by
  subst hf
  rw [codeWord, ← hop]
  simp only [opField, codeField, functField, extractLsb'_append_extractLsb'_eq_extractLsb']
  exact extractLsb'_all w

theorem copWord_eq {w : Word} {sub : BitVec 5} (hop : opField w = 0x10#6) (hsub : w.extractLsb' 21 5 = sub)
    (hlow : w.extractLsb' 0 11 = 0#11) : copWord sub (rtField w) (rdField w) = w := by
  subst hsub
  rw [copWord, ← hop, ← hlow]
  simp only [opField, rtField, rdField, regBits_toFin, extractLsb'_append_extractLsb'_eq_extractLsb']
  exact extractLsb'_all w

theorem encode_rfe_eq {w : Word} (hop : opField w = 0x10#6) (hsub : w.extractLsb' 21 5 = 0x10#5)
    (hlow : w.extractLsb' 0 21 = 0x10#21) : encode .rfe = w := by
  have parts : opField w ++ w.extractLsb' 21 5 ++ w.extractLsb' 0 21 = w := by
    simp only [opField, extractLsb'_append_extractLsb'_eq_extractLsb']
    exact extractLsb'_all w
  rw [← parts, hop, hsub, hlow]
  rfl

end

/-! ## What the decoder answers -/

/-- What the decoder may say of a word: an instruction whose word it is, or why it is reserved, by `reservedCop0`
exactly if its opcode is 0x10 (R135, 44_coprocessor_system.md R254). -/
def Answers (w : Word) : Except DecodeError Instr → Prop
  | .ok i => encode i = w
  | .error e => e = .reservedCop0 ↔ opField w = 0x10#6

/-- An arm with must-be-zero fields (R135). -/
theorem Answers.strict {w : Word} {zero : Bool} {i : Instr} (hop : opField w ≠ 0x10#6)
    (h : zero = true → encode i = w) : Answers w (strict zero i) := by
  cases zero with
  | true => exact h rfl
  | false => exact ⟨nofun, fun c => absurd c hop⟩

/-- The SPECIAL map (R132): an arm is in the R format with the fields it does not read 0, or in that of SYSCALL. -/
theorem decodeSpecial_answers {w : Word} (hop : opField w = 0x00#6) : Answers w (decodeSpecial w) := by
  have hne : opField w ≠ 0x10#6 := by rw [hop]; decide
  unfold decodeSpecial
  split
  case h_9 hf | h_10 hf => exact codeWord_eq hop hf
  case h_29 => exact ⟨nofun, fun c => absurd c hne⟩
  all_goals
    rename_i hf
    refine .strict hne fun hz => ?_
    simp only [Bool.and_eq_true, beq_iff_eq] at hz
    apply rWord_eq hop <;> simp only [hz, hf]

/-- The REGIMM map (R133): the `rt` field selects the arm. -/
theorem decodeRegimm_answers {w : Word} (hop : opField w = 0x01#6) : Answers w (decodeRegimm w) := by
  have hne : opField w ≠ 0x10#6 := by rw [hop]; decide
  unfold decodeRegimm
  split
  case h_5 => exact ⟨nofun, fun c => absurd c hne⟩
  all_goals exact iWord_eq hop rfl (congrArg BitVec.toFin ‹_›) rfl

/-- The COP0 map (R133): it has one reason for every word it does not accept. -/
theorem decodeCop0_answers {w : Word} (hop : opField w = 0x10#6) : Answers w (decodeCop0 w) := by
  have reserved : Answers w (.error .reservedCop0) := iff_of_true rfl hop
  unfold decodeCop0
  split
  case h_1 hsub | h_2 hsub =>
    split
    case isTrue hlow => exact copWord_eq hop hsub (beq_iff_eq.mp hlow)
    case isFalse => exact reserved
  case h_3 hsub =>
    split
    case isTrue hlow => exact encode_rfe_eq hop hsub (beq_iff_eq.mp hlow)
    case isFalse => exact reserved
  case h_4 => exact reserved

/-- The primary opcode map (R131), its arms by their place in it: the other maps, the reserved opcodes, BLEZ and BGTZ and
LUI with a must-be-zero field, the rows with one 26-bit field, and the rest in the I format. -/
theorem decode_answers (w : Word) : Answers w (decode w) := by
  by_cases hc : opField w = 0x10#6
  · rw [decode_cop0 hc]
    exact decodeCop0_answers hc
  unfold decode
  split
  case h_1 hop => exact decodeSpecial_answers hop
  case h_2 hop => exact decodeRegimm_answers hop
  case h_17 hop => exact absurd hop hc
  case h_39 => exact ⟨nofun, fun c => absurd c hc⟩
  case h_7 hop | h_8 hop => exact .strict hc fun hz => iWord_eq hop rfl (beq_iff_eq.mp hz) rfl
  case h_16 hop => exact .strict hc fun hz => iWord_eq hop (beq_iff_eq.mp hz) rfl rfl
  case h_3 hop | h_4 hop | h_18 hop | h_19 hop | h_20 hop | h_33 hop | h_34 hop | h_35 hop | h_36 hop | h_37 hop
      | h_38 hop =>
    exact jWord_eq hop
  all_goals exact iWord_eq ‹_› rfl rfl rfl

/-- Settles O2: an accepted word is rebuilt from the fields its arm reads. -/
theorem encodeInvertsDecode : Obligations.EncodeInvertsDecode := by
  intro w i h
  have answers := decode_answers w
  rw [h] at answers
  exact answers

/-! ## The rows of the table (R134) -/

/-- A word of a row agrees with the row's pattern on the bits of the mask, field by field. -/
theorem EncRow.matches_field {r : EncRow} {w : Word} (h : r.matches w = true) (start len : Nat) :
    w.extractLsb' start len &&& r.mask.extractLsb' start len = r.pattern.extractLsb' start len := by
  rw [← BitVec.extractLsb'_and, show w &&& r.mask = r.pattern from beq_iff_eq.mp h]

/-- A field that the mask covers is the pattern's. -/
theorem EncRow.field_eq {r : EncRow} {w : Word} (h : r.matches w = true) {start len : Nat} {v : BitVec len}
    (covered : r.mask.extractLsb' start len = BitVec.allOnes len) (value : r.pattern.extractLsb' start len = v) :
    w.extractLsb' start len = v := by
  rw [← value, ← r.matches_field h, covered, BitVec.and_allOnes]

theorem rsField_eq_zero {w : Word} : rsField w = 0 ↔ w.extractLsb' 21 5 = 0#5 := BitVec.toFin_inj (y := 0#5)

theorem rtField_eq_zero {w : Word} : rtField w = 0 ↔ w.extractLsb' 16 5 = 0#5 := BitVec.toFin_inj (y := 0#5)

theorem rdField_eq_zero {w : Word} : rdField w = 0 ↔ w.extractLsb' 11 5 = 0#5 := BitVec.toFin_inj (y := 0#5)

/-- The decoder's answer is an instruction of the row named `n`. -/
def IsRow (n : String) : Except DecodeError Instr → Prop
  | .ok i => i.mnemonic = n
  | .error _ => False

/-- A row whose mask covers the must-be-zero fields (R135). -/
theorem IsRow.strict {n : String} {zero : Bool} {i : Instr} (hz : zero = true) (hn : i.mnemonic = n) :
    IsRow n (strict zero i) := by
  subst hz
  exact hn

theorem IsRow.exists_ok {n : String} : ∀ {a : Except DecodeError Instr}, IsRow n a → ∃ i, a = .ok i ∧ i.mnemonic = n
  | .ok i, h => ⟨i, rfl, h⟩

/-- The SPECIAL rows fix the opcode, `funct` and the must-be-zero fields. -/
theorem isRow_special {w : Word} : ∀ r ∈ encSpecial, r.matches w = true → IsRow r.mnemonic (decode w) := by
  simp only [encSpecial, List.forall_mem_cons, List.not_mem_nil, IsEmpty.forall_iff, implies_true, and_true]
  refine ⟨?sll, ?srl, ?sra, ?sllv, ?srlv, ?srav, ?jr, ?jalr, ?syscall, ?brk, ?mfhi, ?mthi, ?mflo, ?mtlo, ?mult,
    ?multu, ?div, ?divu, ?add, ?addu, ?sub, ?subu, ?and, ?or, ?xor, ?nor, ?slt, ?sltu⟩
  all_goals
    intro h
    have hop : opField w = 0x00#6 := EncRow.field_eq h rfl rfl
    have hf : functField w = _ := EncRow.field_eq h rfl rfl
    rw [decode_special hop, decodeSpecial, hf]
  case syscall | brk => rfl
  all_goals
    refine .strict ?_ rfl
    simp only [Bool.and_eq_true, beq_iff_eq, rsField_eq_zero, rtField_eq_zero, rdField_eq_zero]
    and_intros <;> exact EncRow.field_eq ‹_› rfl rfl

/-- The REGIMM, jump, branch and immediate rows fix the opcode, and REGIMM, BLEZ, BGTZ and LUI one register field. -/
theorem isRow_immediate {w : Word} : ∀ r ∈ encImmediate, r.matches w = true → IsRow r.mnemonic (decode w) := by
  simp only [encImmediate, List.forall_mem_cons, List.not_mem_nil, IsEmpty.forall_iff, implies_true, and_true]
  refine ⟨?bltz, ?bgez, ?bltzal, ?bgezal, ?j, ?jal, ?beq, ?bne, ?blez, ?bgtz, ?addi, ?addiu, ?slti, ?sltiu, ?andi,
    ?ori, ?xori, ?lui⟩
  all_goals
    intro h
    have hop : opField w = _ := EncRow.field_eq h rfl rfl
    rw [decode, hop]
  case bltz | bgez | bltzal | bgezal =>
    have hrt : w.extractLsb' 16 5 = _ := EncRow.field_eq ‹_› rfl rfl
    show IsRow _ (decodeRegimm w)
    rw [decodeRegimm, hrt]
    rfl
  case blez | bgtz => exact .strict (beq_iff_eq.mpr (rtField_eq_zero.mpr (EncRow.field_eq ‹_› rfl rfl))) rfl
  case lui => exact .strict (beq_iff_eq.mpr (rsField_eq_zero.mpr (EncRow.field_eq ‹_› rfl rfl))) rfl
  all_goals rfl

/-- The coprocessor, load and store rows fix the opcode, and the COP0 rows the sub-opcode and the low bits. -/
theorem isRow_memory {w : Word} : ∀ r ∈ encMemory, r.matches w = true → IsRow r.mnemonic (decode w) := by
  simp only [encMemory, List.forall_mem_cons, List.not_mem_nil, IsEmpty.forall_iff, implies_true, and_true]
  refine ⟨?mfc0, ?mtc0, ?rfe, ?cop1, ?cop2, ?cop3, ?lb, ?lh, ?lwl, ?lw, ?lbu, ?lhu, ?lwr, ?sb, ?sh, ?swl, ?sw, ?swr,
    ?lwc1, ?lwc2, ?lwc3, ?swc1, ?swc2, ?swc3⟩
  all_goals
    intro h
    have hop : opField w = _ := EncRow.field_eq h rfl rfl
    rw [decode, hop]
  case mfc0 | mtc0 =>
    have hsub : w.extractLsb' 21 5 = _ := EncRow.field_eq ‹_› rfl rfl
    have hlow : w.extractLsb' 0 11 = 0#11 := EncRow.field_eq ‹_› rfl rfl
    show IsRow _ (decodeCop0 w)
    rw [decodeCop0, hsub, hlow]
    rfl
  case rfe =>
    have hsub : w.extractLsb' 21 5 = _ := EncRow.field_eq ‹_› rfl rfl
    have hlow : w.extractLsb' 0 21 = 0x10#21 := EncRow.field_eq ‹_› rfl rfl
    show IsRow _ (decodeCop0 w)
    rw [decodeCop0, hsub, hlow]
    rfl
  all_goals rfl

/-- The decoder accepts every word of a row, as the row's instruction. -/
theorem exists_decode_of_matches {w : Word} {r : EncRow} (hr : r ∈ encodingTable) (h : r.matches w = true) :
    ∃ i, decode w = .ok i ∧ i.mnemonic = r.mnemonic := by
  rw [encodingTable, List.mem_append, List.mem_append] at hr
  rcases hr with (hr | hr) | hr
  · exact (isRow_special r hr h).exists_ok
  · exact (isRow_immediate r hr h).exists_ok
  · exact (isRow_memory r hr h).exists_ok

theorem nodup_mnemonics : (encodingTable.map EncRow.mnemonic).Nodup := by
  simp [encodingTable, encSpecial, encImmediate, encMemory]

section
open Laws Laws.EncodingMatchesRow

/-- Every instruction's word matches the row of its mnemonic. -/
theorem encode_matches_row : ∀ i : Instr, Statement i
  | .sll .. => sll .. | .srl .. => srl .. | .sra .. => sra .. | .sllv .. => sllv .. | .srlv .. => srlv ..
  | .srav .. => srav .. | .jr .. => jr .. | .jalr .. => jalr .. | .syscall .. => syscall .. | .brk .. => brk ..
  | .mfhi .. => mfhi .. | .mthi .. => mthi .. | .mflo .. => mflo .. | .mtlo .. => mtlo .. | .mult .. => mult ..
  | .multu .. => multu .. | .div .. => div .. | .divu .. => divu .. | .add .. => add .. | .addu .. => addu ..
  | .sub .. => sub .. | .subu .. => subu .. | .and .. => and .. | .or .. => or .. | .xor .. => xor ..
  | .nor .. => nor .. | .slt .. => slt .. | .sltu .. => sltu .. | .bltz .. => bltz .. | .bgez .. => bgez ..
  | .bltzal .. => bltzal .. | .bgezal .. => bgezal .. | .j .. => j .. | .jal .. => jal .. | .beq .. => beq ..
  | .bne .. => bne .. | .blez .. => blez .. | .bgtz .. => bgtz .. | .addi .. => addi .. | .addiu .. => addiu ..
  | .slti .. => slti .. | .sltiu .. => sltiu .. | .andi .. => andi .. | .ori .. => ori .. | .xori .. => xori ..
  | .lui .. => lui .. | .mfc0 .. => mfc0 .. | .mtc0 .. => mtc0 .. | .rfe => rfe | .cop1 .. => cop1 ..
  | .cop2 .. => cop2 .. | .cop3 .. => cop3 .. | .lb .. => lb .. | .lh .. => lh .. | .lwl .. => lwl ..
  | .lw .. => lw .. | .lbu .. => lbu .. | .lhu .. => lhu .. | .lwr .. => lwr .. | .sb .. => sb .. | .sh .. => sh ..
  | .swl .. => swl .. | .sw .. => sw .. | .swr .. => swr .. | .lwc1 .. => lwc1 .. | .lwc2 .. => lwc2 ..
  | .lwc3 .. => lwc3 .. | .swc1 .. => swc1 .. | .swc2 .. => swc2 .. | .swc3 .. => swc3 ..

end

/-- A word that decodes matches the row of its instruction. -/
theorem exists_row_of_decode {w : Word} {i : Instr} (h : decode w = .ok i) :
    ∃ r ∈ encodingTable, r.matches w = true ∧ r.mnemonic = i.mnemonic := by
  obtain ⟨r, hr, hn, hm⟩ := encode_matches_row i
  rw [encodeInvertsDecode w i h] at hm
  exact ⟨r, hr, hm, hn⟩

/-- Settles O3: an accepted word is its instruction's word, which is in the table; the decoder accepts every row; and no
two rows have one name, so the decoder's answer to a word names the only row the word can match. -/
theorem decodeAcceptsExactlyTheTable : Obligations.DecodeAcceptsExactlyTheTable := by
  refine ⟨fun w i h => exists_row_of_decode h, fun w e h => ?reserved, fun w r q hr hq hrw hqw => ?unique⟩
  case reserved =>
    rw [wordWellFormed, List.any_eq_false]
    intro r hr hm
    obtain ⟨i, hi, -⟩ := exists_decode_of_matches hr hm
    cases h.symm.trans hi
  case unique =>
    obtain ⟨i, hi, hin⟩ := exists_decode_of_matches hr hrw
    obtain ⟨j, hj, hjn⟩ := exists_decode_of_matches hq hqw
    cases hi.symm.trans hj
    exact List.inj_on_of_nodup_map nodup_mnemonics hr hq (hin.symm.trans hjn)

end Sys2Proof

namespace Sys2Proof.Machine

/-! ## A reserved word in a cycle -/

/-- The fetch that no exception stops reads the word at `p` (20_memory.md R94). -/
theorem FetchesFrom.fetch_eq {s : State} {r : Region} {p : Nat} (h : FetchesFrom s r p) :
    s.fetch = .ok (s.bus.mem.readWord p) :=
  fetchWord_region (segmentViolation_eq_false.mpr h.permitted) h.aligned h.inRegion

/-- A cycle that fetches a word the decoder refuses takes the exception of the reason (70_reset_and_hazards.md R452). -/
theorem step_of_reserved {s : State} {w : Word} {e : DecodeError} (hint : s.interruptRequested = false)
    (hw : s.fetch = .ok w) (he : decode w = .error e) : step s = .next (s.raise (s.reservedExc e)).endCycle := by
  simp only [step, fullCycle, cpuStep, hint, hw, runWord, he, raiseExc, Bool.false_eq_true, if_false]

/-- A reserved word with opcode 0x10 is CpU(0) in user mode with CU0 = 0; every other reserved word is RI
(44_coprocessor_system.md R253, R254). -/
theorem State.reservedExc_eq (s : State) {w : Word} {e : DecodeError} (h : e = .reservedCop0 ↔ opField w = 0x10#6) :
    s.reservedExc e =
      if opField w = 0x10#6 ∧ s.sr.getLsbD 1 = true ∧ s.sr.getLsbD 28 = false then .cpu 0 else .ri := by
  simp only [← h]
  cases e
  case reservedCop0 =>
    simp only [reservedExc, s.cop0Usable_iff, true_and]
    rcases hku : s.sr.getLsbD 1 with _ | _
    · simp
    · rcases hcu : s.sr.getLsbD 28 with _ | _ <;> simp
  all_goals rfl

/-- Settles O6: a word of no row does not decode, and its opcode tells which exception the reason is. -/
theorem reservedWordsTrap : Obligations.ReservedWordsTrap := by
  intro s r p hs hill
  have answers := decode_answers (s.bus.mem.readWord p)
  rcases hd : decode (s.bus.mem.readWord p) with e | i
  · rw [hd] at answers
    rw [← s.reservedExc_eq answers]
    exact ⟨_, s.raise_trapTaken _, step_of_reserved hs.noInterrupt hs.fetch_eq hd⟩
  · obtain ⟨r, hr, hm, -⟩ := exists_row_of_decode hd
    exact absurd hm (List.any_eq_false.mp hill r hr)

end Sys2Proof.Machine
end

section
/-! The shifts of 40_alu.md and the jumps and branches of 43_branch_jump.md. -/

namespace Sys2Proof.Machine

/-! ## Shifts -/

/-- An instruction that ends by writing `v` to `r`, with what is known of `v`. -/
theorem writesOnly_of_finishReg {i : Instr} {s : State} {r : RegIdx} {v : Word} {P : Word → Prop}
    (h : exec i s = finishReg r v s) (hv : P v) : ∃ t v, exec i s = .next t ∧ WritesOnly s t (some (r, v)) ∧ P v := by
  obtain ⟨t, ht, hwrites⟩ := finishReg_writesOnly r v s
  exact ⟨t, v, h.trans ht, hwrites, hv⟩

theorem toNat_shiftLeft_eq (x : Word) (n : Nat) : (x <<< n).toNat = x.toNat * 2 ^ n % 2 ^ 32 := by
  rw [BitVec.toNat_shiftLeft, Nat.shiftLeft_eq]

theorem toNat_ushiftRight_eq (x : Word) (n : Nat) : (x >>> n).toNat = x.toNat / 2 ^ n := by
  rw [BitVec.toNat_ushiftRight, Nat.shiftRight_eq_div_pow]

theorem toInt_sshiftRight_eq (x : Word) (n : Nat) : (x.sshiftRight n).toInt = x.toInt / 2 ^ n := by
  rw [BitVec.toInt_sshiftRight, Int.shiftRight_eq_div_pow]
  norm_cast

/-- Settles O18: each shift is the word operation of its kind, by the `shamt` field or by a register modulo 32. -/
theorem shifts : Obligations.Shifts := by
  intro s rd rt rs sh
  rw [← shiftAmount_eq (s.reg rs)]
  exact ⟨writesOnly_of_finishReg rfl (toNat_shiftLeft_eq ..), writesOnly_of_finishReg rfl (toNat_ushiftRight_eq ..),
    writesOnly_of_finishReg rfl (toInt_sshiftRight_eq ..), writesOnly_of_finishReg rfl (toNat_shiftLeft_eq ..),
    writesOnly_of_finishReg rfl (toNat_ushiftRight_eq ..), writesOnly_of_finishReg rfl (toInt_sshiftRight_eq ..)⟩

/-! ## Jumps and branches -/

/-- An instruction that ends as a branch, with its condition and its target said otherwise. -/
theorem branches_of_finishBranch {i : Instr} {s : State} {taken : Bool} {a b : Word} {link : Option (RegIdx × Word)}
    {p : Prop} (h : exec i s = finishBranch taken a link s) (hp : taken = true ↔ p) (ha : a = b) :
    ∃ t, exec i s = .next t ∧ Branches s t link p b := by
  obtain ⟨t, ht, hbranches⟩ := finishBranch_branches taken a link s
  exact ⟨t, h.trans ht, hbranches.congr hp ha⟩

/-- The target of a conditional branch (43_branch_jump.md R231). -/
theorem branchTarget_eq (pc : Word) (imm : BitVec 16) :
    branchTarget pc imm = pc + 4#32 + BitVec.ofInt 32 (4 * imm.toInt) := by
  rw [branchTarget, sext16_shiftLeft]

/-- BLTZ tests the sign bit (43_branch_jump.md R241). -/
theorem msb_iff_toInt_neg (x : Word) : x.msb = true ↔ x.toInt < 0 := by
  rw [BitVec.msb_eq_toInt, decide_eq_true_iff]

/-- BGEZ tests the sign bit (43_branch_jump.md R242). -/
theorem not_msb_iff_toInt_nonneg (x : Word) : (!x.msb) = true ↔ 0 ≤ x.toInt := by
  rw [BitVec.msb_eq_toInt, Bool.not_eq_true', decide_eq_false_iff_not, not_lt]

/-- Settles O35: a jump is a branch that is always taken. -/
theorem jumps : Obligations.Jumps := by
  intro s target rd rs t26
  have always : true = true ↔ True := iff_of_true rfl trivial
  exact ⟨branches_of_finishBranch rfl always (jumpTarget_eq ..), branches_of_finishBranch rfl always (jumpTarget_eq ..),
    branches_of_finishBranch rfl always rfl, branches_of_finishBranch rfl always rfl⟩

/-- Settles O36: each branch tests its signed condition and shares the one target. -/
theorem conditionalBranches : Obligations.ConditionalBranches := by
  intro s rs rt imm target
  have htarget : branchTarget s.pc imm = target := branchTarget_eq ..
  exact ⟨branches_of_finishBranch rfl beq_iff_eq htarget, branches_of_finishBranch rfl bne_iff_ne htarget,
    branches_of_finishBranch rfl decide_eq_true_iff htarget, branches_of_finishBranch rfl decide_eq_true_iff htarget,
    branches_of_finishBranch rfl (msb_iff_toInt_neg _) htarget,
    branches_of_finishBranch rfl (not_msb_iff_toInt_nonneg _) htarget⟩

end Sys2Proof.Machine
end

section
/-! The arithmetic, logic and comparisons of 40_alu.md, and the words of the spec's worked examples. -/

namespace Sys2Proof

/-- Settles O4: each word is the encoder's word of the instruction the rules name. -/
theorem workedExampleWordsDecode : Obligations.WorkedExampleWordsDecode :=
  ⟨decodeInvertsEncode (.sll 9 8 4), decodeInvertsEncode (.sllv 10 8 9), decodeInvertsEncode (.addi 9 8 0xFFFF#16),
    decodeInvertsEncode (.lui 10 0x8000#16), decodeInvertsEncode (.div 9 14), decodeInvertsEncode (.mfhi 24),
    decodeInvertsEncode (.lw 11 10 0x0100#16), decodeInvertsEncode (.swr 9 4 0x0002#16),
    decodeInvertsEncode (.j 0x3F00012#26), decodeInvertsEncode (.jalr 2 8), decodeInvertsEncode (.bltzal 8 0x0004#16),
    decodeInvertsEncode (.mfc0 26 14), decodeInvertsEncode .rfe, decodeInvertsEncode (.lwc2 0)⟩

end Sys2Proof

namespace Sys2Proof.Machine

/-! ## The immediate as an operand (30_encoding.md R125) -/

theorem toInt_sext16 (imm : BitVec 16) : (sext16 imm).toInt = imm.toInt :=
  BitVec.toInt_signExtend_of_le (by decide)

theorem toNat_sext16 (imm : BitVec 16) :
    (sext16 imm).toNat = if imm.toNat < 0x8000 then imm.toNat else imm.toNat + 0xFFFF0000 := by
  have hlow : (imm.setWidth 32).toNat = imm.toNat := BitVec.toNat_setWidth_of_le (by decide)
  rw [sext16, BitVec.toNat_signExtend, hlow, BitVec.msb_eq_decide]
  simp only [decide_eq_true_iff]
  by_cases h : imm.toNat < 0x8000
  · rw [if_pos h, if_neg h.not_ge, Nat.add_zero]
  · rw [if_neg h, if_pos (not_lt.mp h)]

theorem getLsbD_zext16 (imm : BitVec 16) {k : Nat} (hk : k < 32) :
    (zext16 imm).getLsbD k = if k < 16 then imm.getLsbD k else false := by
  rw [zext16, BitVec.getLsbD_setWidth, decide_eq_true hk, Bool.true_and]
  split
  · rfl
  · exact BitVec.getLsbD_of_ge _ _ (by omega)

theorem getLsbD_upper16 (imm : BitVec 16) (k : Nat) :
    (upper16 imm).getLsbD k = if k < 16 then false else imm.getLsbD (k - 16) := by
  rw [upper16, BitVec.getLsbD_append, BitVec.getLsbD_zero]

/-! ## Sums and differences modulo 2^32 -/

theorem toNat_sub_eq_emod (x y : Word) : ((x - y).toNat : Int) = (x.toNat - y.toNat : Int) % 2 ^ 32 := by
  have hx := x.isLt
  have hy := y.isLt
  rw [BitVec.toNat_sub]
  omega

/-- The signed immediate enters a sum modulo 2^32 as its signed value (40_alu.md R171). -/
theorem toNat_add_sext16 (x : Word) (imm : BitVec 16) :
    ((x + sext16 imm).toNat : Int) = (x.toNat + imm.toInt) % 2 ^ 32 := by
  have hsum : x + sext16 imm = BitVec.ofInt 32 (x.toNat + imm.toInt) := by
    rw [BitVec.ofInt_add, sext16_eq, BitVec.ofInt_natCast, BitVec.ofNat_toNat, BitVec.setWidth_eq]
  rw [hsum, BitVec.toNat_ofInt]
  omega

/-- Settles O14: each of the three ends by writing the sum or difference of its words. -/
theorem modularArithmetic : Obligations.ModularArithmetic := fun _ _ _ _ _ =>
  ⟨writesOnly_of_finishReg rfl (BitVec.toNat_add ..), writesOnly_of_finishReg rfl (toNat_sub_eq_emod ..),
    writesOnly_of_finishReg rfl (toNat_add_sext16 ..)⟩

/-! ## Signed overflow (40_alu.md R152) -/

theorem addOverflows_eq (a b : Word) : addOverflows a b = a.saddOverflow b :=
  (BitVec.saddOverflow_eq a b).symm

theorem subOverflows_eq (a b : Word) : subOverflows a b = a.ssubOverflow b := by
  rw [BitVec.ssubOverflow_eq, subOverflows]
  cases a.msb <;> cases b.msb <;> simp

/-- The overflow test `c` finds that the exact result `x` is outside the signed range of a word, and the word `v` holds
`x` where it is inside. -/
structure ExactUnlessOverflow (c : Bool) (v : Word) (x : Int) : Prop where
  overflow : c = true ↔ x < -2 ^ 31 ∨ 2 ^ 31 ≤ x
  value : ¬c = true → v.toInt = x

theorem ExactUnlessOverflow.add (a b : Word) : ExactUnlessOverflow (addOverflows a b) (a + b) (a.toInt + b.toInt) := by
  rw [addOverflows_eq]
  refine ⟨?_, BitVec.toInt_add_of_not_saddOverflow⟩
  rw [BitVec.saddOverflow, Bool.or_eq_true, decide_eq_true_iff, decide_eq_true_iff]
  exact Or.comm

theorem ExactUnlessOverflow.sub (a b : Word) : ExactUnlessOverflow (subOverflows a b) (a - b) (a.toInt - b.toInt) := by
  rw [subOverflows_eq]
  refine ⟨?_, BitVec.toInt_sub_of_not_ssubOverflow⟩
  rw [BitVec.ssubOverflow, Bool.or_eq_true, decide_eq_true_iff, decide_eq_true_iff]
  exact Or.comm

theorem ExactUnlessOverflow.addImmediate (a : Word) (imm : BitVec 16) :
    ExactUnlessOverflow (addOverflows a (sext16 imm)) (a + sext16 imm) (a.toInt + imm.toInt) :=
  toInt_sext16 imm ▸ .add a (sext16 imm)

section
variable {i : Instr} {s : State} {r : RegIdx} {c : Bool} {v : Word} {x : Int}

/-- A trapping instruction whose exact result fits writes it. -/
theorem ExactUnlessOverflow.writesOnly (hx : ExactUnlessOverflow c v x)
    (h : exec i s = if c then raiseExc .ov s else finishReg r v s) (hlow : -2 ^ 31 ≤ x) (hhigh : x < 2 ^ 31) :
    ∃ t v, exec i s = .next t ∧ WritesOnly s t (some (r, v)) ∧ v.toInt = x := by
  have hc : ¬c = true := fun hc => (hx.overflow.mp hc).elim hlow.not_gt hhigh.not_ge
  rw [if_neg hc] at h
  exact writesOnly_of_finishReg h (hx.value hc)

/-- A trapping instruction whose exact result does not fit takes Ov (60_exceptions.md R309). -/
theorem ExactUnlessOverflow.raises (hx : ExactUnlessOverflow c v x)
    (h : exec i s = if c then raiseExc .ov s else finishReg r v s) (hout : x < -2 ^ 31 ∨ 2 ^ 31 ≤ x) :
    Raises i s .ov := by
  rw [if_pos (hx.overflow.mpr hout)] at h
  exact ⟨_, h, s.raise_trapTaken .ov⟩

end

/-- Settles O15: where the exact result fits, the overflow test fails and the word result is exact. -/
theorem trappingArithmeticWritesExactResult : Obligations.TrappingArithmeticWritesExactResult := fun _ _ _ _ _ =>
  ⟨(ExactUnlessOverflow.add ..).writesOnly rfl, (ExactUnlessOverflow.sub ..).writesOnly rfl,
    (ExactUnlessOverflow.addImmediate ..).writesOnly rfl⟩

/-- Settles O16: where the exact result does not fit, the overflow test holds. -/
theorem arithmeticOverflowTraps : Obligations.ArithmeticOverflowTraps := fun _ _ _ _ _ =>
  ⟨(ExactUnlessOverflow.add ..).raises rfl, (ExactUnlessOverflow.sub ..).raises rfl,
    (ExactUnlessOverflow.addImmediate ..).raises rfl⟩

/-! ## Bitwise logic -/

theorem getLsbD_nor (a b : Word) {k : Nat} (hk : k < 32) :
    (~~~(a ||| b)).getLsbD k = !(a.getLsbD k || b.getLsbD k) := by
  rw [BitVec.getLsbD_not, decide_eq_true hk, Bool.true_and, BitVec.getLsbD_or]

theorem getLsbD_and_zext16 (a : Word) (imm : BitVec 16) {k : Nat} (hk : k < 32) :
    (a &&& zext16 imm).getLsbD k = if k < 16 then a.getLsbD k && imm.getLsbD k else false := by
  rw [BitVec.getLsbD_and, getLsbD_zext16 imm hk, apply_ite (a.getLsbD k && ·), Bool.and_false]

theorem getLsbD_or_zext16 (a : Word) (imm : BitVec 16) {k : Nat} (hk : k < 32) :
    (a ||| zext16 imm).getLsbD k = if k < 16 then a.getLsbD k || imm.getLsbD k else a.getLsbD k := by
  rw [BitVec.getLsbD_or, getLsbD_zext16 imm hk, apply_ite (a.getLsbD k || ·), Bool.or_false]

theorem getLsbD_xor_zext16 (a : Word) (imm : BitVec 16) {k : Nat} (hk : k < 32) :
    (a ^^^ zext16 imm).getLsbD k = if k < 16 then a.getLsbD k != imm.getLsbD k else a.getLsbD k := by
  rw [BitVec.getLsbD_xor, getLsbD_zext16 imm hk, apply_ite (a.getLsbD k ^^ ·), Bool.xor_false]

/-- Settles O17: each instruction writes its operation on words, whose bits are the operation on bits. -/
theorem bitwiseLogic : Obligations.BitwiseLogic := fun _ _ _ _ imm =>
  ⟨writesOnly_of_finishReg rfl fun _ _ => BitVec.getLsbD_and,
    writesOnly_of_finishReg rfl fun _ _ => BitVec.getLsbD_or,
    writesOnly_of_finishReg rfl fun _ _ => BitVec.getLsbD_xor,
    writesOnly_of_finishReg rfl fun _ => getLsbD_nor _ _,
    writesOnly_of_finishReg rfl fun _ => getLsbD_and_zext16 _ imm,
    writesOnly_of_finishReg rfl fun _ => getLsbD_or_zext16 _ imm,
    writesOnly_of_finishReg rfl fun _ => getLsbD_xor_zext16 _ imm,
    writesOnly_of_finishReg rfl fun k _ => getLsbD_upper16 imm k⟩

/-! ## Comparisons -/

/-- A comparison of signed numbers writes 1 or 0. -/
theorem setLess_eq {a b : Word} {y : Int} (hb : b.toInt = y) : setLess a b = if a.toInt < y then 1#32 else 0#32 := by
  simp only [setLess, truthWord, decide_eq_true_iff, hb]

/-- A comparison of unsigned numbers writes 1 or 0. -/
theorem setLessU_eq {a b : Word} {y : Nat} (hb : b.toNat = y) : setLessU a b = if a.toNat < y then 1#32 else 0#32 := by
  simp only [setLessU, truthWord, decide_eq_true_iff, hb]

/-- An instruction that ends by writing a word, said otherwise, to `r`. -/
theorem writesOnly_of_finishReg_eq {i : Instr} {s : State} {r : RegIdx} {v w : Word} (h : exec i s = finishReg r v s)
    (hv : v = w) : ∃ t, exec i s = .next t ∧ WritesOnly s t (some (r, w)) := by
  subst hv
  rw [h]
  exact finishReg_writesOnly r v s

/-- Settles O19: each comparison writes the truth value of its order, on the value its second operand has as a word. -/
theorem comparisons : Obligations.Comparisons := fun _ _ _ _ imm =>
  ⟨writesOnly_of_finishReg_eq rfl (setLess_eq rfl), writesOnly_of_finishReg_eq rfl (setLessU_eq rfl),
    writesOnly_of_finishReg_eq rfl (setLess_eq (toInt_sext16 imm)),
    writesOnly_of_finishReg_eq rfl (setLessU_eq (toNat_sext16 imm))⟩

end Sys2Proof.Machine
end

section
/-! Multiply, divide and the HI/LO moves (41_muldiv.md). -/

namespace Sys2Proof.Machine

/-- An instruction that ends by writing HI and LO, with what is known of a state that holds both words. -/
theorem writesOnlyHiLo_of_finishHiLo {i : Instr} {s : State} {hi lo : Word} {P : State → Prop}
    (h : exec i s = finishHiLo hi lo s) (hP : ∀ t, t.hi = hi → t.lo = lo → P t) :
    ∃ t, exec i s = .next t ∧ WritesOnlyHiLo s t ∧ P t := by
  obtain ⟨t, ht, hwrites, hhi, hlo⟩ := finishHiLo_writesOnlyHiLo hi lo s
  exact ⟨t, h.trans ht, hwrites, hP t hhi hlo⟩

/-- Settles O22: a move from HI or LO ends like any register write; a move to one rewrites the other as it was. -/
theorem hiLoMoves : Obligations.HiLoMoves := fun s r =>
  ⟨finishReg_writesOnly r s.hi s, finishReg_writesOnly r s.lo s,
    writesOnlyHiLo_of_finishHiLo rfl fun _ hhi hlo => ⟨hhi, hlo⟩,
    writesOnlyHiLo_of_finishHiLo rfl fun _ hhi hlo => ⟨hlo, hhi⟩⟩

/-! ## Products -/

/-- The product of two words fits in 64 bits as a signed number. -/
theorem toInt_mulSigned (a b : Word) : (mulSigned a b).toInt = a.toInt * b.toInt := by
  have hlow : -2 ^ 62 ≤ a.toInt * b.toInt := BitVec.le_toInt_mul_toInt
  have hhigh : a.toInt * b.toInt ≤ 2 ^ 62 := BitVec.toInt_mul_toInt_le
  exact BitVec.toInt_ofInt_eq_self (by decide) (by omega) (by omega)

/-- The product of two words fits in 64 bits as an unsigned number. -/
theorem toNat_mulUnsigned (a b : Word) : (mulUnsigned a b).toNat = a.toNat * b.toNat := by
  rw [mulUnsigned, BitVec.toNat_ofNat, Nat.mod_eq_of_lt (Nat.mul_lt_mul'' a.isLt b.isLt)]

/-- HI and LO that hold the halves of `p` hold `p` together. -/
theorem hi_append_lo_eq {t : State} {p : BitVec 64} (hhi : t.hi = p.extractLsb' 32 32)
    (hlo : t.lo = p.extractLsb' 0 32) : (t.hi ++ t.lo : BitVec 64) = p := by
  rw [hhi, hlo]
  exact BitVec.extractLsb'_append_extractLsb'

/-- Settles O20: HI and LO are the halves of a product that fits in 64 bits. -/
theorem productsAreExact : Obligations.ProductsAreExact := fun _ _ _ =>
  ⟨writesOnlyHiLo_of_finishHiLo rfl fun _ hhi hlo =>
      (congrArg BitVec.toInt (hi_append_lo_eq hhi hlo)).trans (toInt_mulSigned ..),
    writesOnlyHiLo_of_finishHiLo rfl fun _ hhi hlo =>
      (congrArg BitVec.toNat (hi_append_lo_eq hhi hlo)).trans (toNat_mulUnsigned ..)⟩

/-! ## The division table (41_muldiv.md R199), as (`lo`, `hi`) -/

/-- The first row of DIV is the library's signed division, which is exact where the quotient fits. -/
theorem divSigned_of_fits {n d : Word} (hd : d ≠ 0#32) (hfits : ¬(n = 0x80000000#32 ∧ d = 0xFFFFFFFF#32)) :
    divSigned n d = (n.sdiv d, n.srem d) := by
  have hquotient : BitVec.ofInt 32 (n.toInt.tdiv d.toInt) = n.sdiv d :=
    BitVec.eq_of_toInt_eq (by rw [BitVec.toInt_ofInt, BitVec.toInt_sdiv])
  have hremainder : BitVec.ofInt 32 (n.toInt.tmod d.toInt) = n.srem d := by
    rw [← BitVec.toInt_srem, BitVec.ofInt_toInt]
  rw [divSigned, if_neg hd, if_neg hfits, hquotient, hremainder]

theorem divSigned_zero_of_nonneg {n : Word} (hn : 0 ≤ n.toInt) : divSigned n 0#32 = (0xFFFFFFFF#32, n) := by
  rw [divSigned, if_pos rfl, if_neg (fun h => hn.not_gt ((msb_iff_toInt_neg n).mp h))]

theorem divSigned_zero_of_neg {n : Word} (hn : n.toInt < 0) : divSigned n 0#32 = (0x00000001#32, n) := by
  rw [divSigned, if_pos rfl, if_pos ((msb_iff_toInt_neg n).mpr hn)]

theorem divSigned_of_not_fits : divSigned 0x80000000#32 0xFFFFFFFF#32 = (0x80000000#32, 0#32) := rfl

theorem divUnsigned_of_ne_zero {n d : Word} (hd : d ≠ 0#32) : divUnsigned n d = (n / d, n % d) := by
  rw [divUnsigned, if_neg hd, ← BitVec.toNat_udiv, ← BitVec.toNat_umod, BitVec.ofNat_toNat, BitVec.ofNat_toNat,
    BitVec.setWidth_eq, BitVec.setWidth_eq]

theorem divUnsigned_zero (n : Word) : divUnsigned n 0#32 = (0xFFFFFFFF#32, n) := rfl

/-- A truncated remainder has the sign of the dividend where it is not zero. -/
theorem tmod_eq_zero_or_neg_iff (a b : Int) : a.tmod b = 0 ∨ (a.tmod b < 0 ↔ a < 0) := by
  by_cases h : b ∣ a
  · exact .inl (Int.tmod_eq_zero_of_dvd h)
  · right
    rw [← Int.sign_eq_neg_one_iff_neg, Int.sign_tmod, if_neg h, Int.sign_eq_neg_one_iff_neg]

/-- The quotient and remainder that the first row of DIV asks for. -/
theorem sdiv_srem_spec {n d : Word} (hfits : ¬(n = 0x80000000#32 ∧ d = 0xFFFFFFFF#32)) :
    (n.sdiv d).toInt = n.toInt.tdiv d.toInt ∧ (n.srem d).toInt = n.toInt - (n.sdiv d).toInt * d.toInt ∧
    ((n.srem d).toInt = 0 ∨ ((n.srem d).toInt < 0 ↔ n.toInt < 0)) := by
  have hquotient : (n.sdiv d).toInt = n.toInt.tdiv d.toInt :=
    BitVec.toInt_sdiv_of_ne_or_ne n d (Decidable.not_and_iff_or_not.mp hfits)
  rw [hquotient, BitVec.toInt_srem]
  exact ⟨rfl, by rw [Int.tmod_def, Int.mul_comm], tmod_eq_zero_or_neg_iff ..⟩

/-- Settles O21: row by row, from the value of the two division functions there. -/
theorem divisionTable : Obligations.DivisionTable := by
  intro s rs rt
  refine ⟨writesOnlyHiLo_of_finishHiLo rfl fun t hhi hlo => ?_, writesOnlyHiLo_of_finishHiLo rfl fun t hhi hlo => ?_⟩
  · rw [hhi, hlo]
    refine ⟨fun hd hfits => ?_, fun hd hn => ?_, fun hd hn => ?_, fun hn hd => ?_⟩
    · rw [divSigned_of_fits hd hfits]
      exact sdiv_srem_spec hfits
    · rw [hd, divSigned_zero_of_nonneg hn]
      exact ⟨rfl, rfl⟩
    · rw [hd, divSigned_zero_of_neg hn]
      exact ⟨rfl, rfl⟩
    · rw [hn, hd, divSigned_of_not_fits]
      exact ⟨rfl, rfl⟩
  · rw [hhi, hlo]
    refine ⟨fun hd => ?_, fun hd => ?_⟩
    · rw [divUnsigned_of_ne_zero hd]
      exact ⟨BitVec.toNat_udiv, BitVec.toNat_umod⟩
    · rw [hd, divUnsigned_zero]
      exact ⟨rfl, rfl⟩

end Sys2Proof.Machine
end

section
/-! The loads of 42_loadstore.md from a region: the value of each aligned load from the bytes at its effective address, and
the pair LWR, LWL, the second of which merges into what the first has put in the load-delay slot. -/

namespace Sys2Proof.Machine

/-! ## Aligned loads -/

/-- A load from a region whose checks pass extends the lanes of the region's aligned word. -/
theorem load_region {sz : AccessSize} (ext : Word → Word) (rt : RegIdx) {rs : RegIdx} {imm : BitVec 16} {s : State}
    {r : Region} {p : Nat} (hv : segmentViolation s.userMode (s.effAddr rs imm) = false)
    (ha : (s.effAddr rs imm).toNat % sz.bytes = 0) (ht : targetOf s.cfg (alignWord (s.effAddr rs imm)) = .region r p) :
    ∃ t, load sz ext rt rs imm s = .next t ∧ SameDevices s t ∧
      LoadsInto s t rt (ext (lanes (s.bus.mem.readWord p) (laneOf (s.effAddr rs imm)) sz)) .mem := by
  obtain ⟨t, hx, hb, hl⟩ := load_of_read ext rt hv ha (busReadWord_region ht)
  exact ⟨t, hx, .of_bus hb, hl⟩

/-- The byte at an address is the low byte of the lanes a byte read of its word gives (20_memory.md R73). -/
theorem lanes_readWord_byte (m : Memory) (p : Nat) {k : Nat} (hk : k < 4) :
    (lanes (m.readWord p) k .byte).extractLsb' 0 8 = m.read (p + k) :=
  (lanes_byte_extract _ k).trans (laneByte_readWord m p k hk)

/-- The little-endian halfword at an address is the low half of the lanes a halfword read of its word gives
(20_memory.md R72, R73). -/
theorem lanes_readWord_half (m : Memory) (p : Nat) {k : Nat} (hk : k + 2 ≤ 4) :
    (lanes (m.readWord p) k .half).extractLsb' 0 16 = m.read (p + k + 1) ++ m.read (p + k) := by
  rw [lanes_half, laneByte_readWord m p (k + 1) (by omega), laneByte_readWord m p k (by omega),
    BitVec.extractLsb'_setWidth_of_le (by decide)]
  exact BitVec.extractLsb'_eq_self

/-- Settles O24: each form extends the bytes of its width at the effective address. -/
theorem loadsFromMemory : Obligations.LoadsFromMemory := by
  intro s rt rs imm r p hv ht q
  have hbyte : (s.effAddr rs imm).toNat % AccessSize.byte.bytes = 0 := Nat.mod_one _
  refine ⟨?lb, ?lbu, fun ha => ⟨?lh, ?lhu⟩, fun ha => ?lw⟩
  case lb =>
    rw [← lanes_readWord_byte s.bus.mem p (laneOf_lt _)]
    exact load_region sextByte rt hv hbyte ht
  case lbu =>
    rw [← lanes_readWord_byte s.bus.mem p (laneOf_lt _)]
    exact load_region zextByte rt hv hbyte ht
  case lh =>
    rw [← lanes_readWord_half s.bus.mem p (laneOf_add_bytes_le (sz := .half) ha)]
    exact load_region (sz := .half) sextHalf rt hv ha ht
  case lhu =>
    rw [← lanes_readWord_half s.bus.mem p (laneOf_add_bytes_le (sz := .half) ha)]
    exact load_region (sz := .half) zextHalf rt hv ha ht
  case lw =>
    obtain ⟨t, hx, hd, hl⟩ := load_region (sz := .word) id rt hv ha ht
    have hq : q = p := by
      show p + laneOf _ = p
      rw [laneOf_eq, ha, Nat.add_zero]
    rw [laneOf_eq, ha, lanes_word] at hl
    rw [hq]
    exact ⟨t, hx, hd, hl⟩

/-! ## The cycle after a load -/

/-- A word is its four bytes, little-endian (20_memory.md R72). -/
theorem eq_append_of_bytes {v : Word} {b : Nat → Byte} (h : ∀ j, j < 4 → v.extractLsb' (8 * j) 8 = b j) :
    v = b 3 ++ b 2 ++ b 1 ++ b 0 := by
  rw [← h 3 (by decide), ← h 2 (by decide), ← h 1 (by decide), ← h 0 (by decide)]
  exact (laneByte_append v).symm

/-- A register that no load is pending for keeps its value at the end of the cycle (10_state.md R34). -/
theorem State.committed_of_not_pending {s : State} {r : RegIdx} (h : s.ld.kind = .none ∨ s.ld.reg ≠ r) :
    s.committed r = s.reg r :=
  if_neg fun ⟨_, hkind, hreg⟩ => h.elim hkind (· hreg)

namespace LoadsInto

variable {s t : State} {rt : RegIdx} {v : Word} {kind : LoadKind}

/-- The loaded value is in the register at the end of the next cycle (42_loadstore.md R201). -/
theorem committed_self (h : LoadsInto s t rt v .mem) (hrt : rt ≠ 0) : t.committed rt = v := by
  rw [State.committed, h.pending]
  exact if_pos ⟨hrt, nofun, rfl⟩

theorem userMode (h : LoadsInto s t rt v kind) : t.userMode = s.userMode :=
  congrArg (·.getLsbD 1) (h.control.slots 12)

/-- The next instruction reads the base register as before the load, even if the load is for it (42_loadstore.md R201). -/
theorem effAddr_add_three (h : LoadsInto s t rt v kind) {rs : RegIdx} {imm : BitVec 16}
    (hbase : s.ld.kind = .none ∨ s.ld.reg ≠ rs) (himm : sext16 (imm + 3#16) = sext16 imm + 3#32) :
    t.effAddr rs (imm + 3#16) = s.effAddr rs imm + 3#32 := by
  rw [State.effAddr, State.effAddr, h.regs, State.committed_of_not_pending hbase, himm, BitVec.add_assoc]

end LoadsInto

/-! ## LWR, then LWL three bytes on -/

/-- The lane three bytes on. -/
theorem laneOf_add_three (a : Word) : laneOf (a + 3#32) = (laneOf a + 3) % 4 := by
  rw [laneOf_eq, laneOf_eq, BitVec.toNat_add, BitVec.toNat_ofNat]
  omega

/-- Settles O26: LWL merges into the value of LWR, still in the slot. From lane `k`, LWR has left the upper `k` bytes as
they were; these are the bytes that LWL three bytes on takes from memory (all four, when `k` is 0). -/
theorem unalignedLoadPairAssemblesTheWord : Obligations.UnalignedLoadPairAssemblesTheWord := by
  intro s rt rs imm r p ok hrt hbase himm hv hv' htarget htarget'
  have hk : laneOf (s.effAddr rs imm) < 4 := laneOf_lt _
  have hk' := laneOf_add_three (s.effAddr rs imm)
  obtain ⟨hword, hle, -⟩ := targetOf_alignWord ok htarget
  obtain ⟨hword', hle', -⟩ := targetOf_alignWord ok htarget'
  obtain ⟨-, t, v, hx, -, hl, hlow⟩ := unalignedLoads s rt rs imm r _ hv hword
  have hea := hl.effAddr_add_three hbase himm
  rw [← hl.userMode, ← hea] at hv'
  rw [← hl.host.cfg, ← hea] at hword'
  obtain ⟨⟨u, w, hx', -, hl', hhigh⟩, -⟩ := unalignedLoads t rt rs (imm + 3#16) r _ hv' hword'
  refine ⟨t, u, hx, hx', hl'.pending.trans ?_⟩
  have hbytes : ∀ j, j < 4 → w.extractLsb' (8 * j) 8 = s.bus.mem.read (p + j) := by
    intro j hj
    rw [hhigh j hj, hl.committed_self hrt, hlow j hj, hl.memory, hea]
    by_cases hupper : 3 ≤ laneOf (s.effAddr rs imm + 3#32) + j
    · rw [if_pos hupper]
      congr 1
      omega
    · rw [if_neg hupper, if_pos (by omega)]
      congr 1
      omega
  rw [eq_append_of_bytes hbytes]
  rfl

end Sys2Proof.Machine
end

section
/-! The linking branches of 43_branch_jump.md. -/

namespace Sys2Proof.Machine

/-- The link register holds the link after the cycle, taken or not: the link lands after a pending load (R245,
70_reset_and_hazards.md R452 S8). -/
theorem Branches.reg_link {s t : State} {r : RegIdx} {v target : Word} {taken : Prop}
    (h : Branches s t (some (r, v)) taken target) (hr : r ≠ 0) : t.reg r = v :=
  (h.regs r).trans (if_pos ⟨rfl, hr⟩)

/-- An instruction that ends as a branch with a link to register 31. -/
theorem linkingBranch_of_finishBranch {i : Instr} {s : State} {taken : Bool} {a b link : Word} {p : Prop}
    (h : exec i s = finishBranch taken a (some (31, link)) s) (hp : taken = true ↔ p) (ha : a = b) :
    ∃ t, exec i s = .next t ∧ t.reg 31 = link ∧ Branches s t (some (31, link)) p b := by
  obtain ⟨t, ht, hbranches⟩ := branches_of_finishBranch h hp ha
  exact ⟨t, ht, hbranches.reg_link (by decide), hbranches⟩

/-- Settles O37: both branches test the sign of the register as the cycle finds it, and the link they write does not depend
on the test. -/
theorem linkingBranches : Obligations.LinkingBranches := by
  intro s rs imm target
  have htarget : branchTarget s.pc imm = target := branchTarget_eq ..
  exact ⟨linkingBranch_of_finishBranch rfl (msb_iff_toInt_neg _) htarget,
    linkingBranch_of_finishBranch rfl (not_msb_iff_toInt_nonneg _) htarget⟩

end Sys2Proof.Machine
end

section
/-! Who may touch the system control bank: the guard of 44_coprocessor_system.md R253 and the three kinds of instruction
that end with another bank than they began with. -/

namespace Sys2Proof.Machine

/-- COP0 is unusable exactly in user mode with CU0 = 0 (44_coprocessor_system.md R253). -/
theorem State.cop0Usable_eq_false_iff (s : State) :
    s.cop0Usable = false ↔ s.sr.getLsbD 1 = true ∧ s.sr.getLsbD 28 = false := by
  rw [← Bool.not_eq_true, s.cop0Usable_iff, not_or, Bool.not_eq_false, Bool.not_eq_true]

/-- An instruction behind the guard of COP0 raises CpU(0) where COP0 is unusable, whatever its own meaning. -/
theorem raises_of_cop0_unusable {i : Instr} {s : State} {meaning : Result} (h : exec i s = cop0 meaning s)
    (hu : s.cop0Usable = false) : Raises i s (.cpu 0) := by
  have hraise : exec i s = raiseExc (.cpu 0) s := by
    rw [h, cop0, hu, if_neg Bool.false_ne_true]
  exact ⟨_, hraise, s.raise_trapTaken _⟩

/-- Settles O41: the guard comes before the meaning of each of the three. -/
theorem cop0IsUnusableInUserMode : Obligations.Cop0IsUnusableInUserMode := by
  intro s rt slot huser hcu0
  have hu : s.cop0Usable = false := s.cop0Usable_eq_false_iff.mpr ⟨huser, hcu0⟩
  exact ⟨raises_of_cop0_unusable rfl hu, raises_of_cop0_unusable rfl hu, raises_of_cop0_unusable rfl hu⟩

/-- An instruction that leaves the bank and retires leaves the fault latches too. -/
theorem Retires.sameControl {i : Instr} {s t : State} (h : Retires i s t) (hscr : t.scr = s.scr) : SameControl s t where
  slots k := congrArg (·.get k) hscr
  faultCause := h.faultCause
  faultPc := h.faultPc

/-- Settles O12: an instruction that takes no exception retires, and a retirement moves the control bank only by the write
of MTC0 or RFE past the guard. -/
theorem controlRegistersAreGuarded : Obligations.ControlRegistersAreGuarded := by
  intro i s t h
  rcases exec_ends h with ⟨e, rfl⟩ | hr
  · exact .inl ⟨e, s.raise_trapTaken e⟩
  · rcases hr.control with hscr | ⟨rt, slot, hi, usable, -⟩ | ⟨hi, usable, -⟩
    · exact .inr (.inl (hr.sameControl hscr))
    · exact .inr (.inr ⟨s.cop0Usable_iff.mp usable, .inr ⟨rt, slot, hi⟩, hr.faultCause, hr.faultPc⟩)
    · exact .inr (.inr ⟨s.cop0Usable_iff.mp usable, .inl hi, hr.faultCause, hr.faultPc⟩)

end Sys2Proof.Machine
end

section
/-! The exceptions of 60_exceptions.md: the interrupt poll, the fetch, the loads and stores, the words that always trap,
and the return from a trap. Each trapping path ends in `State.raise`, whose state `State.raise_trapTaken` describes. -/

namespace Sys2Proof.Machine

/-! ## Trap entry -/

/-- Settles O9. -/
theorem trapEntry : Obligations.TrapEntry :=
  ⟨State.raise_trapTaken, fun _ _ => ⟨rfl, rfl, rfl, rfl, rfl, rfl, rfl, rfl, rfl, rfl⟩⟩

/-- An instruction whose meaning is to raise `e` takes `e`. -/
theorem raises_of_raiseExc {i : Instr} {s : State} {e : Exc} (h : exec i s = raiseExc e s) : Raises i s e :=
  ⟨_, h, s.raise_trapTaken e⟩

/-- A cycle whose CPU part raises `e` takes it, then ends. -/
theorem trapTaken_of_cpuStep {s : State} {e : Exc} (h : cpuStep s = raiseExc e s) :
    ∃ t, TrapTaken s t e ∧ step s = .next t.endCycle :=
  ⟨_, s.raise_trapTaken e, step_eq_next.mpr ⟨_, h, rfl⟩⟩

/-- Settles O42. -/
theorem systemCallsAndAbsentCoprocessorsTrap : Obligations.SystemCallsAndAbsentCoprocessorsTrap := fun _ _ _ =>
  ⟨raises_of_raiseExc rfl, raises_of_raiseExc rfl, raises_of_raiseExc rfl, raises_of_raiseExc rfl,
    raises_of_raiseExc rfl, raises_of_raiseExc rfl, raises_of_raiseExc rfl, raises_of_raiseExc rfl,
    raises_of_raiseExc rfl, raises_of_raiseExc rfl, raises_of_raiseExc rfl⟩

/-! ## The interrupt poll -/

/-- A request bit and its mask bit, as the poll pairs them (60_exceptions.md R301). -/
theorem State.request_getLsbD (s : State) {k : Nat} (hk : k < 8) :
    (s.causeRead.extractLsb' 8 8 &&& s.sr.extractLsb' 8 8).getLsbD k = true ↔
      s.sr.getLsbD (8 + k) = true ∧ (if k = 2 then LineHigh s.bus.ic else s.cause.getLsbD (8 + k) = true) := by
  have hip : s.causeRead.getLsbD (8 + k) = true ↔
      (if k = 2 then LineHigh s.bus.ic else s.cause.getLsbD (8 + k) = true) := by
    rw [s.causeRead_getLsbD _ (by omega)]
    by_cases h2 : k = 2
    · subst h2
      exact s.bus.ic.pendingLine_iff
    · rw [if_neg (by omega), if_neg h2]
  rw [← hip, BitVec.getLsbD_and, BitVec.getLsbD_extractLsb', BitVec.getLsbD_extractLsb']
  simp [hk, and_comm]

/-- A bit vector that is not 0 has a bit set. -/
theorem bne_zero_iff_getLsbD {n : Nat} (x : BitVec n) : (x != 0#n) = true ↔ ∃ k, k < n ∧ x.getLsbD k = true := by
  rw [bne_iff_ne, ne_eq, ← not_iff_not, not_not]
  constructor
  · rintro rfl ⟨k, -, hk⟩
    simp at hk
  · intro h
    apply BitVec.eq_of_getLsbD_eq
    intro k hk
    rw [BitVec.getLsbD_zero]
    exact Bool.eq_false_iff.mpr fun hx => h ⟨k, hk, hx⟩

/-- The poll computes the condition of 60_exceptions.md R301. -/
theorem State.interruptRequested_iff (s : State) : s.interruptRequested = true ↔ InterruptDue s := by
  rw [State.interruptRequested, Bool.and_eq_true, bne_zero_iff_getLsbD]
  exact and_congr_right fun _ => exists_congr fun k => and_congr_right fun hk => s.request_getLsbD hk

/-- Settles O8: the poll comes before the fetch. -/
theorem interruptsAreTakenFirst : Obligations.InterruptsAreTakenFirst := by
  refine ⟨State.interruptRequested_iff, fun s hdue => trapTaken_of_cpuStep ?_⟩
  rw [cpuStep, if_pos (s.interruptRequested_iff.mpr hdue)]

/-! ## The fetch -/

section
variable {cfg : Config.Params} {user : Bool} {b : Bus} {a : Word}

/-- A fetch that is not permitted or not aligned (60_exceptions.md R304). -/
theorem fetchWord_adel (h : (user = true ∧ a.msb = true) ∨ a.toNat % 4 ≠ 0) : fetchWord cfg user b a = .error (.adel a) := by
  rw [← segmentViolation_eq_true] at h
  rw [fetchWord]
  split
  · rfl
  · rename_i hv
    rw [if_pos (h.resolve_left hv)]

/-- An aligned, permitted fetch outside the regions (60_exceptions.md R305). -/
theorem fetchWord_ibe (hv : ¬(user = true ∧ a.msb = true)) (ha : a.toNat % 4 = 0)
    (ht : ∀ r p, targetOf cfg a ≠ .region r p) : fetchWord cfg user b a = .error .ibe := by
  rw [← segmentViolation_eq_true] at hv
  rw [fetchWord, if_neg hv, if_neg (not_not.mpr ha)]
  rcases htarget : targetOf cfg a with ⟨r, p⟩ | reg | _
  · exact absurd htarget (ht r p)
  · rfl
  · rfl

end

/-- With no interrupt due, a fetch that fails is the cycle's exception (70_reset_and_hazards.md R452 S5). -/
theorem cpuStep_of_fetch_error {s : State} {e : Exc} (hint : s.interruptRequested = false) (hf : s.fetch = .error e) :
    cpuStep s = raiseExc e s := by
  rw [cpuStep, hint, if_neg Bool.false_ne_true, hf]

/-- Settles O7. -/
theorem fetchTraps : Obligations.FetchTraps := fun _ hint =>
  ⟨fun h => trapTaken_of_cpuStep (cpuStep_of_fetch_error hint (fetchWord_adel h)),
    fun hv ha ht => trapTaken_of_cpuStep (cpuStep_of_fetch_error hint (fetchWord_ibe hv ha ht))⟩

/-! ## Loads -/

section
variable {i : Instr} {s : State} {rt rs : RegIdx} {imm : BitVec 16} {sz : AccessSize} {e : Exc}

/-- A load whose read the bus refuses takes the exception of the refusal. -/
theorem raises_of_load {ext : Word → Word} (hi : exec i s = load sz ext rt rs imm s)
    (h : memRead s.cfg s.userMode s.bus (s.effAddr rs imm) sz = .error e) : Raises i s e :=
  raises_of_raiseExc (by rw [hi, load, h])

theorem raises_of_loadUnaligned {merge : Nat → Word → Word → Word} (hi : exec i s = loadUnaligned merge rt rs imm s)
    (h : memReadUnaligned s.cfg s.userMode s.bus (s.effAddr rs imm) = .error e) : Raises i s e :=
  raises_of_raiseExc (by rw [hi, loadUnaligned, h])

/-- A permitted, aligned read of an unmapped address (60_exceptions.md R306). -/
theorem memRead_unmapped {cfg : Config.Params} {user : Bool} {b : Bus} {a : Word} (hv : segmentViolation user a = false)
    (ha : a.toNat % sz.bytes = 0) (ht : targetOf cfg (alignWord a) = .unmapped) : memRead cfg user b a sz = .error .dbe := by
  rw [memRead_pass hv ha, busReadWord_unmapped ht]
  rfl

/-- A permitted, aligned write to an unmapped address (60_exceptions.md R306). -/
theorem memWrite_unmapped {cfg : Config.Params} {user : Bool} {b : Bus} {a v : Word} (hv : segmentViolation user a = false)
    (ha : a.toNat % sz.bytes = 0) (ht : targetOf cfg (alignWord a) = .unmapped) :
    memWrite cfg user b a sz v = .error .dbe := by
  rw [memWrite_pass hv ha, memWriteBE_unmapped ht]

/-- A store whose write the bus refuses takes the exception of the refusal. -/
theorem raises_of_store (hi : exec i s = store sz rt rs imm s)
    (h : memWrite s.cfg s.userMode s.bus (s.effAddr rs imm) sz (s.reg rt) = .error e) : Raises i s e :=
  raises_of_raiseExc (by rw [hi, store, h, finishStore_error])

theorem raises_of_storeUnaligned {table : Nat → Word → Word × BitVec 4} (hi : exec i s = storeUnaligned table rt rs imm s)
    (h : memWriteUnaligned s.cfg s.userMode s.bus (s.effAddr rs imm) (table (laneOf (s.effAddr rs imm)) (s.reg rt)) =
      .error e) : Raises i s e :=
  raises_of_raiseExc (by rw [hi, storeUnaligned, h, finishStore_error])

end

/-- Settles O27, by the check that fails: the user segment, the alignment, the decode. -/
theorem loadTraps : Obligations.LoadTraps := by
  intro s rt rs imm ea
  refine ⟨fun huser hmsb => ?segment, fun ha => ?half, fun ha => ?word, fun hperm ht => ?unmapped⟩
  case segment =>
    have hv : segmentViolation s.userMode ea = true := segmentViolation_eq_true.mpr ⟨huser, hmsb⟩
    exact ⟨raises_of_load rfl (memRead_violation hv), raises_of_load rfl (memRead_violation hv),
      raises_of_load rfl (memRead_violation hv), raises_of_load rfl (memRead_violation hv),
      raises_of_load rfl (memRead_violation hv), raises_of_loadUnaligned rfl (memReadUnaligned_violation hv),
      raises_of_loadUnaligned rfl (memReadUnaligned_violation hv)⟩
  case half => exact ⟨raises_of_load rfl (memRead_misaligned ha), raises_of_load rfl (memRead_misaligned ha)⟩
  case word => exact raises_of_load rfl (memRead_misaligned ha)
  case unmapped =>
    have hv : segmentViolation s.userMode ea = false := segmentViolation_eq_false.mpr hperm
    have hbyte : ea.toNat % AccessSize.bytes .byte = 0 := Nat.mod_one _
    have hunaligned : memReadUnaligned s.cfg s.userMode s.bus ea = .error .dbe := by
      rw [memReadUnaligned_pass hv, busReadWord_unmapped ht]
    exact ⟨raises_of_load rfl (memRead_unmapped hv hbyte ht), raises_of_load rfl (memRead_unmapped hv hbyte ht),
      raises_of_loadUnaligned rfl hunaligned, raises_of_loadUnaligned rfl hunaligned,
      fun ha => ⟨raises_of_load rfl (memRead_unmapped hv ha ht), raises_of_load rfl (memRead_unmapped hv ha ht)⟩,
      fun ha => raises_of_load rfl (memRead_unmapped hv ha ht)⟩

/-! ## Stores -/

/-- Settles O32, by the check that fails. -/
theorem storeTraps : Obligations.StoreTraps := by
  intro s rt rs imm ea
  refine ⟨fun huser hmsb => ?segment, fun ha => ?half, fun ha => ?word, fun hperm ht => ?unmapped⟩
  case segment =>
    have hv : segmentViolation s.userMode ea = true := segmentViolation_eq_true.mpr ⟨huser, hmsb⟩
    exact ⟨raises_of_store rfl (memWrite_violation hv), raises_of_store rfl (memWrite_violation hv),
      raises_of_store rfl (memWrite_violation hv), raises_of_storeUnaligned rfl (memWriteUnaligned_violation hv),
      raises_of_storeUnaligned rfl (memWriteUnaligned_violation hv)⟩
  case half => exact raises_of_store rfl (memWrite_misaligned ha)
  case word => exact raises_of_store rfl (memWrite_misaligned ha)
  case unmapped =>
    have hv : segmentViolation s.userMode ea = false := segmentViolation_eq_false.mpr hperm
    have hunaligned : ∀ st, memWriteUnaligned s.cfg s.userMode s.bus ea st = .error .dbe := fun st => by
      rw [memWriteUnaligned_pass hv, memWriteBE_unmapped ht]
    exact ⟨raises_of_store rfl (memWrite_unmapped hv (Nat.mod_one _) ht), raises_of_storeUnaligned rfl (hunaligned _),
      raises_of_storeUnaligned rfl (hunaligned _), fun ha => raises_of_store rfl (memWrite_unmapped hv ha ht),
      fun ha => raises_of_store rfl (memWrite_unmapped hv ha ht)⟩

/-! ## The return from a trap -/

/-- RFE where COP0 is usable: the popped mode stack goes to slot 12, and nothing else changes (60_exceptions.md R330). -/
theorem exec_rfe {s : State} (hu : s.cop0Usable = true) :
    ∃ t, exec .rfe s = .next t ∧ WritesControl s t ∧ ∀ i, t.slot i = if i = 12 then srPop s.sr else s.slot i := by
  obtain ⟨t, ht, hw, hscr⟩ := finish_writesControl (writeSlot s.scr 12 (srPop s.sr)) s
  refine ⟨t, (cop0_usable _ hu).trans ht, hw, fun i => ?_⟩
  rw [State.slot, hscr, writeSlot_get]
  rfl

/-- Trap entry leaves kernel mode, where COP0 is usable (60_exceptions.md R321). -/
theorem State.raise_cop0Usable (s : State) (e : Exc) : (s.raise e).cop0Usable = true :=
  (State.cop0Usable_iff _).mpr (.inl ((s.raise_trapTaken e).sr 1 (by decide)))

/-- Settles O40: after a trap the pop moves back what the push has moved up. -/
theorem rfePopsTheModeStack : Obligations.RfePopsTheModeStack := by
  refine ⟨fun s hu => ?pops, fun s e => ?undoes⟩
  case pops =>
    obtain ⟨t, ht, hw, hslot⟩ := exec_rfe (s.cop0Usable_iff.mpr hu)
    refine ⟨t, ht, hw, fun i hi => by rw [hslot, if_neg hi], fun k hk => ?_⟩
    rw [show t.sr = srPop s.sr from hslot 12, srPop_getLsbD _ _ hk]
  case undoes =>
    obtain ⟨t, ht, -, hslot⟩ := exec_rfe (s.raise_cop0Usable e)
    refine ⟨t, ht, fun k hk => ?_⟩
    have hpush := (s.raise_trapTaken e).sr
    rw [show t.sr = srPop (s.raise e).sr from hslot 12, srPop_getLsbD _ _ hk]
    by_cases h4 : k < 4
    · rw [if_pos h4, if_pos h4, hpush _ (by omega), if_neg (by omega), if_pos (by omega), Nat.add_sub_cancel]
    · rw [if_neg h4, if_neg h4, hpush _ hk, if_neg (by omega)]

/-! ## No stop -/

/-- The answer is a next state. -/
def HasNext (r : Result) : Prop := ∃ t, r = .next t

theorem HasNext.ite {c : Prop} [Decidable c] {r q : Result} (hr : HasNext r) (hq : HasNext q) :
    HasNext (if c then r else q) := by
  split
  · exact hr
  · exact hq

section
variable (sz : AccessSize) (rt rs : RegIdx) (imm : BitVec 16) (s : State)

theorem hasNext_load (ext : Word → Word) : HasNext (load sz ext rt rs imm s) := by
  rcases load_cases sz ext rt rs imm s with ⟨e, -, h⟩ | ⟨v, b, t, -, h, -⟩ <;> exact ⟨_, h⟩

theorem hasNext_loadUnaligned (merge : Nat → Word → Word → Word) : HasNext (loadUnaligned merge rt rs imm s) := by
  rcases loadUnaligned_cases merge rt rs imm s with ⟨e, -, h⟩ | ⟨w, b, t, -, h, -⟩ <;> exact ⟨_, h⟩

theorem hasNext_store : HasNext (store sz rt rs imm s) := by
  rcases store_cases sz rt rs imm s with ⟨e, -, h⟩ | ⟨b, t, -, h, -⟩ <;> exact ⟨_, h⟩

theorem hasNext_storeUnaligned (table : Nat → Word → Word × BitVec 4) : HasNext (storeUnaligned table rt rs imm s) := by
  rcases storeUnaligned_cases table rt rs imm s with ⟨e, -, h⟩ | ⟨b, t, -, h, -⟩ <;> exact ⟨_, h⟩

end

/-- Every instruction answers a next state (60_exceptions.md R333): the accesses by their cases, the guarded and the
trapping forms on both sides of their test, and the others outright. -/
theorem exec_hasNext (i : Instr) (s : State) : HasNext (exec i s) := by
  cases i
  case lb rt rs imm => exact hasNext_load _ rt rs imm s _
  case lbu rt rs imm => exact hasNext_load _ rt rs imm s _
  case lh rt rs imm => exact hasNext_load _ rt rs imm s _
  case lhu rt rs imm => exact hasNext_load _ rt rs imm s _
  case lw rt rs imm => exact hasNext_load _ rt rs imm s _
  case lwl rt rs imm => exact hasNext_loadUnaligned rt rs imm s _
  case lwr rt rs imm => exact hasNext_loadUnaligned rt rs imm s _
  case sb rt rs imm => exact hasNext_store _ rt rs imm s
  case sh rt rs imm => exact hasNext_store _ rt rs imm s
  case sw rt rs imm => exact hasNext_store _ rt rs imm s
  case swl rt rs imm => exact hasNext_storeUnaligned rt rs imm s _
  case swr rt rs imm => exact hasNext_storeUnaligned rt rs imm s _
  case add => exact .ite ⟨_, rfl⟩ ⟨_, rfl⟩
  case sub => exact .ite ⟨_, rfl⟩ ⟨_, rfl⟩
  case addi => exact .ite ⟨_, rfl⟩ ⟨_, rfl⟩
  case mfc0 => exact .ite ⟨_, rfl⟩ ⟨_, rfl⟩
  case mtc0 => exact .ite ⟨_, rfl⟩ ⟨_, rfl⟩
  case rfe => exact .ite ⟨_, rfl⟩ ⟨_, rfl⟩
  all_goals exact ⟨_, rfl⟩

theorem cpuStep_hasNext (s : State) : HasNext (cpuStep s) := by
  rcases cpuStep_cases s with ⟨e, h⟩ | ⟨w, i, -, -, -, h⟩
  · exact ⟨_, h⟩
  · exact h ▸ exec_hasNext i s

/-- Settles O10. -/
theorem everyStepHasANextState : Obligations.EveryStepHasANextState := by
  refine ⟨fun s => ?_, exec_hasNext⟩
  obtain ⟨u, hu⟩ := cpuStep_hasNext s
  exact ⟨_, step_eq_next.mpr ⟨u, hu, rfl⟩⟩

end Sys2Proof.Machine
end

section
/-! The interrupt controller and the DMA controller (60_exceptions.md sections 6 and 7): their registers bit by bit, the
start and the stop of a channel, the order of a DMA step, and a burst of several steps. -/

namespace Sys2Proof.Machine

variable {cfg : Config.Params}

/-! ## The interrupt controller -/

/-- Raising a source twice is raising it once (60_exceptions.md R342). -/
theorem Ic.raiseSource_idem (ic : Ic) (k : Nat) : (ic.raiseSource k).raiseSource k = ic.raiseSource k := by
  simp only [Ic.raiseSource, BitVec.or_assoc, BitVec.or_self]

/-- Raising a source changes nothing exactly if it is pending. -/
theorem Ic.raiseSource_eq_self_iff (ic : Ic) {k : Nat} (hk : k < 32) :
    ic.raiseSource k = ic ↔ ic.iStat.getLsbD k = true := by
  constructor
  · intro h
    have hbit := ic.raiseSource_getLsbD k hk
    rw [h, decide_eq_true rfl, Bool.or_true] at hbit
    exact hbit
  · intro h
    refine congrArg (fun w => { ic with iStat := w }) (BitVec.eq_of_getLsbD_eq fun j hj => ?_)
    refine (ic.raiseSource_getLsbD k hj).trans ?_
    by_cases hjk : j = k
    · simp [hjk, h]
    · simp [hjk]

/-- Acknowledging clears the bits written and sets none (60_exceptions.md R343). -/
theorem Ic.acknowledge_getLsbD (ic : Ic) (w : Word) {j : Nat} (hj : j < 32) :
    (ic.acknowledge w).iStat.getLsbD j = (ic.iStat.getLsbD j && !w.getLsbD j) := by
  simp [Ic.acknowledge, hj]

/-- Settles O48. -/
theorem interruptController : Obligations.InterruptController := by
  refine ⟨fun ic k j _ hj => ⟨ic.raiseSource_getLsbD k hj, rfl⟩, Ic.raiseSource_idem,
    fun cfg b w mask => ⟨_, rfl, rfl, fun j hj => ?_⟩, fun cfg b w mask => ⟨_, rfl, rfl, fun j _ => ?_⟩, Ic.pendingLine_iff⟩
  · rw [Ic.acknowledge_getLsbD _ _ hj, BitVec.getLsbD_and]
  · exact mergeMasked_getLsbD b.ic.iMask w mask j

/-! ## DICR -/

/-- The flags of DICR, where a read shows them (60_exceptions.md R356). -/
theorem Dma.dicrRead_flag (d : Dma) {k : Nat} (hk : k < 8) : d.dicrRead.getLsbD k = d.flag.getLsbD k := by
  simp only [Dma.dicrRead, BitVec.getLsbD_or, BitVec.getLsbD_shiftLeft, BitVec.getLsbD_setWidth]
  rcases d.master with _ | _ <;> rcases d.dicrAny with _ | _ <;> interval_cases k <;> simp

/-- Bit 31 of DICR is the computed ANY (60_exceptions.md R356). -/
theorem Dma.dicrRead_any (d : Dma) : d.dicrRead.getLsbD 31 = d.dicrAny := by
  simp only [Dma.dicrRead, BitVec.getLsbD_or, BitVec.getLsbD_shiftLeft, BitVec.getLsbD_setWidth]
  rcases d.master with _ | _ <;> rcases d.dicrAny with _ | _ <;> simp [BitVec.getLsbD_of_ge]

theorem Dma.dicrAny_iff (d : Dma) : d.dicrAny = true ↔
    d.master = true ∧ ∃ j, j < 8 ∧ d.flag.getLsbD j = true ∧ d.en.getLsbD j = true := by
  rw [Dma.dicrAny, Bool.and_eq_true, bne_zero_iff_getLsbD]
  simp only [BitVec.getLsbD_and, Bool.and_eq_true]

section
variable (d : Dma) (w mask : Word)

/-- FLAG is cleared where a 1 is written (60_exceptions.md R357). -/
theorem Dma.writeDicr_flag {k : Nat} (hk : k < 8) :
    (d.writeDicr w mask).flag.getLsbD k = (d.flag.getLsbD k && !(w.getLsbD k && mask.getLsbD k)) := by
  simp [Dma.writeDicr, hk]

/-- EN is replaced under the mask. -/
theorem Dma.writeDicr_en {k : Nat} (hk : k < 8) : (d.writeDicr w mask).en.getLsbD k =
    if mask.getLsbD (8 + k) then w.getLsbD (8 + k) else d.en.getLsbD k := by
  have hold : d.dicrRead.getLsbD (8 + k) = d.en.getLsbD k := by
    rw [d.dicrRead_getLsbD (by omega) (by omega), if_pos (by omega), Nat.add_sub_cancel_left]
  have hbit : (d.writeDicr w mask).en.getLsbD k = (mergeMasked d.dicrRead w mask).getLsbD (8 + k) := by
    simp [Dma.writeDicr, hk]
  rw [hbit, mergeMasked_getLsbD, hold]

/-- MASTER is replaced under the mask. -/
theorem Dma.writeDicr_master :
    (d.writeDicr w mask).master = if mask.getLsbD 16 then w.getLsbD 16 else d.master := by
  have hold : d.dicrRead.getLsbD 16 = d.master := by
    rw [d.dicrRead_getLsbD (by decide) (by decide)]
    simp
  rw [← hold]
  exact mergeMasked_getLsbD d.dicrRead w mask 16

end

/-- Settles O50. -/
theorem dicrReadAndWrite : Obligations.DicrReadAndWrite := by
  intro cfg b w mask k
  refine ⟨fun hk => ⟨b.dma.dicrRead_flag hk, ?enable, b.dma.writeDicr_flag w mask hk, b.dma.writeDicr_en w mask hk⟩,
    ?master, b.dma.writeDicr_master w mask, fun h17 h30 => ?zeros, ?any, rfl, rfl, rfl, rfl, rfl, rfl⟩
  case enable =>
    refine (b.dma.dicrRead_getLsbD (by omega) (by omega)).trans ?_
    rw [if_pos (by omega), Nat.add_sub_cancel_left]
  case master =>
    refine (b.dma.dicrRead_getLsbD (by decide) (by decide)).trans ?_
    simp
  case zeros =>
    refine (b.dma.dicrRead_getLsbD (by omega) (by omega)).trans ?_
    rw [if_neg (by omega), decide_eq_false (by omega), Bool.false_and]
  case any =>
    rw [← b.dma.dicrAny_iff, ← b.dma.dicrRead_any]
    rfl

/-! ## CHCR: the start and the stop of a channel -/

/-- What CHCR reads, bit by bit: the stored bits, and BUSY while the channel transfers (60_exceptions.md R354). -/
theorem Channel.chcrRead_getLsbD (c : Channel) (k : Nat) :
    c.chcrRead.getLsbD k = (c.chcr.getLsbD k || decide (k = 24 ∧ c.st = .xfer)) := by
  have hbusy : busyBit.getLsbD k = decide (k = 24) := by
    simp [show busyBit = BitVec.twoPow 32 24 from rfl, BitVec.getLsbD_twoPow, eq_comm]
  rw [Channel.chcrRead, BitVec.getLsbD_or]
  rcases c.st with _ | _ <;> simp [hbusy]

section
variable (d : Dma) (n : ChanIdx) {v : Word}

/-- A CHCR write replaces one channel. -/
theorem Dma.writeChcr_eq_setChannel (v : Word) : d.writeChcr n v = d.setChannel n ((d.writeChcr n v).channel n) := by
  rw [Dma.writeChcr]
  split
  · split <;> simp
  · simp

/-- The start of an idle, enabled channel (60_exceptions.md R359, R360). -/
theorem Dma.writeChcr_start (h24 : v.getLsbD 24 = true)
    (h : (d.channel n).st = .idle ∧ d.enabled = true ∧ d.chanEnabled n = true) :
    (d.writeChcr n v).channel n = { d.channel n with
      chcr := v &&& chcrMask
      cur := alignWord (d.channel n).madr
      len := transferLength (d.channel n).bcr (v &&& chcrMask)
      st := .xfer } := by
  simp only [Dma.writeChcr, if_pos h24, if_pos h, Dma.channel_setChannel, if_true, alignWord]

/-- A write with the start bit to a channel that cannot start replaces the stored bits alone (60_exceptions.md R359). -/
theorem Dma.writeChcr_busy (h24 : v.getLsbD 24 = true)
    (h : ¬((d.channel n).st = .idle ∧ d.enabled = true ∧ d.chanEnabled n = true)) :
    (d.writeChcr n v).channel n = { d.channel n with chcr := v &&& chcrMask } := by
  simp only [Dma.writeChcr, if_pos h24, if_neg h, Dma.channel_setChannel, if_true]

/-- A write without the start bit leaves the channel idle (60_exceptions.md R361). -/
theorem Dma.writeChcr_stop (h24 : v.getLsbD 24 = false) :
    (d.writeChcr n v).channel n = { d.channel n with chcr := v &&& chcrMask, st := .idle } := by
  simp only [Dma.writeChcr, h24, Bool.false_eq_true, if_false, Dma.channel_setChannel, if_true]

/-- No CHCR write touches the channel's other registers. -/
theorem Dma.writeChcr_registers (v : Word) : ((d.writeChcr n v).channel n).madr = (d.channel n).madr ∧
    ((d.writeChcr n v).channel n).bcr = (d.channel n).bcr := by
  rw [Dma.writeChcr]
  split
  · split <;> simp
  · simp

end

/-- The length of a start, by the TYPE bits written (60_exceptions.md R360). -/
theorem transferLength_toNat (bcr v : Word) : (transferLength bcr (v &&& chcrMask)).toNat =
    if v.toNat / 512 % 4 = 0 then bcr.toNat % 65536
    else if v.toNat / 512 % 4 = 1 then bcr.toNat % 65536 * (bcr.toNat / 65536)
    else 0 := by
  have hkept : (v &&& chcrMask).extractLsb' 9 2 = v.extractLsb' 9 2 := by
    rw [BitVec.extractLsb'_and, show chcrMask.extractLsb' 9 2 = BitVec.allOnes 2 from rfl, BitVec.and_allOnes]
  have htype : v.toNat / 512 % 4 = (v.extractLsb' 9 2).toNat := by
    rw [BitVec.extractLsb'_toNat, Nat.shiftRight_eq_div_pow]
  have hsize : (bcr.extractLsb' 0 16).toNat = bcr.toNat % 65536 := by
    rw [BitVec.extractLsb'_toNat, Nat.shiftRight_zero]
  have hcount : (bcr.extractLsb' 16 16).toNat = bcr.toNat / 65536 := by
    have hlt := bcr.isLt
    rw [BitVec.extractLsb'_toNat, Nat.shiftRight_eq_div_pow]
    omega
  have hproduct : bcr.toNat % 65536 * (bcr.toNat / 65536) < 2 ^ 32 := by
    have hlt := bcr.isLt
    calc bcr.toNat % 65536 * (bcr.toNat / 65536)
        ≤ 65535 * 65535 := Nat.mul_le_mul (by omega) (by omega)
      _ < 2 ^ 32 := by decide
  rw [transferLength, hkept, htype]
  generalize v.extractLsb' 9 2 = type
  obtain rfl | rfl | rfl | rfl : type = 0#2 ∨ type = 1#2 ∨ type = 2#2 ∨ type = 3#2 := by
    revert type
    decide
  · show ((bcr.extractLsb' 0 16).setWidth 32).toNat = bcr.toNat % 65536
    rw [BitVec.toNat_setWidth, hsize]
    omega
  · show ((bcr.extractLsb' 0 16).setWidth 32 * (bcr.extractLsb' 16 16).setWidth 32).toNat =
      bcr.toNat % 65536 * (bcr.toNat / 65536)
    have hlt := bcr.isLt
    rw [BitVec.toNat_mul, BitVec.toNat_setWidth, BitVec.toNat_setWidth, hsize, hcount,
      Nat.mod_eq_of_lt (show bcr.toNat % 65536 < 2 ^ 32 by omega),
      Nat.mod_eq_of_lt (show bcr.toNat / 65536 < 2 ^ 32 by omega), Nat.mod_eq_of_lt hproduct]
  · rfl
  · rfl

/-- Settles O51, by what bit 24 of the merged value is. -/
theorem channelStartAndStop : Obligations.ChannelStartAndStop := by
  intro cfg b n w mask
  obtain ⟨v, hv⟩ : ∃ v, v = mergeMasked (b.dma.channel n).chcrRead w mask := ⟨_, rfl⟩
  have hbits : ∀ k, v.getLsbD k = if mask.getLsbD k then w.getLsbD k
      else ((b.dma.channel n).chcr.getLsbD k || decide (k = 24 ∧ (b.dma.channel n).st = .xfer)) := fun k => by
    rw [hv, mergeMasked_getLsbD, Channel.chcrRead_getLsbD]
  obtain ⟨hmadr, hbcr⟩ := b.dma.writeChcr_registers n v
  refine ⟨v, (b.dma.writeChcr n v).channel n, fun k _ => hbits k, ?write, hmadr, hbcr, writeChcr_chcr .., ?start, ?busy,
    ?stop, ?outside⟩
  case write => rw [← Dma.writeChcr_eq_setChannel, hv]; rfl
  case start =>
    intro h24 hidle hon hen
    rw [b.dma.writeChcr_start n h24 ⟨hidle, hon, hen⟩]
    exact ⟨rfl, alignWord_toNat _, transferLength_toNat _ v⟩
  case busy =>
    intro h24 h
    rw [b.dma.writeChcr_busy n h24 h]
    exact ⟨rfl, rfl, rfl⟩
  case stop =>
    intro h24
    rw [b.dma.writeChcr_stop n h24]
    exact ⟨rfl, rfl, rfl⟩
  case outside =>
    intro hmask hchcr
    have h24 := hbits 24
    rw [hmask, if_neg Bool.false_ne_true, hchcr, Bool.false_or] at h24
    rcases hst : (b.dma.channel n).st with _ | _
    · rw [b.dma.writeChcr_stop n (by rw [h24, hst]; rfl)]
      exact ⟨rfl, rfl, rfl⟩
    · rw [b.dma.writeChcr_busy n (by rw [h24, hst]; rfl) (by rw [hst]; exact fun h => nomatch h.1)]
      exact ⟨hst, rfl, rfl⟩

/-! ## The order of a DMA step -/

/-- The priority field of DPCR as a number (60_exceptions.md R355). -/
theorem Dma.prio_eq (d : Dma) (n : ChanIdx) : d.prio n = d.dpcr.toNat / 2 ^ (4 * n.val) % 8 := by
  rw [Dma.prio, BitVec.extractLsb'_toNat, Nat.shiftRight_eq_div_pow]

/-- A step goes through the priorities in rising order, and through the channels of one priority in index order. -/
theorem Dma.order_pairwise (d : Dma) :
    d.order.Pairwise fun m n => d.prio m < d.prio n ∨ (d.prio m = d.prio n ∧ m < n) := by
  have hprio : ∀ {p n}, n ∈ allChannels.filter (fun n => (d.channel n).st == .xfer && d.prio n == p) → d.prio n = p := by
    intro p n hn
    have hboth := (List.mem_filter.mp hn).2
    rw [Bool.and_eq_true, beq_iff_eq, beq_iff_eq] at hboth
    exact hboth.2
  rw [Dma.order, List.pairwise_flatMap]
  constructor
  · intro p _
    have hindex : allChannels.Pairwise (· < ·) := by decide
    exact (hindex.filter _).imp_of_mem fun hm hn hlt => .inr ⟨(hprio hm).trans (hprio hn).symm, hlt⟩
  · refine List.pairwise_lt_range.imp fun hlt m hm n hn => .inl ?_
    rwa [hprio hm, hprio hn]

/-- Settles O53. -/
theorem dmaPriorityOrder : Obligations.DmaPriorityOrder := fun d =>
  ⟨d.order_nodup, fun _ => Dma.mem_order, d.order_pairwise, d.prio_eq⟩

end Sys2Proof.Machine
end

section
/-! A burst from a stub port (60_exceptions.md R362, R368, R371): what one step moves, then by induction on the number of
steps how far the burst is. -/

namespace Sys2Proof.Machine

variable {cfg : Config.Params}

/-- A byte that a moved word can change: in a region, and not in rom (20_memory.md R107). -/
abbrev Writable (cfg : Config.Params) (a : Nat) : Prop := ∃ r, regionOf cfg a = some r ∧ r ≠ .rom

/-- With one channel transferring, a step is the turn of that channel. -/
theorem dmaStep_eq_stepChannel {b : Bus} {n : ChanIdx} (hon : b.dma.enabled = true)
    (hst : (b.dma.channel n).st = .xfer) (hidle : ∀ m, m ≠ n → (b.dma.channel m).st = .idle) :
    dmaStep cfg b = stepChannel cfg b n := by
  have hmem : ∀ m, m ∈ b.dma.order ↔ m ∈ [n] := fun m => by
    rw [Dma.mem_order, List.mem_singleton]
    refine ⟨fun hx => by_contra fun hne => ?_, fun h => h ▸ hst⟩
    exact nomatch hx.symm.trans (hidle m hne)
  have horder : b.dma.order = [n] := List.perm_singleton.mp
    ((List.perm_ext_iff_of_nodup b.dma.order_nodup (List.nodup_singleton n)).mpr hmem)
  rw [(dmaStep_enabled hon).1, horder, List.foldl_cons, List.foldl_nil]

/-- A word moved from a stub port is 0 at the cursor, where memory takes it (60_exceptions.md R368). -/
theorem read_stepChannel_stub (ok : ConfigOk cfg) {b : Bus} {n : ChanIdx} (hn : n ≠ 2)
    (hlen : (b.dma.channel n).len ≠ 0#32) (hdir : (b.dma.channel n).chcr.getLsbD 0 = false)
    (h4 : (b.dma.channel n).cur.toNat % 4 = 0) (htop : (b.dma.channel n).cur.toNat < 0x20000000) (a : Nat) :
    (stepChannel cfg b n).mem.read a =
      if (b.dma.channel n).cur.toNat ≤ a ∧ a < (b.dma.channel n).cur.toNat + 4 ∧ Writable cfg a then 0#8
      else b.mem.read a := by
  have hzero : ∀ k, laneByte 0#32 k = 0#8 := fun k => by simp [laneByte]
  rw [(stepChannel_memory cfg b n).1, if_neg hlen, (moveWord_fromPort n hdir).2, if_neg hn, read_dmaWrite ok,
    dmaAddr_of_aligned h4 htop, hzero]

/-- The GPU takes no part in the turn of another channel. -/
theorem stepChannel_gpu {b : Bus} {n : ChanIdx} (hn : n ≠ 2) : (stepChannel cfg b n).gpu = b.gpu := by
  rw [(stepChannel_memory cfg b n).2]
  split
  · rfl
  · exact moveWord_gpu _ hn

/-- What a burst of channel `n` starts from: it alone transfers, from a stub port, upward from an aligned cursor to within
the physical space. -/
structure BurstStart (b : Bus) (n : ChanIdx) : Prop where
  stub : n ≠ 2
  enabled : b.dma.enabled = true
  st : (b.dma.channel n).st = .xfer
  alone : ∀ m, m ≠ n → (b.dma.channel m).st = .idle
  toMemory : (b.dma.channel n).chcr.getLsbD 0 = false
  upward : (b.dma.channel n).chcr.getLsbD 1 = false
  aligned : (b.dma.channel n).cur.toNat % 4 = 0
  top : (b.dma.channel n).cur.toNat + 4 * (b.dma.channel n).len.toNat ≤ 0x20000000

/-- `b'` is the bus when the burst of channel `n` that starts in `b` has moved `k` words and has words left. -/
structure BurstAt (cfg : Config.Params) (b : Bus) (n : ChanIdx) (k : Nat) (b' : Bus) : Prop where
  enabled : b'.dma.enabled = true
  st : (b'.dma.channel n).st = .xfer
  alone : ∀ m, m ≠ n → (b'.dma.channel m).st = .idle
  chcr : (b'.dma.channel n).chcr = (b.dma.channel n).chcr
  len : (b'.dma.channel n).len.toNat = (b.dma.channel n).len.toNat - k
  cur : (b'.dma.channel n).cur.toNat = (b.dma.channel n).cur.toNat + 4 * k
  flag : b'.dma.flag = b.dma.flag
  en : b'.dma.en = b.dma.en
  master : b'.dma.master = b.dma.master
  ic : b'.ic = b.ic
  gpu : b'.gpu = b.gpu
  mem : ∀ a, b'.mem.read a =
    if (b.dma.channel n).cur.toNat ≤ a ∧ a < (b.dma.channel n).cur.toNat + 4 * k ∧ Writable cfg a then 0#8
    else b.mem.read a

section
variable {b b' : Bus} {n : ChanIdx} {k : Nat}

theorem BurstStart.at_zero (h : BurstStart b n) : BurstAt cfg b n 0 b where
  enabled := h.enabled
  st := h.st
  alone := h.alone
  chcr := rfl
  len := rfl
  cur := rfl
  flag := rfl
  en := rfl
  master := rfl
  ic := rfl
  gpu := rfl
  mem a := by rw [if_neg (by omega)]

/-- One more word of the burst is in memory after a step, whether it is the last or not. -/
theorem BurstAt.read_dmaStep (ok : ConfigOk cfg) (hs : BurstStart b n) (h : BurstAt cfg b n k b')
    (hk : k < (b.dma.channel n).len.toNat) (a : Nat) : (dmaStep cfg b').mem.read a =
      if (b.dma.channel n).cur.toNat ≤ a ∧ a < (b.dma.channel n).cur.toNat + 4 * (k + 1) ∧ Writable cfg a then 0#8
      else b.mem.read a := by
  have hlen : (b'.dma.channel n).len ≠ 0#32 := fun h0 => by
    have hleft := h.len
    rw [h0, BitVec.toNat_zero] at hleft
    omega
  have hcur := h.cur
  have h4 := hs.aligned
  have htop := hs.top
  rw [dmaStep_eq_stepChannel h.enabled h.st h.alone,
    read_stepChannel_stub ok hs.stub hlen (h.chcr ▸ hs.toMemory) (by omega) (by omega), hcur, h.mem]
  by_cases hnew : (b.dma.channel n).cur.toNat + 4 * k ≤ a ∧ a < (b.dma.channel n).cur.toNat + 4 * k + 4 ∧ Writable cfg a
  · rw [if_pos hnew, if_pos ⟨by omega, by omega, hnew.2.2⟩]
  · rw [if_neg hnew]
    refine if_congr ⟨fun ⟨h1, h2, hw⟩ => ⟨h1, by omega, hw⟩, fun ⟨h1, h2, hw⟩ => ⟨h1, ?_, hw⟩⟩ rfl rfl
    by_contra hge
    exact hnew ⟨by omega, by omega, hw⟩

/-- A step before the last word leaves the channel busy. -/
theorem BurstAt.next (ok : ConfigOk cfg) (hs : BurstStart b n) (h : BurstAt cfg b n k b')
    (hk : k + 1 < (b.dma.channel n).len.toNat) : BurstAt cfg b n (k + 1) (dmaStep cfg b') := by
  have hlen := h.len
  have hmore : ¬(b'.dma.channel n).len.toNat ≤ 1 := by omega
  have hne : (b'.dma.channel n).len ≠ 0#32 := fun h0 => hmore (by rw [h0]; decide)
  have hmem := h.read_dmaStep ok hs (Nat.lt_of_succ_lt hk)
  have hturn : dmaStep cfg b' = b'.moved cfg n := by
    rw [dmaStep_eq_stepChannel h.enabled h.st h.alone, stepChannel_eq, if_neg hmore]
  have hstep : dmaStep cfg b' = stepChannel cfg b' n := dmaStep_eq_stepChannel h.enabled h.st h.alone
  have hchannel : (dmaStep cfg b').dma.channel n = (b'.dma.channel n).advance := by
    rw [hturn, Bus.moved_channel, if_neg hne]
  obtain ⟨hother, -, -, -, henabled, -⟩ := stepChannel_dma cfg b' n
  obtain ⟨hic, hflag, hen, hmaster⟩ := b'.moved_controllers cfg n
  exact {
    enabled := by rw [hstep, henabled, h.enabled]
    st := by rw [hchannel, Channel.advance_st, h.st]
    alone := fun m hm => by rw [hstep, hother m hm, h.alone m hm]
    chcr := by rw [hchannel, Channel.advance_chcr, h.chcr]
    len := by
      rw [hchannel, Channel.advance_len]
      bv_omega
    cur := by
      have hcur := h.cur
      have htop := hs.top
      rw [hchannel, Channel.advance_cur, h.chcr, hs.upward, if_neg Bool.false_ne_true]
      bv_omega
    flag := by rw [hturn, hflag, h.flag]
    en := by rw [hturn, hen, h.en]
    master := by rw [hturn, hmaster, h.master]
    ic := by rw [hturn, hic, h.ic]
    gpu := by rw [hstep, stepChannel_gpu hs.stub, h.gpu]
    mem := hmem }

/-- After `k` steps, with words left, the burst is `k` words on. -/
theorem BurstStart.iterate (ok : ConfigOk cfg) (h : BurstStart b n) (hk : k < (b.dma.channel n).len.toNat) :
    BurstAt cfg b n k ((dmaStep cfg)^[k] b) := by
  induction k with
  | zero => exact h.at_zero
  | succ k ih =>
    rw [Function.iterate_succ_apply']
    exact (ih (Nat.lt_of_succ_lt hk)).next ok h hk

/-- The step of the last word completes the channel (60_exceptions.md R362, R371). -/
theorem BurstAt.last (h : BurstAt cfg b n k b') (hk : k + 1 = (b.dma.channel n).len.toNat) :
    dmaStep cfg b' = completeChannel cfg (b'.moved cfg n) n := by
  have hlen := h.len
  rw [dmaStep_eq_stepChannel h.enabled h.st h.alone, stepChannel_eq, if_pos (by omega)]

/-- The interrupt controller is the same after a completion exactly if the completion raises nothing, or what is pending
already (60_exceptions.md R365). -/
theorem completeChannel_ic_eq_iff (ok : ConfigOk cfg) (b : Bus) (n : ChanIdx) : (completeChannel cfg b n).ic = b.ic ↔
    (b.dma.en.getLsbD n.val && b.dma.master) = false ∨ b.ic.iStat.getLsbD cfg.irqDma = true := by
  rw [completeChannel_ic]
  rcases hen : b.dma.en.getLsbD n.val && b.dma.master with _ | _
  · simp
  · simpa using b.ic.raiseSource_eq_self_iff ok.irqDma

end

/-- Settles O54. -/
theorem dmaBlockTransfer : Obligations.DmaBlockTransfer := by
  intro cfg b n ok hon hstub hst halone hdir hup h4 htop A N
  have hs : BurstStart b n := ⟨hstub, hon, hst, halone, hdir, hup, h4, htop⟩
  refine ⟨fun k hk => ?running, fun hN => ?done⟩
  case running =>
    have h := hs.iterate ok hk
    exact ⟨h.st, h.len, h.cur, h.flag, h.ic⟩
  case done =>
    obtain ⟨k, hk⟩ : ∃ k, k + 1 = N := ⟨N - 1, Nat.sub_add_cancel hN⟩
    have h := hs.iterate ok (k := k) (by omega)
    obtain ⟨hic, -, hen, hmaster⟩ := Bus.moved_controllers cfg ((dmaStep cfg)^[k] b) n
    have hmem := h.read_dmaStep ok hs (by omega)
    have hgpu : (dmaStep cfg ((dmaStep cfg)^[k] b)).gpu = b.gpu := by
      rw [dmaStep_eq_stepChannel h.enabled h.st h.alone, stepChannel_gpu hstub, h.gpu]
    have hcomplete := completeChannel_ic_eq_iff ok (((dmaStep cfg)^[k] b).moved cfg n) n
    rw [hic, hen, hmaster, h.ic, h.en, h.master] at hcomplete
    rw [hk] at hmem
    rw [← hk, Function.iterate_succ_apply']
    refine ⟨?st, ?flag, ?ic, hgpu, fun a => by rw [hk]; exact hmem a⟩ <;> rw [h.last hk]
    case st => rw [completeChannel_channel]
    case flag => exact (flag_completed _ n n).trans (by simp)
    case ic => exact hcomplete

end Sys2Proof.Machine
end

section
/-! The words of a GPU packet (60_exceptions.md R381 to R389): a word written to CMD passes the FIFO and is consumed at
once, and what consuming it does to the packet in assembly. -/

namespace Sys2Proof.Machine

variable {cfg : Config.Params}

/-! ## A word on its way through the FIFO -/

/-- A cursor of a FIFO with at least two slots moves (60_exceptions.md R381). -/
theorem nextSlot_ne (ok : ConfigOk cfg) {k : Nat} (hk : k < cfg.gpuFifoDepth) : nextSlot cfg k ≠ k := by
  have hdepth := ok.fifoDepth
  rw [nextSlot]
  rcases Nat.lt_or_eq_of_le (Nat.succ_le_of_lt hk) with h | h
  · rw [Nat.mod_eq_of_lt h]
    omega
  · rw [← h, Nat.mod_self]
    omega

/-- The processor after the word `w` has gone in and out of its empty FIFO (60_exceptions.md R383). -/
def Gpu.passed (cfg : Config.Params) (g : Gpu) (w : Word) : Gpu :=
  { g with
    fifo := g.fifo.set g.fifoWr w
    fifoRd := nextSlot cfg g.fifoRd
    fifoWr := nextSlot cfg g.fifoWr }

/-- With nothing queued, a drain does nothing. -/
theorem Gpu.drain_of_empty (fuel : Nat) {g : Gpu} (m : Memory) (h : g.fifoRd = g.fifoWr) :
    Gpu.drain cfg fuel g m = (g, m) := by
  cases fuel with
  | zero => rfl
  | succ fuel => simp only [Gpu.drain, if_pos h]

/-- A word written to CMD is consumed at once (60_exceptions.md R383). -/
theorem Gpu.write_eq_consume (ok : ConfigOk cfg) {g : Gpu} (hb : GpuBuffers cfg g) (m : Memory) (w : Word) :
    g.write cfg m w = (g.passed cfg w).consume cfg m w := by
  have hword : (g.fifo.set g.fifoWr w).getD g.fifoRd 0#32 = w := by
    have hlt : g.fifoRd < g.fifo.length := hb.fifoLength ▸ hb.fifoCursor
    simp [← hb.fifoEmpty, hlt]
  have hqueued : g.fifoRd ≠ nextSlot cfg g.fifoWr := by
    rw [← hb.fifoEmpty]
    exact (nextSlot_ne ok hb.fifoCursor).symm
  obtain ⟨fuel, hfuel⟩ : ∃ fuel, cfg.gpuFifoDepth = fuel + 1 := ⟨cfg.gpuFifoDepth - 1, by have := ok.fifoDepth; omega⟩
  have hempty : ((g.passed cfg w).consume cfg m w).1.fifoRd = ((g.passed cfg w).consume cfg m w).1.fifoWr := by
    have hq := Gpu.consume_queue cfg (g.passed cfg w) m w
    rw [hq.fifoRd, hq.fifoWr]
    exact congrArg (nextSlot cfg) hb.fifoEmpty
  rw [Gpu.write, hfuel]
  simp only [Gpu.drain, if_neg hqueued, hword]
  exact Gpu.drain_of_empty fuel _ hempty

theorem GpuBuffers.passed (ok : ConfigOk cfg) {g : Gpu} (hb : GpuBuffers cfg g) (w : Word) :
    GpuBuffers cfg (g.passed cfg w) where
  fifoLength := by simpa [Gpu.passed] using hb.fifoLength
  fifoEmpty := congrArg (nextSlot cfg) hb.fifoEmpty
  fifoCursor := Nat.mod_lt _ (by have := ok.fifoDepth; omega)
  pktLength := hb.pktLength

/-! ## The assembly of a packet -/

/-- The processor with `v` as the next word of its packet in assembly (60_exceptions.md R387). -/
def Gpu.buffer (g : Gpu) (v : Word) : Gpu :=
  { g with
    pkt := g.pkt.set g.pktLen v
    pktLen := g.pktLen + 1
    pktNeed := if g.pktLen = 0 then packetLen (v.extractLsb' 24 8) else g.pktNeed }

theorem Gpu.consume_toVram {g : Gpu} (m : Memory) (v : Word) (h : g.xferMode = .toVram) :
    g.consume cfg m v = (g.advanceTransfer, g.plot cfg m (g.xferPixel cfg).1 (g.xferPixel cfg).2 v) := by
  simp only [Gpu.consume, if_pos h]

/-- An unrecognised first word is dropped (60_exceptions.md R389). -/
theorem Gpu.consume_unrecognised {g : Gpu} (m : Memory) {v : Word} (h : g.xferMode ≠ .toVram) (h0 : g.pktLen = 0)
    (hv : packetLen (v.extractLsb' 24 8) = 0) : g.consume cfg m v = (g, m) := by
  simp only [Gpu.consume, if_neg h, if_pos h0, if_pos hv]

/-- Every other word goes into the packet buffer, and the packet is executed if it is complete (60_exceptions.md R387). -/
theorem Gpu.consume_packet {g : Gpu} (m : Memory) {v : Word} (h : g.xferMode ≠ .toVram)
    (hv : g.pktLen = 0 → packetLen (v.extractLsb' 24 8) ≠ 0) :
    g.consume cfg m v = Gpu.finishPacket cfg (g.buffer v) m := by
  by_cases h0 : g.pktLen = 0
  · simp [Gpu.consume, Gpu.buffer, h, h0, hv h0]
  · simp only [Gpu.consume, Gpu.buffer, if_neg h, if_neg h0]

/-- The three ways a word is consumed. -/
theorem Gpu.consume_cases (cfg : Config.Params) (g : Gpu) (m : Memory) (v : Word) :
    (g.xferMode = .toVram ∧
      g.consume cfg m v = (g.advanceTransfer, g.plot cfg m (g.xferPixel cfg).1 (g.xferPixel cfg).2 v)) ∨
    g.consume cfg m v = (g, m) ∨
    (g.xferMode ≠ .toVram ∧ (g.pktLen = 0 → packetLen (v.extractLsb' 24 8) ≠ 0) ∧
      g.consume cfg m v = Gpu.finishPacket cfg (g.buffer v) m) := by
  by_cases h : g.xferMode = .toVram
  · exact .inl ⟨h, Gpu.consume_toVram m v h⟩
  · by_cases hv : g.pktLen = 0 ∧ packetLen (v.extractLsb' 24 8) = 0
    · exact .inr (.inl (Gpu.consume_unrecognised m h hv.1 hv.2))
    · have hv' := fun h0 hn => hv ⟨h0, hn⟩
      exact .inr (.inr ⟨h, hv', Gpu.consume_packet m h hv'⟩)

theorem GpuBuffers.buffer {g : Gpu} (hb : GpuBuffers cfg g) (v : Word) : GpuBuffers cfg (g.buffer v) where
  fifoLength := hb.fifoLength
  fifoEmpty := hb.fifoEmpty
  fifoCursor := hb.fifoCursor
  pktLength := by simpa [Gpu.buffer] using hb.pktLength

/-- The buffers' invariant looks at the queue and at the length of the packet buffer alone. -/
theorem GpuBuffers.congr {g h : Gpu} (hb : GpuBuffers cfg g) (hq : SameQueue g h) (hp : h.pkt.length = g.pkt.length) :
    GpuBuffers cfg h where
  fifoLength := by rw [hq.fifo, hb.fifoLength]
  fifoEmpty := by rw [hq.fifoRd, hq.fifoWr, hb.fifoEmpty]
  fifoCursor := by rw [hq.fifoRd]; exact hb.fifoCursor
  pktLength := by rw [hp, hb.pktLength]

theorem Gpu.finishPacket_pkt (cfg : Config.Params) (g : Gpu) (m : Memory) : (g.finishPacket cfg m).1.pkt = g.pkt := by
  simp only [Gpu.finishPacket]
  split
  · exact (Gpu.execute_packet cfg g m).1
  · rfl

theorem GpuBuffers.consume {g : Gpu} (hb : GpuBuffers cfg g) (m : Memory) (v : Word) :
    GpuBuffers cfg (g.consume cfg m v).1 := by
  refine hb.congr (Gpu.consume_queue cfg g m v) ?_
  rcases Gpu.consume_cases cfg g m v with ⟨-, h⟩ | h | ⟨-, -, h⟩ <;> rw [h]
  · rfl
  · rw [Gpu.finishPacket_pkt]
    exact List.length_set

/-- A write to CMD leaves the buffers as they must be, the FIFO empty again. -/
theorem GpuBuffers.write (ok : ConfigOk cfg) {g : Gpu} (hb : GpuBuffers cfg g) (m : Memory) (w : Word) :
    GpuBuffers cfg (g.write cfg m w).1 := by
  rw [Gpu.write_eq_consume ok hb]
  exact (hb.passed ok w).consume m w

/-- Word 0 of the packet buffer is the first word buffered. -/
theorem Gpu.pktWord_buffer_first {g : Gpu} (v : Word) (h0 : g.pktLen = 0) (hp : g.pkt ≠ []) : (g.buffer v).pktWord 0 = v := by
  have hlen : 0 < g.pkt.length := List.length_pos_of_ne_nil hp
  simp [Gpu.buffer, Gpu.pktWord, h0, hlen]

theorem Gpu.pktWord_buffer_next {g : Gpu} (v : Word) (h0 : g.pktLen ≠ 0) : (g.buffer v).pktWord 0 = g.pktWord 0 := by
  simp [Gpu.buffer, Gpu.pktWord, h0]

theorem GpuBuffers.pkt_ne_nil (ok : ConfigOk cfg) {g : Gpu} (hb : GpuBuffers cfg g) : g.pkt ≠ [] := by
  have hlen := hb.pktLength
  have hmax := ok.pktMax
  exact List.ne_nil_of_length_pos (by omega)

end Sys2Proof.Machine
end

section
/-! The status word, the length of every packet, and the words of a packet written one after the other
(60_exceptions.md R384 to R389); the packets that set a mode (R405 to R410). -/

namespace Sys2Proof.Machine

variable {cfg : Config.Params}

/-! ## The status word -/

/-- One bit of a word, set or not. -/
theorem getLsbD_ite_twoPow (c : Prop) [Decidable c] {n k : Nat} (hn : n < 32) :
    (if c then BitVec.twoPow 32 n else 0#32).getLsbD k = true ↔ k = n ∧ c := by
  split
  · rename_i h
    simp [BitVec.getLsbD_twoPow, hn, h, eq_comm]
  · rename_i h
    simp [h]

/-- The status word, bit by bit (60_exceptions.md R384). -/
theorem Gpu.status_getLsbD (g : Gpu) (k : Nat) (hk : k < 32) : g.status.getLsbD k = true ↔
    if k < 11 then g.drawMode.getLsbD k = true
    else if k = 11 then g.maskSet = true
    else if k = 12 then g.maskCheck = true
    else if k = 26 then g.pktLen = 0 ∧ g.xferMode = .none
    else if k = 27 then g.xferMode ≠ .none
    else False := by
  have hmode : (g.drawMode.setWidth 32).getLsbD k = true ↔ k < 11 ∧ g.drawMode.getLsbD k = true := by
    rw [BitVec.getLsbD_setWidth, decide_eq_true hk, Bool.true_and]
    exact ⟨fun h => ⟨BitVec.lt_of_getLsbD h, h⟩, And.right⟩
  have hset := getLsbD_ite_twoPow (g.maskSet = true) (n := 11) (k := k) (by decide)
  have hcheck := getLsbD_ite_twoPow (g.maskCheck = true) (n := 12) (k := k) (by decide)
  have hready := getLsbD_ite_twoPow (g.pktLen = 0 ∧ g.xferMode = .none) (n := 26) (k := k) (by decide)
  have hbusy := getLsbD_ite_twoPow (g.xferMode ≠ .none) (n := 27) (k := k) (by decide)
  have hstatus : g.status.getLsbD k = true ↔ (k < 11 ∧ g.drawMode.getLsbD k = true) ∨ (k = 11 ∧ g.maskSet = true) ∨
      (k = 12 ∧ g.maskCheck = true) ∨ (k = 26 ∧ g.pktLen = 0 ∧ g.xferMode = .none) ∨ (k = 27 ∧ g.xferMode ≠ .none) := by
    rw [← hmode, ← hset, ← hcheck, ← hready, ← hbusy, Gpu.status]
    simp only [BitVec.getLsbD_or, Bool.or_eq_true, or_assoc]
    rfl
  rw [hstatus]
  grind

/-! ## The length of a packet (R388) -/

section
variable {op : BitVec 8}

theorem packetLen_polygon (h1 : 0x20 ≤ op.toNat) (h2 : op.toNat ≤ 0x3F) : packetLen op =
    1 + (if op.getLsbD 3 then 4 else 3) * (1 + (if op.getLsbD 2 then 1 else 0)) +
      (if op.getLsbD 4 then 1 else 0) * ((if op.getLsbD 3 then 4 else 3) - 1) := by
  simp only [packetLen]
  rw [if_neg (by omega), if_neg (by omega), if_neg (by omega), if_pos (by omega)]

theorem packetLen_line (h1 : 0x40 ≤ op.toNat) (h2 : op.toNat ≤ 0x5F) :
    packetLen op = if op.getLsbD 3 then 0 else if op.getLsbD 4 then 4 else 3 := by
  simp only [packetLen]
  rw [if_neg (by omega), if_neg (by omega), if_neg (by omega), if_neg (by omega), if_pos (by omega)]

theorem packetLen_rectangle (h1 : 0x60 ≤ op.toNat) (h2 : op.toNat ≤ 0x7F) : packetLen op =
    2 + (if op.getLsbD 2 then 1 else 0) + (if op.getLsbD 3 = false ∧ op.getLsbD 4 = false then 1 else 0) := by
  have hsize : op.toNat / 8 % 4 = 0 ↔ op.getLsbD 3 = false ∧ op.getLsbD 4 = false := by
    simp only [BitVec.getLsbD, Nat.testBit_eq_decide_div_mod_eq, decide_eq_false_iff_not]
    omega
  simp only [packetLen]
  rw [if_neg (by omega), if_neg (by omega), if_neg (by omega), if_neg (by omega), if_neg (by omega), if_pos (by omega)]
  simp only [hsize]

theorem packetLen_copy (h1 : 0x80 ≤ op.toNat) (h2 : op.toNat ≤ 0x9F) : packetLen op = 4 := by
  simp only [packetLen]
  rw [if_neg (by omega), if_neg (by omega), if_neg (by omega), if_neg (by omega), if_neg (by omega), if_neg (by omega),
    if_pos (by omega)]

theorem packetLen_transfer (h1 : 0xA0 ≤ op.toNat) (h2 : op.toNat ≤ 0xDF) : packetLen op = 3 := by
  simp only [packetLen]
  rw [if_neg (by omega), if_neg (by omega), if_neg (by omega), if_neg (by omega), if_neg (by omega), if_neg (by omega),
    if_neg (by omega), if_pos (by omega)]

theorem packetLen_mode (h1 : 0xE1 ≤ op.toNat) (h2 : op.toNat ≤ 0xE6) : packetLen op = 1 := by
  simp only [packetLen]
  rw [if_neg (by omega), if_neg (by omega), if_neg (by omega), if_neg (by omega), if_neg (by omega), if_neg (by omega),
    if_neg (by omega), if_neg (by omega), if_pos ⟨h1, h2⟩]

/-- The opcodes of no packet have length 0, so their word is dropped (60_exceptions.md R388, R389). -/
theorem packetLen_unrecognised
    (h : op.toNat = 0x01 ∨ (0x03 ≤ op.toNat ∧ op.toNat ≤ 0x1F) ∨ op.toNat = 0xE0 ∨ 0xE7 ≤ op.toNat) :
    packetLen op = 0 := by
  simp only [packetLen]
  rw [if_neg (by omega), if_neg (by omega)]
  by_cases hlow : op.toNat < 0x20
  · rw [if_pos hlow]
  · rw [if_neg hlow, if_neg (by omega), if_neg (by omega), if_neg (by omega), if_neg (by omega), if_neg (by omega),
      if_neg (by omega)]

end

/-! ## The words of a packet -/

/-- With no transfer to video RAM running, a word of a packet that is written goes into the packet buffer, and the packet
is executed if it is complete (60_exceptions.md R383, R387). -/
theorem Gpu.write_packet (ok : ConfigOk cfg) {g : Gpu} (hb : GpuBuffers cfg g) (m : Memory) {v : Word}
    (h : g.xferMode ≠ .toVram) (hv : g.pktLen = 0 → packetLen (v.extractLsb' 24 8) ≠ 0) :
    g.write cfg m v = ((g.passed cfg v).buffer v).finishPacket cfg m := by
  rw [Gpu.write_eq_consume ok hb]
  exact Gpu.consume_packet m h hv

/-- `g` with the FIFO registers `fifo`, `rd` and `wr`, and with `words`, the first of a packet of length `need`, at the
front of its packet buffer. -/
def Gpu.assembling (g : Gpu) (fifo : List Word) (rd wr : Nat) (words : List Word) (need : Nat) : Gpu :=
  { g with
    fifo := fifo
    fifoRd := rd
    fifoWr := wr
    pkt := words ++ g.pkt.drop words.length
    pktLen := words.length
    pktNeed := need }

/-- A list with its entry after `l` replaced. -/
theorem set_length_append {α : Type} (l r : List α) (v : α) (hr : r ≠ []) :
    (l ++ r).set l.length v = (l ++ [v]) ++ r.drop 1 := by
  obtain ⟨x, r, rfl⟩ := List.exists_cons_of_ne_nil hr
  simp

section
variable {g : Gpu} {v : Word}

/-- The first word of a packet. -/
theorem Gpu.buffer_first (h0 : g.pktLen = 0) (hp : g.pkt ≠ []) : (g.passed cfg v).buffer v =
    g.assembling (g.fifo.set g.fifoWr v) (nextSlot cfg g.fifoRd) (nextSlot cfg g.fifoWr) [v]
      (packetLen (v.extractLsb' 24 8)) := by
  have hset : g.pkt.set 0 v = [v] ++ g.pkt.drop 1 := set_length_append [] g.pkt v hp
  simp only [Gpu.buffer, Gpu.passed, Gpu.assembling, h0, if_true, hset]
  rfl

/-- Each further word of a packet. -/
theorem Gpu.buffer_assembling {fifo : List Word} {rd wr need : Nat} {words : List Word} (hw : words ≠ [])
    (hroom : words.length < g.pkt.length) : ((g.assembling fifo rd wr words need).passed cfg v).buffer v =
      g.assembling (fifo.set wr v) (nextSlot cfg rd) (nextSlot cfg wr) (words ++ [v]) need := by
  have hset := set_length_append words (g.pkt.drop words.length) v (by
    rwa [ne_eq, List.drop_eq_nil_iff, Nat.not_le])
  rw [List.drop_drop] at hset
  have hne : words.length ≠ 0 := mt List.length_eq_zero_iff.mp hw
  simp only [Gpu.buffer, Gpu.passed, Gpu.assembling, hset, hne, if_false, List.length_append, List.length_singleton]

/-- The words of a packet, written one after the other, are buffered; the packet is executed with its last word. -/
theorem Gpu.write_words (ok : ConfigOk cfg) (hb : GpuBuffers cfg g) (m : Memory) (h : g.xferMode ≠ .toVram)
    (h0 : g.pktLen = 0) (w : Word) (ws : List Word) (hlen : ws.length + 1 ≤ packetLen (w.extractLsb' 24 8)) :
    ∃ fifo rd wr, ∃ g', g' = g.assembling fifo rd wr (w :: ws) (packetLen (w.extractLsb' 24 8)) ∧ GpuBuffers cfg g' ∧
      (w :: ws).foldl (fun r v => r.1.write cfg r.2 v) (g, m) = g'.finishPacket cfg m := by
  induction ws using List.reverseRecOn with
  | nil =>
    refine ⟨_, _, _, _, Gpu.buffer_first h0 (hb.pkt_ne_nil ok), (hb.passed ok w).buffer w, ?_⟩
    exact Gpu.write_packet ok hb m h fun _ => Nat.ne_of_gt hlen
  | append_singleton ws v ih =>
    rw [List.length_append, List.length_singleton] at hlen
    obtain ⟨fifo, rd, wr, g', rfl, hb', hfold⟩ := ih (by omega)
    have hroom : (w :: ws).length < g.pkt.length := by
      have hmax := packetLen_le (w.extractLsb' 24 8)
      have hpkt := ok.pktMax
      rw [List.length_cons, hb.pktLength]
      omega
    have hpartial : (g.assembling fifo rd wr (w :: ws) (packetLen (w.extractLsb' 24 8))).finishPacket cfg m =
        (g.assembling fifo rd wr (w :: ws) (packetLen (w.extractLsb' 24 8)), m) :=
      if_neg (show (w :: ws).length ≠ packetLen _ by rw [List.length_cons]; omega)
    refine ⟨_, _, _, _, Gpu.buffer_assembling (List.cons_ne_nil w ws) hroom, (hb'.passed ok v).buffer v, ?_⟩
    rw [← List.cons_append, List.foldl_append, hfold, hpartial, List.foldl_cons, List.foldl_nil]
    exact Gpu.write_packet ok hb' m h nofun

/-- A word of the packet in assembly. -/
theorem Gpu.pktWord_assembling {fifo : List Word} {rd wr need : Nat} {words : List Word} {k : Nat}
    (hk : k < words.length) : (g.assembling fifo rd wr words need).pktWord k = words.getD k 0#32 :=
  List.getD_append _ _ _ _ hk

/-- The words of a whole packet, written one after the other, are executed as that packet. -/
theorem Gpu.write_whole_packet (ok : ConfigOk cfg) (hb : GpuBuffers cfg g) (m : Memory) (h : g.xferMode ≠ .toVram)
    (h0 : g.pktLen = 0) (w : Word) (ws : List Word) (hlen : ws.length + 1 = packetLen (w.extractLsb' 24 8)) :
    ∃ g' : Gpu, (∀ k, k < (w :: ws).length → g'.pktWord k = (w :: ws).getD k 0#32) ∧ g'.xferMode = g.xferMode ∧
      (w :: ws).foldl (fun r v => r.1.write cfg r.2 v) (g, m) =
        ({ (g'.execute cfg m).1 with pktLen := 0 }, (g'.execute cfg m).2) := by
  obtain ⟨fifo, rd, wr, g', rfl, -, hfold⟩ := Gpu.write_words ok hb m h h0 w ws hlen.le
  exact ⟨_, fun k hk => Gpu.pktWord_assembling hk, rfl, hfold.trans (if_pos hlen)⟩

end

/-- Settles O55. -/
theorem gpuStatusAndFifo : Obligations.GpuStatusAndFifo := by
  refine ⟨fun cfg b k hk => ⟨rfl, b.gpu.status_getLsbD k hk⟩, fun cfg g m w ok hb => ?written, fun op => ?length,
    fun cfg g m w ws ok hb h h0 hlen => ?assembled⟩
  case written =>
    refine ⟨g.passed cfg w, rfl, Gpu.write_eq_consume ok hb m w, hb.write ok m w, fun h h0 hw => ?_⟩
    rw [Gpu.write_eq_consume ok hb]
    exact Gpu.consume_unrecognised m h h0 hw
  case length =>
    refine ⟨fun h => ?_, fun h => ?_, packetLen_polygon, packetLen_line, packetLen_rectangle, packetLen_copy,
      packetLen_transfer, packetLen_mode, packetLen_unrecognised⟩
    · rw [show op = 0x00#8 from BitVec.eq_of_toNat_eq h]
      rfl
    · rw [show op = 0x02#8 from BitVec.eq_of_toNat_eq h]
      rfl
  case assembled =>
    obtain ⟨fifo, rd, wr, g', rfl, hb', hfold⟩ := Gpu.write_words ok hb m h h0 w ws hlen
    exact ⟨_, rfl, hb', hfold⟩

/-! ## The mode packets -/

/-- A packet of one word whose execution changes the processor by `f` and memory not at all (60_exceptions.md R387). -/
theorem Gpu.consume_single {g : Gpu} {m : Memory} {w : Word} (hp : g.pkt ≠ []) (h : g.xferMode ≠ .toVram)
    (h0 : g.pktLen = 0) (hw : packetLen (w.extractLsb' 24 8) = 1) {f : Gpu → Gpu}
    (hexec : ∀ g₁ : Gpu, g₁.pktWord 0 = w → g₁.execute cfg m = (f g₁, m))
    (hf : ∀ g₁ : Gpu, { f g₁ with pktLen := 0 } = f { g₁ with pktLen := 0 }) :
    g.consume cfg m w = (f { g with pkt := g.pkt.set 0 w, pktNeed := 1 }, m) := by
  have hfull : (g.buffer w).pktLen = (g.buffer w).pktNeed := by
    simp only [Gpu.buffer, h0, hw, if_true]
  have hfree : { g.buffer w with pktLen := 0 } = { g with pkt := g.pkt.set 0 w, pktNeed := 1 } := by
    simp only [Gpu.buffer, h0, hw, if_true]
  rw [Gpu.consume_packet m h fun _ => by rw [hw]; decide, Gpu.finishPacket, if_pos hfull,
    hexec _ (Gpu.pktWord_buffer_first w h0 hp), ← hfree, ← hf]

/-- Settles O56: the opcode selects the packet, whose fields are those of its one word. -/
theorem gpuModePackets : Obligations.GpuModePackets := by
  intro cfg g m w hp h h0 g'
  refine ⟨fun hop => ?_, fun hop => ?_, fun hop => ?_, fun hop => ?_, fun hop => ?_, fun hop => ?_⟩
  · exact Gpu.consume_single hp h h0 (hop ▸ rfl) (f := fun g => { g with drawMode := w.extractLsb' 0 11 })
      (fun g₁ hg => by simp only [Gpu.execute, hg, hop]; rfl) fun _ => rfl
  · exact Gpu.consume_single hp h h0 (hop ▸ rfl) (f := fun g => { g with texWindow := w.extractLsb' 0 20 })
      (fun g₁ hg => by simp only [Gpu.execute, hg, hop]; rfl) fun _ => rfl
  · exact Gpu.consume_single hp h h0 (hop ▸ rfl)
      (f := fun g => { g with clipX1 := w.extractLsb' 0 10, clipY1 := w.extractLsb' 10 10 })
      (fun g₁ hg => by simp only [Gpu.execute, hg, hop]; rfl) fun _ => rfl
  · exact Gpu.consume_single hp h h0 (hop ▸ rfl)
      (f := fun g => { g with clipX2 := w.extractLsb' 0 10, clipY2 := w.extractLsb' 10 10 })
      (fun g₁ hg => by simp only [Gpu.execute, hg, hop]; rfl) fun _ => rfl
  · exact Gpu.consume_single hp h h0 (hop ▸ rfl)
      (f := fun g => { g with offX := w.extractLsb' 0 11, offY := w.extractLsb' 11 11 })
      (fun g₁ hg => by simp only [Gpu.execute, hg, hop]; rfl) fun _ => rfl
  · exact Gpu.consume_single hp h h0 (hop ▸ rfl)
      (f := fun g => { g with maskSet := w.getLsbD 0, maskCheck := w.getLsbD 1 })
      (fun g₁ hg => by simp only [Gpu.execute, hg, hop]; rfl) fun _ => rfl

end Sys2Proof.Machine
end

section
/-! The packets that write video RAM in a way the spec defines (60_exceptions.md R386, R387, R401 to R404, R420, R421): the
fill, the flat rectangle, the transfers and the copy, pixel by pixel. -/

namespace Sys2Proof.Machine

variable {cfg : Config.Params}

/-! ## The fields of a packet's words as numbers -/

theorem xField_eq (v : Word) : xField v = v.toNat % 1024 := by
  rw [xField, BitVec.extractLsb'_toNat, Nat.shiftRight_zero]

theorem yField_eq (v : Word) : yField v = v.toNat / 65536 % 512 := by
  rw [yField, BitVec.extractLsb'_toNat, Nat.shiftRight_eq_div_pow]

/-- A width field of 0 means 1024 (60_exceptions.md R402). -/
theorem wrapWidth_eq (v : Word) : wrapWidth v = if v.toNat % 1024 = 0 then 1024 else v.toNat % 1024 := by
  have hfield : (v.extractLsb' 0 10).toNat = v.toNat % 1024 := xField_eq v
  rw [wrapWidth, BitVec.toNat_sub, hfield, BitVec.toNat_ofNat]
  split <;> omega

/-- A height field of 0 means 512 (60_exceptions.md R402). -/
theorem wrapHeight_eq (v : Word) :
    wrapHeight v = if v.toNat / 65536 % 512 = 0 then 512 else v.toNat / 65536 % 512 := by
  have hfield : (v.extractLsb' 16 9).toNat = v.toNat / 65536 % 512 := yField_eq v
  rw [wrapHeight, BitVec.toNat_sub, hfield, BitVec.toNat_ofNat]
  split <;> omega

/-- The colour of a packet is the low 24 bits of its first word. -/
theorem colourField_eq (v : Word) : colourField v = v &&& 0x00FFFFFF#32 := by
  apply BitVec.eq_of_toNat_eq
  have hmask : (v &&& 0x00FFFFFF#32).toNat = v.toNat % 2 ^ 24 := by
    rw [BitVec.toNat_and]
    exact Nat.and_two_pow_sub_one_eq_mod v.toNat 24
  rw [colourField, BitVec.toNat_setWidth, BitVec.extractLsb'_toNat, Nat.shiftRight_zero, hmask]
  omega

/-! ## The kind of a packet -/

section
variable {op : BitVec 8}

theorem packetKind_copy (h1 : 0x80 ≤ op.toNat) (h2 : op.toNat ≤ 0x9F) : packetKind op = .copy := by
  simp only [packetKind]
  rw [if_neg (by omega), if_neg (by omega), if_neg (by omega), if_neg (by omega), if_neg (by omega), if_neg (by omega),
    if_pos (by omega)]

theorem packetKind_toVram (h1 : 0xA0 ≤ op.toNat) (h2 : op.toNat ≤ 0xBF) : packetKind op = .toVram := by
  simp only [packetKind]
  rw [if_neg (by omega), if_neg (by omega), if_neg (by omega), if_neg (by omega), if_neg (by omega), if_neg (by omega),
    if_neg (by omega), if_pos (by omega)]

theorem packetKind_fromVram (h1 : 0xC0 ≤ op.toNat) (h2 : op.toNat ≤ 0xDF) : packetKind op = .fromVram := by
  simp only [packetKind]
  rw [if_neg (by omega), if_neg (by omega), if_neg (by omega), if_neg (by omega), if_neg (by omega), if_neg (by omega),
    if_neg (by omega), if_neg (by omega), if_pos (by omega)]

end

section
variable {g : Gpu} (m : Memory)

theorem Gpu.execute_fill (h : packetKind ((g.pktWord 0).extractLsb' 24 8) = .fill) :
    g.execute cfg m = (g, g.fill cfg m) := by
  simp only [Gpu.execute, h]

theorem Gpu.execute_flatRect (h : packetKind ((g.pktWord 0).extractLsb' 24 8) = .flatRect) :
    g.execute cfg m = (g, g.flatRect cfg m) := by
  simp only [Gpu.execute, h]

theorem Gpu.execute_copy (h : packetKind ((g.pktWord 0).extractLsb' 24 8) = .copy) :
    g.execute cfg m = (g, g.copy cfg m) := by
  simp only [Gpu.execute, h]

theorem Gpu.execute_toVram (h : packetKind ((g.pktWord 0).extractLsb' 24 8) = .toVram) :
    g.execute cfg m = (g.startTransfer .toVram, m) := by
  simp only [Gpu.execute, h]

theorem Gpu.execute_fromVram (h : packetKind ((g.pktWord 0).extractLsb' 24 8) = .fromVram) :
    g.execute cfg m = (g.startTransfer .fromVram, m) := by
  simp only [Gpu.execute, h]

end

/-- Executing a packet changes no byte outside video RAM. -/
theorem Gpu.read_execute (ok : ConfigOk cfg) (g : Gpu) (m : Memory) {a : Nat} (ha : regionOf cfg a ≠ some .vram) :
    (g.execute cfg m).2.read a = m.read a :=
  Gpu.execute_keeps (P := fun m' => m'.read a = m.read a) ok (fun m' p v hp hm' => by
    have hne : a ≠ p := fun h => ha (h ▸ hp)
    rw [Memory.read_write, if_neg hne, hm']) g rfl

/-! ## The fill -/

/-- A fill sets the pixels of its rectangle, wrapped at the edges of the video RAM, and no other (60_exceptions.md
R401). -/
theorem Gpu.pixel_fill (ok : ConfigOk cfg) (g : Gpu) (m : Memory) {x y : Nat} (hx : x < cfg.vramWidth) :
    let inside := ∃ i j, i < xField (g.pktWord 2) ∧ j < yField (g.pktWord 2) ∧
      x = (xField (g.pktWord 1) + i) % cfg.vramWidth ∧ y = (yField (g.pktWord 1) + j) % cfg.vramHeight
    (inside → (g.fill cfg m).pixel cfg x y = colourField (g.pktWord 0)) ∧
    (¬inside → (g.fill cfg m).pixel cfg x y = m.pixel cfg x y) := by
  intro inside
  exact pixel_forRect (upd := fun _ => colourField (g.pktWord 0))
    (hit := fun i j => x = (xField (g.pktWord 1) + i) % cfg.vramWidth ∧ y = (yField (g.pktWord 1) + j) % cfg.vramHeight)
    (fun _ => rfl) (fun _ _ m => pixel_setPixel m _ (Nat.mod_lt _ ok.vram_pos.1) hx) m

/-- Settles O57: the third word completes the packet, and its execution is the fill. -/
theorem gpuFillRectangle : Obligations.GpuFillRectangle := by
  intro cfg g m w0 w1 w2 ok hb h h0 hop r r' X Y W H inside
  obtain ⟨g', hword, hmode, hwritten⟩ := Gpu.write_whole_packet ok hb m h h0 w0 [w1, w2] (hop ▸ rfl)
  have hw0 : g'.pktWord 0 = w0 := hword 0 (by simp)
  have hw1 : g'.pktWord 1 = w1 := hword 1 (by simp)
  have hw2 : g'.pktWord 2 = w2 := hword 2 (by simp)
  have hexec : g'.execute cfg m = (g', g'.fill cfg m) := Gpu.execute_fill m (by rw [hw0, hop]; rfl)
  have hr' : r' = ({ g' with pktLen := 0 }, g'.fill cfg m) := by
    rw [hexec] at hwritten
    exact hwritten
  rw [hr']
  refine ⟨rfl, hmode, fun x y hx _ => ?pixel, fun a ha => ?byte⟩
  case pixel =>
    have hpixel := g'.pixel_fill ok m (y := y) hx
    rw [hw0, hw1, hw2, xField_eq, xField_eq, yField_eq, yField_eq, colourField_eq] at hpixel
    exact hpixel
  case byte =>
    have hread := g'.read_execute ok m ha
    rwa [hexec] at hread

/-! ## The flat rectangle -/

/-- What a plot of colour `c` makes of a pixel (60_exceptions.md R420). -/
def Gpu.plotted (g : Gpu) (c v : Word) : Word :=
  if g.maskCheck = true ∧ v.getLsbD 31 = true then v else c ||| g.maskBit

theorem Gpu.plotted_idem (g : Gpu) (c v : Word) : g.plotted c (g.plotted c v) = g.plotted c v := by
  by_cases h : g.maskCheck = true ∧ v.getLsbD 31 = true
  · rw [Gpu.plotted, Gpu.plotted, if_pos h, if_pos h]
  · rw [show g.plotted c v = c ||| g.maskBit from if_neg h, Gpu.plotted, ite_self]

/-- A plot makes of its own pixel what `Gpu.plotted` says and leaves every other. -/
theorem Gpu.pixel_plot_eq (g : Gpu) (m : Memory) {x y x' y' : Nat} (c : Word) (hx : x < cfg.vramWidth)
    (hx' : x' < cfg.vramWidth) : (g.plot cfg m x y c).pixel cfg x' y' =
      if x' = x ∧ y' = y then g.plotted c (m.pixel cfg x' y') else m.pixel cfg x' y' := by
  rw [pixel_plot g m c hx hx', Gpu.plotted]
  by_cases hp : x' = x ∧ y' = y
  · obtain ⟨rfl, rfl⟩ := hp
    simp only [true_and, and_self, if_true, ite_not]
  · rw [if_neg hp, if_neg fun h => hp ⟨h.1, h.2.1⟩]

/-- One turn of a flat rectangle: a position outside the clip rectangle or outside video RAM is skipped (60_exceptions.md
R421). -/
theorem Gpu.pixel_clippedPlot (g : Gpu) (m : Memory) (c : Word) {px py : Int} {x y : Nat} (hx : x < cfg.vramWidth)
    (hy : y < cfg.vramHeight) :
    (if g.inClip px py && inVram cfg px py then g.plot cfg m px.toNat py.toNat c else m).pixel cfg x y =
      if (px = x ∧ py = y) ∧ g.inClip x y = true then g.plotted c (m.pixel cfg x y) else m.pixel cfg x y := by
  by_cases hp : px = x ∧ py = y
  · obtain ⟨rfl, rfl⟩ := hp
    have hin : inVram cfg x y = true := by
      simp [inVram, hx, hy]
    rcases hclip : g.inClip x y with _ | _
    · simp
    · simp [hin, g.pixel_plot_eq m c hx hx]
  · rw [if_neg (c := _ ∧ g.inClip x y = true) fun h => hp h.1]
    split
    · rename_i h
      have hin := (Bool.and_eq_true _ _ ▸ h).2
      simp only [inVram, Bool.and_eq_true, decide_eq_true_eq] at hin
      rw [g.pixel_plot_eq m c (by omega) hx, if_neg (by omega)]
    · rfl

/-- A pixel that is plotted under a condition changes if the condition holds and the pixel is not protected. -/
theorem Gpu.ite_plotted (g : Gpu) (p : Prop) [Decidable p] (c v : Word) : (if p then g.plotted c v else v) =
    if p ∧ ¬(g.maskCheck = true ∧ v.getLsbD 31 = true) then c ||| g.maskBit else v := by
  by_cases hp : p
  · simp only [hp, if_true, true_and, ite_not, Gpu.plotted]
  · simp only [hp, if_false, false_and]

/-- The clip rectangle, for a pixel of video RAM (60_exceptions.md R408). -/
theorem Gpu.inClip_iff (g : Gpu) (x y : Nat) : g.inClip x y = true ↔
    g.clipX1.toNat ≤ x ∧ x ≤ g.clipX2.toNat ∧ g.clipY1.toNat ≤ y ∧ y ≤ g.clipY2.toNat := by
  simp only [Gpu.inClip, Bool.and_eq_true, decide_eq_true_eq, Nat.cast_le, and_assoc]

/-- A flat rectangle plots the pixels of video RAM that lie in its rectangle, moved by the drawing offset, and in the clip
rectangle (60_exceptions.md R421). -/
theorem Gpu.pixel_flatRect (g : Gpu) (m : Memory) {x y : Nat} (hx : x < cfg.vramWidth) (hy : y < cfg.vramHeight) :
    let x0 : Int := ((g.pktWord 1).extractLsb' 0 11).toInt + g.offX.toInt
    let y0 : Int := ((g.pktWord 1).extractLsb' 16 11).toInt + g.offY.toInt
    (g.flatRect cfg m).pixel cfg x y =
      if (x0 ≤ x ∧ x < x0 + g.rectSize.1 ∧ y0 ≤ y ∧ y < y0 + g.rectSize.2) ∧ g.inClip x y = true
      then g.plotted (colourField (g.pktWord 0)) (m.pixel cfg x y) else m.pixel cfg x y := by
  intro x0 y0
  obtain ⟨hhit, hmiss⟩ : _ ∧ _ := pixel_forRect (cfg := cfg) (x := x) (y := y) (w := g.rectSize.1) (h := g.rectSize.2)
    (hit := fun i j => (x0 + i = x ∧ y0 + j = y) ∧ g.inClip x y = true) (g.plotted_idem (colourField (g.pktWord 0)))
    (fun i j m => g.pixel_clippedPlot m (colourField (g.pktWord 0)) hx hy) m
  have hinside : (∃ i j, i < g.rectSize.1 ∧ j < g.rectSize.2 ∧ (x0 + (i : Int) = x ∧ y0 + (j : Int) = y) ∧
      g.inClip x y = true) ↔
      (x0 ≤ x ∧ x < x0 + g.rectSize.1 ∧ y0 ≤ y ∧ y < y0 + g.rectSize.2) ∧ g.inClip x y = true := by
    constructor
    · rintro ⟨i, j, hi, hj, ⟨hpx, hpy⟩, hclip⟩
      exact ⟨by omega, hclip⟩
    · rintro ⟨hrect, hclip⟩
      exact ⟨(x - x0).toNat, (y - y0).toNat, by omega, by omega, ⟨by omega, by omega⟩, hclip⟩
  rw [hinside] at hhit hmiss
  split
  · rename_i h
    exact hhit h
  · rename_i h
    exact hmiss h

/-- The opcode's size field (60_exceptions.md R421). -/
theorem Gpu.rectSize_eq (g : Gpu) {op : BitVec 8} (hop : (g.pktWord 0).extractLsb' 24 8 = op)
    (h : op = 0x60#8 ∨ op = 0x68#8 ∨ op = 0x70#8 ∨ op = 0x78#8) : g.rectSize =
      (if op = 0x60#8 then (g.pktWord 2).toNat % 1024 else if op = 0x68#8 then 1 else if op = 0x70#8 then 8 else 16,
        if op = 0x60#8 then (g.pktWord 2).toNat / 65536 % 512
        else if op = 0x68#8 then 1 else if op = 0x70#8 then 8 else 16) := by
  have hfield : (g.pktWord 0).extractLsb' 27 2 = op.extractLsb' 3 2 := by
    rw [← hop]
    apply BitVec.eq_of_getLsbD_eq
    intro i hi
    interval_cases i <;> simp
  rw [Gpu.rectSize, hfield]
  rcases h with rfl | rfl | rfl | rfl
  · exact congrArg₂ Prod.mk (xField_eq _) (yField_eq _)
  · rfl
  · rfl
  · rfl

/-- Settles O58. -/
theorem gpuFlatRectangle : Obligations.GpuFlatRectangle := by
  intro cfg g m ok op hop x0 y0 W H
  have hkind : packetKind ((g.pktWord 0).extractLsb' 24 8) = .flatRect := by
    rw [show (g.pktWord 0).extractLsb' 24 8 = op from rfl]
    rcases hop with h | h | h | h <;> rw [h] <;> rfl
  refine ⟨by rw [Gpu.execute_flatRect m hkind], fun x y hx hy => ?pixel, fun a ha => g.read_execute ok m ha⟩
  have hsize : g.rectSize = (W, H) := g.rectSize_eq rfl hop
  rw [Gpu.execute_flatRect m hkind, g.pixel_flatRect m hx hy, hsize, Gpu.ite_plotted, colourField_eq]
  exact if_congr (by rw [g.inClip_iff, and_assoc]) rfl rfl

/-! ## Transfers -/

/-- The transfer that a transfer packet starts, by the fields of its words (60_exceptions.md R403, R404). -/
theorem Gpu.startTransfer_eq (g : Gpu) (mode : XferMode) : g.startTransfer mode = { g with
    xferX := (g.pktWord 1).toNat % 1024
    xferY := (g.pktWord 1).toNat / 65536 % 512
    xferW := if (g.pktWord 2).toNat % 1024 = 0 then 1024 else (g.pktWord 2).toNat % 1024
    xferH := if (g.pktWord 2).toNat / 65536 % 512 = 0 then 512 else (g.pktWord 2).toNat / 65536 % 512
    xferI := 0
    xferMode := mode } := by
  rw [Gpu.startTransfer, xField_eq, yField_eq, wrapWidth_eq, wrapHeight_eq]

/-- One plot, as the statements write it: the pixel it hits, the mask flags, and no byte outside video RAM. -/
theorem Gpu.plot_pixels (ok : ConfigOk cfg) (g : Gpu) (m : Memory) {x y : Nat} (c : Word) (hx : x < cfg.vramWidth)
    (hy : y < cfg.vramHeight) :
    (∀ x' y', x' < cfg.vramWidth → y' < cfg.vramHeight → (g.plot cfg m x y c).pixel cfg x' y' =
      if x' = x ∧ y' = y ∧ ¬(g.maskCheck = true ∧ (m.pixel cfg x' y').getLsbD 31 = true)
      then c ||| (if g.maskSet then 0x80000000#32 else 0#32) else m.pixel cfg x' y') ∧
    ∀ a, regionOf cfg a ≠ some .vram → (g.plot cfg m x y c).read a = m.read a :=
  ⟨fun _ _ hx' _ => pixel_plot g m c hx hx', fun _ ha => read_plot ok g m c hx hy ha⟩

/-! ## The copy, turn by turn -/

/-- The memory after the first `k` turns of a rectangle of width `w`, in the order of rows. -/
def rectTurns (w : Nat) (f : Nat → Nat → Memory → Memory) (m : Memory) : Nat → Memory
  | 0 => m
  | k + 1 => f (k % w) (k / w) (rectTurns w f m k)

/-- The turns of one row, from the turn that begins it. -/
theorem foldl_range_eq_rectTurns {w : Nat} (f : Nat → Nat → Memory → Memory) (m : Memory) (j : Nat) {i : Nat} (hi : i ≤ w) :
    (List.range i).foldl (fun m i => f i j m) (rectTurns w f m (w * j)) = rectTurns w f m (w * j + i) := by
  induction i with
  | zero => rfl
  | succ i ih =>
    have hcol : (w * j + i) % w = i := by rw [Nat.mul_add_mod, Nat.mod_eq_of_lt hi]
    have hrow : (w * j + i) / w = j := by
      rw [Nat.mul_add_div (Nat.zero_lt_of_lt hi), Nat.div_eq_of_lt hi, Nat.add_zero]
    rw [List.range_succ, List.foldl_append, ih (Nat.le_of_succ_le hi), ← Nat.add_assoc, rectTurns, hcol, hrow]
    rfl

/-- A rectangle is its turns, one after the other. -/
theorem forRect_eq_rectTurns (w h : Nat) (f : Nat → Nat → Memory → Memory) (m : Memory) :
    forRect w h f m = rectTurns w f m (w * h) := by
  induction h with
  | zero => rfl
  | succ h ih =>
    have hlast : forRect w (h + 1) f m = (List.range w).foldl (fun m i => f i h m) (forRect w h f m) := by
      rw [forRect, List.range_succ, List.foldl_append]
      rfl
    rw [hlast, ih, foldl_range_eq_rectTurns f m h (Nat.le_refl w), Nat.mul_succ]

/-- One turn of a copy: the pixel of the source rectangle is read and plotted at the same place of the destination
(60_exceptions.md R402). -/
def Gpu.copyTurn (cfg : Config.Params) (g : Gpu) (sx sy dx dy i j : Nat) (m : Memory) : Memory :=
  g.plot cfg m ((dx + i) % cfg.vramWidth) ((dy + j) % cfg.vramHeight)
    (m.pixel cfg ((sx + i) % cfg.vramWidth) ((sy + j) % cfg.vramHeight))

theorem Gpu.copy_eq_rectTurns (g : Gpu) (m : Memory) : g.copy cfg m =
    rectTurns (wrapWidth (g.pktWord 3)) (g.copyTurn cfg (xField (g.pktWord 1)) (yField (g.pktWord 1)) (xField (g.pktWord 2))
      (yField (g.pktWord 2))) m (wrapWidth (g.pktWord 3) * wrapHeight (g.pktWord 3)) :=
  forRect_eq_rectTurns ..

/-- Settles O59. -/
theorem gpuTransferWord : Obligations.GpuTransferWord := by
  refine ⟨fun cfg g m v ok => ⟨fun hmode => ?toVram, fun hmode => if_pos hmode, fun hmode => if_neg hmode⟩,
    fun cfg g m => ⟨fun h1 h2 => ?startTo, fun h1 h2 => ?startFrom⟩, fun cfg g m ok h1 h2 => ?copy⟩
  case toVram =>
    obtain ⟨hw, hh⟩ := ok.vram_pos
    obtain ⟨hpixel, hbyte⟩ := g.plot_pixels ok m v (Nat.mod_lt (g.xferX + g.xferI % g.xferW) hw)
      (Nat.mod_lt (g.xferY + g.xferI / g.xferW) hh)
    rw [Gpu.consume_toVram m v hmode]
    refine ⟨rfl, fun x' y' hx' hy' => (hpixel x' y' hx' hy').trans (if_congr ?_ rfl rfl), hbyte⟩
    refine and_congr_right fun hx => and_congr_right fun hy => ?_
    rw [hx, hy]
  case startTo => rw [Gpu.execute_toVram m (packetKind_toVram h1 h2), Gpu.startTransfer_eq]
  case startFrom => rw [Gpu.execute_fromVram m (packetKind_fromVram h1 h2), Gpu.startTransfer_eq]
  case copy =>
    intro SX SY DX DY W H
    refine ⟨rectTurns W (g.copyTurn cfg SX SY DX DY) m, rfl, ?_, fun k _ => ?_⟩
    · rw [Gpu.execute_copy m (packetKind_copy h1 h2), Gpu.copy_eq_rectTurns, wrapWidth_eq, wrapHeight_eq, xField_eq, yField_eq,
        xField_eq, yField_eq]
    · exact g.plot_pixels ok _ _ (Nat.mod_lt _ ok.vram_pos.1) (Nat.mod_lt _ ok.vram_pos.2)

end Sys2Proof.Machine
end

section
/-! What every step keeps behind the bus (60_exceptions.md): what the bus's own operations keep, a cycle keeps. Then the
invariant of the devices and the end of a tick, each by what these operations do to it. -/

namespace Sys2Proof.Machine

variable {cfg : Config.Params}

/-! ## What the bus's operations keep, a cycle keeps -/

/-- `Q` is kept by whatever can happen behind the bus between two ends of a tick: a change of memory, a read or a write
of a device register, and the two things `DmaStep` does to a channel (60_exceptions.md R362). -/
structure KeptByBus (cfg : Config.Params) (Q : Bus → Prop) : Prop where
  mem : ∀ (b : Bus) (m : Memory), Q b → Q { b with mem := m }
  read : ∀ (b : Bus) (reg : DeviceReg), Q b → Q (deviceRead cfg b reg).2
  write : ∀ (b : Bus) (reg : DeviceReg) (w mask : Word), Q b → Q (deviceWrite cfg b reg w mask)
  advance : ∀ (b : Bus) (n : ChanIdx), Q b → Q { b with dma := b.dma.setChannel n (b.dma.channel n).advance }
  complete : ∀ (b : Bus) (n : ChanIdx), Q b → Q (completeChannel cfg b n)

namespace KeptByBus

variable {Q : Bus → Prop}

/-- An instruction's one bus move is a read, a memory write or a device write (20_memory.md R95, R97). -/
theorem busMove (h : KeptByBus cfg Q) {b b' : Bus} (hm : BusMove cfg b b') (hb : Q b) : Q b' := by
  cases hm with
  | none hb' => rwa [hb']
  | read a w hr =>
    rcases ht : targetOf cfg (alignWord a) with ⟨r, p⟩ | reg | _
    · rw [busReadWord_region ht] at hr
      cases hr
      exact hb
    · rw [busReadWord_device ht] at hr
      have hb' : (deviceRead cfg b reg).2 = b' := congrArg Prod.snd (Except.ok.inj hr)
      exact hb' ▸ h.read b reg hb
    · rw [busReadWord_unmapped ht] at hr
      cases hr
  | write a d be hw =>
    rcases ht : targetOf cfg (alignWord a) with ⟨r, p⟩ | reg | _
    · by_cases hr : r = .rom
      · subst hr
        rw [memWriteBE_rom ht] at hw
        cases hw
        exact hb
      · rw [memWriteBE_region ht hr] at hw
        cases hw
        exact h.mem b _ hb
    · rw [memWriteBE_device ht] at hw
      cases hw
      exact h.write b reg d _ hb
    · rw [memWriteBE_unmapped ht] at hw
      cases hw

/-- A word that goes to the GPU's port is a write to CMD (60_exceptions.md R367). -/
theorem portWrite (h : KeptByBus cfg Q) {b : Bus} (n : ChanIdx) (w : Word) (hb : Q b) : Q (portWrite cfg b n w) := by
  rw [Machine.portWrite]
  split
  · have hw := h.write b .gpuCmd w (BitVec.allOnes 32) hb
    rwa [deviceWrite, BitVec.and_allOnes] at hw
  · exact hb

/-- A word that comes from the GPU's port is a read of DATA (60_exceptions.md R367). -/
theorem portRead (h : KeptByBus cfg Q) {b : Bus} (n : ChanIdx) (hb : Q b) : Q (portRead cfg b n).2 := by
  rw [Machine.portRead]
  split
  · exact h.read b .gpuData hb
  · exact hb

theorem moveWord (h : KeptByBus cfg Q) {b : Bus} (n : ChanIdx) (c : Channel) (hb : Q b) : Q (moveWord cfg b n c) := by
  rw [Machine.moveWord]
  split
  · exact h.portWrite n _ hb
  · exact h.mem _ _ (h.portRead n hb)

/-- A channel's turn moves a word, advances the channel and may complete it (60_exceptions.md R362). -/
theorem stepChannel (h : KeptByBus cfg Q) (b : Bus) (n : ChanIdx) (hb : Q b) : Q (stepChannel cfg b n) := by
  have hmoved : Q (b.moved cfg n) := by
    rw [Bus.moved]
    split
    · exact hb
    · have hadvance := h.advance _ n (h.moveWord n (b.dma.channel n) hb)
      rwa [(moveWord_devices cfg b n _).1] at hadvance
  rw [stepChannel_eq]
  split
  · exact h.complete _ n hmoved
  · exact hmoved

/-- The CPU's part of a cycle and the DMA step after it. -/
theorem cycle {s u : State} (h : KeptByBus s.cfg Q) (hu : cpuStep s = .next u) (hs : Q s.bus) : Q u.dmaStep.bus := by
  rw [State.dmaStep_bus, cpuStep_cfg hu]
  exact dmaStep_induction h.stepChannel (h.busMove (cpuStep_busMove hu) hs)

end KeptByBus

/-! ## The GPU's invariant -/

/-- A running transfer has a size in range and words left (60_exceptions.md R384, R403). -/
def Gpu.TransferInRange (g : Gpu) : Prop :=
  g.xferMode ≠ .none →
    (g.xferX < 1024 ∧ g.xferY < 512) ∧ (1 ≤ g.xferW ∧ g.xferW ≤ 1024) ∧ (1 ≤ g.xferH ∧ g.xferH ≤ 512) ∧
      g.xferI < g.xferW * g.xferH

theorem Gpu.startTransfer_inRange (g : Gpu) (mode : XferMode) : (g.startTransfer mode).TransferInRange := fun _ =>
  have hw := wrapWidth_range (g.pktWord 2)
  have hh := wrapHeight_range (g.pktWord 2)
  ⟨⟨xField_lt _, yField_lt _⟩, hw, hh, Nat.mul_pos hw.1 hh.1⟩

theorem Gpu.TransferInRange.execute {g : Gpu} (h : g.TransferInRange) (m : Memory) :
    (g.execute cfg m).1.TransferInRange := by
  rcases Gpu.execute_transfer cfg g m with ⟨hmode, hx, hy, hw, hh, hi⟩ | ⟨mode, hs⟩
  · rwa [Gpu.TransferInRange, hmode, hx, hy, hw, hh, hi]
  · exact hs ▸ g.startTransfer_inRange mode

/-- A transfer that has moved a word has words left or has ended (60_exceptions.md R386, R387). -/
theorem Gpu.TransferInRange.advance {g : Gpu} (h : g.TransferInRange) : g.advanceTransfer.TransferInRange := by
  intro hmode
  have hlast : g.xferI + 1 ≠ g.xferW * g.xferH := fun hl => hmode (if_pos hl)
  have hrunning : g.xferMode ≠ .none := by
    rwa [Gpu.advanceTransfer, if_neg hlast] at hmode
  obtain ⟨hxy, hw, hh, hi⟩ := h hrunning
  exact ⟨hxy, hw, hh, Nat.lt_of_le_of_ne hi hlast⟩

theorem GpuInv.passed (ok : ConfigOk cfg) {g : Gpu} (h : GpuInv cfg g) (w : Word) : GpuInv cfg (g.passed cfg w) :=
  ⟨h.buffers.passed ok w, h.packet, h.transfer⟩

theorem GpuInv.advance {g : Gpu} (h : GpuInv cfg g) : GpuInv cfg g.advanceTransfer :=
  ⟨h.buffers.congr ⟨rfl, rfl, rfl, rfl⟩ rfl, h.packet, Gpu.TransferInRange.advance h.transfer⟩

/-- A packet in assembly that may be complete is executed or stays, and a complete one leaves the buffer free. -/
theorem GpuInv.finishPacket {g : Gpu} (hb : GpuBuffers cfg g) (hle : g.pktLen ≤ g.pktNeed)
    (hneed : g.pktNeed = packetLen ((g.pktWord 0).extractLsb' 24 8)) (ht : g.TransferInRange) (m : Memory) :
    GpuInv cfg (g.finishPacket cfg m).1 := by
  refine ⟨hb.congr (Gpu.finishPacket_queue cfg g m) (by rw [Gpu.finishPacket_pkt]), ?packet, ?transfer⟩ <;>
    rw [Gpu.finishPacket]
  case packet =>
    split
    · exact fun h => absurd rfl h
    · rename_i hne
      exact fun _ => ⟨Nat.lt_of_le_of_ne hle hne, hneed⟩
  case transfer =>
    split
    · exact ht.execute m
    · exact ht

theorem GpuInv.consume (ok : ConfigOk cfg) {g : Gpu} (h : GpuInv cfg g) (m : Memory) (v : Word) :
    GpuInv cfg (g.consume cfg m v).1 := by
  rcases Gpu.consume_cases cfg g m v with ⟨-, hc⟩ | hc | ⟨-, hv, hc⟩ <;> rw [hc]
  · exact h.advance
  · exact h
  · refine .finishPacket (h.buffers.buffer v) ?le ?need h.transfer m
    case le =>
      by_cases h0 : g.pktLen = 0
      · have hpos := hv h0
        simp only [Gpu.buffer, h0, ↓reduceIte]
        omega
      · simpa only [Gpu.buffer, if_neg h0] using Nat.succ_le_of_lt (h.packet h0).1
    case need =>
      by_cases h0 : g.pktLen = 0
      · rw [Gpu.pktWord_buffer_first v h0 (h.buffers.pkt_ne_nil ok)]
        exact if_pos h0
      · rw [Gpu.pktWord_buffer_next v h0]
        exact (if_neg h0).trans (h.packet h0).2

theorem GpuInv.write (ok : ConfigOk cfg) {g : Gpu} (h : GpuInv cfg g) (m : Memory) (w : Word) :
    GpuInv cfg (g.write cfg m w).1 := by
  rw [Gpu.write_eq_consume ok h.buffers]
  exact (h.passed ok w).consume ok m w

theorem GpuInv.dataRead {g : Gpu} (h : GpuInv cfg g) (m : Memory) : GpuInv cfg (g.dataRead cfg m).2 := by
  rw [Gpu.dataRead]
  split
  · exact h.advance
  · exact h

/-! ## The invariant of the devices -/

section
variable {b : Bus}

/-- A channel replaced by one that stores only the implemented bits. -/
theorem DeviceInv.setChannel (h : DeviceInv cfg b) {n : ChanIdx} {c : Channel} (hc : c.chcr &&& 0xFF88F8FC#32 = 0#32) :
    DeviceInv cfg { b with dma := b.dma.setChannel n c } where
  chcr m := by
    rw [Dma.channel_setChannel]
    split
    · exact hc
    · exact h.chcr m
  sources := h.sources
  gpu := h.gpu

/-- Raising one of the two wired sources (60_exceptions.md R348). -/
theorem DeviceInv.raise (h : DeviceInv cfg b) {k : Nat} (hk : k = cfg.irqVblank ∨ k = cfg.irqDma) :
    DeviceInv cfg { b with ic := b.ic.raiseSource k } where
  chcr := h.chcr
  sources j hj hs := by
    rw [Ic.raiseSource_getLsbD _ _ hj, Bool.or_eq_true, decide_eq_true_eq] at hs
    rcases hs with hs | rfl
    · exact h.sources j hj hs
    · exact hk
  gpu := h.gpu

theorem DeviceInv.gpuMoved (h : DeviceInv cfg b) {g : Gpu} (hg : GpuInv cfg g) (m : Memory) :
    DeviceInv cfg { b with gpu := g, mem := m } := ⟨h.chcr, h.sources, hg⟩

/-- No write to a device register breaks the invariant: I_STAT is only cleared, CHCR is masked (60_exceptions.md R343,
R354). -/
theorem DeviceInv.write (ok : ConfigOk cfg) (h : DeviceInv cfg b) (reg : DeviceReg) (w mask : Word) :
    DeviceInv cfg (deviceWrite cfg b reg w mask) := by
  cases reg with
  | iStat =>
    refine ⟨h.chcr, fun j hj hs => h.sources j hj ?_, h.gpu⟩
    rw [deviceWrite, Ic.acknowledge, BitVec.getLsbD_and, Bool.and_eq_true] at hs
    exact hs.1
  | madr n => exact h.setChannel (h.chcr n)
  | bcr n => exact h.setChannel (h.chcr n)
  | chcr n =>
    rw [deviceWrite, Dma.writeChcr_eq_setChannel]
    refine h.setChannel ?_
    rw [writeChcr_chcr, BitVec.and_assoc]
    exact BitVec.and_zero
  | gpuCmd => exact h.gpuMoved (h.gpu.write ok b.mem _) _
  | _ => exact ⟨h.chcr, h.sources, h.gpu⟩

/-- A completion sets the channel idle, sets its flag and raises at most the DMA source (60_exceptions.md R362, R365). -/
theorem DeviceInv.complete (h : DeviceInv cfg b) (n : ChanIdx) : DeviceInv cfg (completeChannel cfg b n) := by
  have hidle : DeviceInv cfg { b with dma := b.dma.setChannel n { b.dma.channel n with st := .idle } } :=
    h.setChannel (h.chcr n)
  refine ⟨hidle.chcr, ?_, h.gpu⟩
  rw [completeChannel_ic]
  split
  · exact (h.raise (.inr rfl)).sources
  · exact h.sources

end

theorem DeviceInv.keptByBus (ok : ConfigOk cfg) : KeptByBus cfg (DeviceInv cfg) where
  mem _ _ h := ⟨h.chcr, h.sources, h.gpu⟩
  read b reg h := by
    by_cases hreg : reg = .gpuData
    · subst hreg
      exact h.gpuMoved (h.gpu.dataRead b.mem) b.mem
    · rwa [deviceRead_bus hreg]
  write _ reg w mask h := h.write ok reg w mask
  advance _ n h := h.setChannel (h.chcr n)
  complete _ n h := h.complete n

/-- The raster line is no part of the invariant. -/
theorem GpuInv.line {g : Gpu} (h : GpuInv cfg g) (l : Word) : GpuInv cfg { g with line := l } where
  buffers := ⟨h.buffers.fifoLength, h.buffers.fifoEmpty, h.buffers.fifoCursor, h.buffers.pktLength⟩
  packet := h.packet
  transfer := h.transfer

/-- The end of a tick moves the line and raises at most the vertical-blank source (60_exceptions.md R390). -/
theorem DeviceInv.countCycle {s : State} (h : DeviceInv s.cfg s.bus) : DeviceInv s.cfg s.countCycle.bus := by
  rcases s.countCycle_bus with hb | ⟨l, hb | hb⟩ <;> rw [hb]
  · exact h
  · exact h.gpuMoved (h.gpu.line l) s.bus.mem
  · exact (h.gpuMoved (h.gpu.line l) s.bus.mem).raise (.inl rfl)

/-- Settles O47: the operations behind the bus keep the invariant, so a cycle does, and the tick's end moves the line and
raises a wired source. -/
theorem stepKeepsTheDeviceInvariant : Obligations.StepKeepsTheDeviceInvariant := by
  intro s t ok h hs
  refine ⟨step_cfg h, ?_⟩
  rw [step_cfg h]
  obtain ⟨u, hu, rfl⟩ := step_eq_next.mp h
  have hcfg : u.dmaStep.cfg = s.cfg := u.dmaStep_cfg.trans (cpuStep_cfg hu)
  have hcycle : DeviceInv s.cfg u.dmaStep.bus := (DeviceInv.keptByBus ok).cycle hu hs
  rw [← hcfg] at hcycle ⊢
  exact hcycle.countCycle

/-! ## The tick -/

theorem Gpu.drain_line (cfg : Config.Params) (fuel : Nat) (g : Gpu) (m : Memory) :
    (Gpu.drain cfg fuel g m).1.line = g.line := by
  induction fuel generalizing g m with
  | zero => rfl
  | succ fuel ih =>
    simp only [Gpu.drain]
    split
    · rfl
    · rw [ih, (Gpu.consume_queue ..).line]

theorem Gpu.dataRead_line (cfg : Config.Params) (g : Gpu) (m : Memory) : (g.dataRead cfg m).2.line = g.line := by
  rw [Gpu.dataRead]
  split <;> rfl

/-- Only the end of a tick moves the raster line (60_exceptions.md R390). -/
theorem keptByBus_line (cfg : Config.Params) (l : Word) : KeptByBus cfg fun b => b.gpu.line = l where
  mem _ _ h := h
  read b reg h := by
    by_cases hreg : reg = .gpuData
    · subst hreg
      exact (Gpu.dataRead_line cfg b.gpu b.mem).trans h
    · rwa [deviceRead_bus hreg]
  write b reg w mask h := by
    cases reg with
    | gpuCmd => exact (Gpu.drain_line ..).trans h
    | _ => exact h
  advance _ _ h := h
  complete _ _ h := h

theorem Gpu.nextLine_of_lt {g : Gpu} {n : Nat} (h : (g.line + 1#32).toNat < n) :
    g.nextLine n = ({ g with line := g.line + 1#32 }, false) := if_neg (Nat.not_le.mpr h)

theorem Gpu.nextLine_of_le {g : Gpu} {n : Nat} (h : n ≤ (g.line + 1#32).toNat) :
    g.nextLine n = ({ g with line := 0#32 }, true) := if_pos h

section
variable {s : State}

theorem State.countCycle_of_lt (h : s.tickCycle + 1 < s.cfg.tickBudget) :
    s.countCycle = { s with tickCycle := s.tickCycle + 1 } := if_pos h

theorem State.countCycle_of_le (h : s.cfg.tickBudget ≤ s.tickCycle + 1) :
    s.countCycle = State.tickEnd { s with tickCycle := 0 } := if_neg (Nat.not_lt.mpr h)

/-- The end of a tick within a frame: the next line, and no source raised (60_exceptions.md R390). -/
theorem State.tickEnd_of_lt (h : (s.bus.gpu.line + 1#32).toNat < s.cfg.lineCount) :
    s.tickEnd = { s with bus := { s.bus with gpu := { s.bus.gpu with line := s.bus.gpu.line + 1#32 } } } := by
  rw [State.tickEnd, Gpu.nextLine_of_lt h]
  rfl

/-- The end of a frame's last tick: line 0, and the vertical-blank source raised. -/
theorem State.tickEnd_of_le (h : s.cfg.lineCount ≤ (s.bus.gpu.line + 1#32).toNat) :
    s.tickEnd = { s with bus := { s.bus with
      gpu := { s.bus.gpu with line := 0#32 }
      ic := s.bus.ic.raiseSource s.cfg.irqVblank } } := by
  rw [State.tickEnd, Gpu.nextLine_of_le h]
  rfl

/-- The end of a tick leaves the line 0 or below the line count, and the rest of `TickInv` to the cycle count. -/
theorem State.tickEnd_tickInv (hcount : s.tickCycle = 0 ∨ s.tickCycle < s.cfg.tickBudget) : TickInv s.tickEnd := by
  rcases Nat.lt_or_ge (s.bus.gpu.line + 1#32).toNat s.cfg.lineCount with h | h
  · rw [State.tickEnd_of_lt h]
    exact ⟨.inr h, hcount⟩
  · rw [State.tickEnd_of_le h]
    exact ⟨.inl rfl, hcount⟩

theorem TickInv.countCycle (h : TickInv s) : TickInv s.countCycle := by
  rcases Nat.lt_or_ge (s.tickCycle + 1) s.cfg.tickBudget with hlt | hle
  · rw [State.countCycle_of_lt hlt]
    exact ⟨h.line, .inr hlt⟩
  · rw [State.countCycle_of_le hle]
    exact State.tickEnd_tickInv (.inl rfl)

/-- A step keeps the tick's invariant: before the end of the cycle it changes neither the line nor the count. -/
theorem TickInv.step {t : State} (h : TickInv s) (hs : step s = .next t) : TickInv t := by
  obtain ⟨u, hu, rfl⟩ := step_eq_next.mp hs
  have hhost := cpuStep_host hu
  have hline : u.dmaStep.bus.gpu.line = s.bus.gpu.line := (keptByBus_line s.cfg _).cycle hu rfl
  have hdma : TickInv u.dmaStep := by
    refine ⟨?line, ?count⟩
    case line => rw [hline, State.dmaStep_cfg, hhost.cfg]; exact h.line
    case count => rw [State.dmaStep_tickCycle, State.dmaStep_cfg, hhost.tickCycle, hhost.cfg]; exact h.count
  exact hdma.countCycle

end

/-- Settles O60. -/
theorem tickEnd : Obligations.TickEnd := by
  refine ⟨fun s => ⟨State.countCycle_of_lt, State.countCycle_of_le, ?_, TickInv.countCycle⟩, fun s t hs h =>
    ⟨step_cfg hs, h.step hs⟩⟩
  rcases Nat.lt_or_ge (s.bus.gpu.line + 1#32).toNat s.cfg.lineCount with h | h
  · exact ⟨_, _, State.tickEnd_of_lt h, rfl, fun _ => ⟨rfl, rfl⟩, fun hle => absurd h (Nat.not_lt.mpr hle)⟩
  · exact ⟨_, _, State.tickEnd_of_le h, rfl, fun hlt => absurd hlt (Nat.not_lt.mpr h), fun _ =>
      ⟨rfl, fun _ hj => Ic.raiseSource_getLsbD _ _ hj⟩⟩

end Sys2Proof.Machine
end

section
/-! The instruction of a cycle (70_reset_and_hazards.md R451, R452): the four bytes that decode are the word that the
fetch reads, and the CPU's part of the cycle is that word's instruction. -/

namespace Sys2Proof.Machine

/-- Four bytes decode to `i` exactly when the word they make does (30_encoding.md R120). -/
theorem decodeBytes_eq_ok {b0 b1 b2 b3 : Byte} {i : Instr} :
    decodeBytes [b0, b1, b2, b3] = .ok (i, []) ↔ decode (wordOfBytes b0 b1 b2 b3) = .ok i := by
  rw [decodeBytes]
  rcases decode (wordOfBytes b0 b1 b2 b3) with e | j
  · simp [Except.map]
  · simp [Except.map]

/-- A word of memory is made of the four bytes from its address, little-endian (20_memory.md R72, R74). -/
theorem Memory.readWord_eq_wordOfBytes (m : Memory) (p : Nat) :
    m.readWord p = wordOfBytes (m.read p) (m.read (p + 1)) (m.read (p + 2)) (m.read (p + 3)) := rfl

/-- With no interrupt due, the CPU's part of a cycle is the fetched word's instruction (70_reset_and_hazards.md R452 S3
to S6). -/
theorem cpuStep_of_decode {s : State} {w : Word} {i : Instr} (hint : s.interruptRequested = false)
    (hf : s.fetch = .ok w) (hd : decode w = .ok i) : cpuStep s = exec i s := by
  simp only [cpuStep, hint, hf, runWord, hd, Bool.false_eq_true, if_false]

/-- Settles O5: the fetch reads the word of the four bytes, so the CPU's part of the cycle is `exec i s`. -/
theorem stepRunsDecodedInstruction : Obligations.StepRunsDecodedInstruction := by
  intro s r p i hs hbytes
  have hd : decode (s.bus.mem.readWord p) = .ok i := by
    rw [Memory.readWord_eq_wordOfBytes]
    exact decodeBytes_eq_ok.mp hbytes
  have hcpu : cpuStep s = exec i s := cpuStep_of_decode hs.noInterrupt hs.fetch_eq hd
  rewrite [← hcpu]
  rfl

end Sys2Proof.Machine
end
